-- ==== Sys2Proof/Word.lean ====
section
/-!
DEFINITION. The words, byte sequences and basic types of the block (`00_scope.md` R9, R10, R12), and the
types the spec leaves opaque, as plain tokens (R8; log entry 1).
-/

namespace Sys2Proof

/-- A byte is 8 bits, bit 0 the least significant (R9). -/
abbrev Byte := BitVec 8

/-- `U16` of R12: a serial number, a checksum, the CRC register, a course word. -/
abbrev U16 := BitVec 16

/-- A raw coordinate, 32 bits unsigned (R101). -/
abbrev U32 := BitVec 32

/-- `Bytes` of R12: a finite sequence of bytes, first byte first. -/
abbrev Bytes := List Byte

/-- A device identity, as the ASCII bytes of its digit string (R12 `Digits`).  The type admits any byte string,
because an EV_CMD may carry an identity in another form, which then matches no session (R285); `Digits.wf` of
`WellFormed.lean` is R12's form (log entry 13). -/
abbrev Digits := List Byte

/-- `CID`, opaque with decidable equality (R8, D40; log entry 1). The token is never computed with. -/
structure Cid where
  token : Nat
  deriving DecidableEq, Repr, Inhabited

/-- `PEER`, an opaque string (R8, D42; log entry 1). -/
structure Peer where
  text : Bytes
  deriving DecidableEq, Repr, Inhabited

/-- `REF`, the opaque reference of a request (R8, D26; log entry 1). -/
structure Ref where
  token : Nat
  deriving DecidableEq, Repr, Inhabited

/-- `TIME`, opaque: the block never compares, subtracts or orders times (R8, R323, D28; log entry 1). -/
structure Time where
  token : Nat
  deriving DecidableEq, Repr, Inhabited

/-- An opaque duration, handed to the timer facility and read by no rule (R8 AUTO_LOCK_DELAY, D25). -/
structure Delay where
  token : Nat
  deriving DecidableEq, Repr, Inhabited

/-- `AlarmClass` of R12. -/
inductive AlarmClass where
  | normal | sos | lowBatt | powerCut | shock
  deriving DecidableEq, Repr

/-- `CmdKind` of R12. -/
inductive CmdKind where
  | lock | unlock | batteryCheck
  deriving DecidableEq, Repr

/-- The four protocol-ids an acknowledgement can carry, as the type restriction R215 asks for. -/
inductive AckProto where
  | p01 | p13 | p12 | p22
  deriving DecidableEq, Repr

/-- The seven RX.* rules DEC.DISPATCH selects from (R107, R174). -/
inductive RxRule where
  | login | heartbeat | locBasic | locExt | cmdResp21 | cmdResp15 | unknown
  deriving DecidableEq, Repr

/-- The twelve named conditions, a closed enumeration (R300, D29). -/
inductive Cond where
  | eTransport | eIncomplete | eShort | eStart | eTrunc | eLen | eCrc
  | ePayload | eUnknownProto | eBadReq | eNotConn | eCmdLen
  deriving DecidableEq, Repr

/-- The `s` operand of S.REFRESH (R232): a heartbeat passes `volt` and `gsm`, an extended location passes
`none` for both. -/
structure StatusUpdate where
  ign   : Bool
  relay : Bool
  alarm : AlarmClass
  chg   : Bool
  volt  : Option Byte
  gsm   : Option Byte
  deriving DecidableEq, Repr

end Sys2Proof
end

