-- ==== Sys2Proof/Config.lean ====
section
/-!
DEFINITION. What is fixed for the machine: the constants of `00_scope.md` R7, the type of the configuration
registers of R8 and R37, their values at reset (log entry 5), and the two values nothing fixes.
-/

namespace Sys2Proof.Config

/-- CRC_INIT (R7). -/
abbrev crcInit : U16 := 0xFFFF
/-- CRC_POLY (R7); the implicit x^16 term is the bit shifted out (R131). -/
abbrev crcPoly : U16 := 0x1021
/-- CRC_XOROUT (R7). -/
abbrev crcXorOut : U16 := 0xFFFF
/-- START_MARKER (R7). -/
abbrev startMarker : Bytes := [0x78, 0x78]
/-- STOP_MARKER (R7). -/
abbrev stopMarker : Bytes := [0x0D, 0x0A]
/-- LEN_OVERHEAD (R7): frame length is the length byte plus 5. -/
abbrev lenOverhead : Nat := 5
/-- MIN_FRAME (R7). -/
abbrev minFrame : Nat := 10
/-- The smallest length byte that leaves room for protocol-id, serial number and checksum (R90, R171). -/
abbrev minLength : Nat := 5
/-- COORD_DIV (R7). -/
abbrev coordDiv : Nat := 1800000
/-- YEAR_BASE (R7). -/
abbrev yearBase : Nat := 2000
/-- SEQ_INIT (R7). -/
abbrev seqInit : U16 := 1
/-- ACK_LEN (R7). -/
abbrev ackLen : Byte := 0x05
/-- CMD_PROTO (R7). -/
abbrev cmdProto : Byte := 0x80
/-- CMD_RESERVED (R7). -/
abbrev cmdReserved : Bytes := [0, 0, 0, 0]
/-- IMEI_BYTES (R7), also the minimum login payload (R92). -/
abbrev imeiBytes : Nat := 8
/-- HB_BLOCK (R7), also the minimum heartbeat payload (R93). -/
abbrev hbBlock : Nat := 4
/-- Minimum basic-location payload (R94). -/
abbrev locBasicMin : Nat := 18
/-- Minimum extended-location payload (R95, D15). -/
abbrev locExtMin : Nat := 19
/-- X12_NORTH_BIT (R7). -/
abbrev x12NorthBit : Nat := 10
/-- X12_WEST_BIT (R7). -/
abbrev x12WestBit : Nat := 11
/-- X12_FIX_BIT (R7). -/
abbrev x12FixBit : Nat := 12
/-- X22_WEST_BIT (R7, `90_conflicts.md` C5). -/
abbrev x22WestBit : Nat := 10
/-- X22_SOUTH_BIT (R7, C5). -/
abbrev x22SouthBit : Nat := 11
/-- X22_FIX_BIT (R7, C5). -/
abbrev x22FixBit : Nat := 4
/-- X22_IGN_BIT (R7, C5). -/
abbrev x22IgnBit : Nat := 5
/-- The longest command text (R217). -/
abbrev cmdTextMax : Nat := 245
/-- The longest payload (R90). -/
abbrev payloadMax : Nat := 250
/-- The longest frame (R113). -/
abbrev frameMax : Nat := 260
/-- The token of CMD.BLOQUEAR (R114). -/
abbrev tokBloquear : Bytes := [0x42, 0x4C, 0x4F, 0x51, 0x55, 0x45, 0x41, 0x52]
/-- The token of CMD.LIBERAR (R114). -/
abbrev tokLiberar : Bytes := [0x4C, 0x49, 0x42, 0x45, 0x52, 0x41, 0x52]
/-- The token of CMD.BATERIA (R114). -/
abbrev tokBateria : Bytes := [0x42, 0x41, 0x54, 0x45, 0x52, 0x49, 0x41]
/-- The text `Relay,1#` (R115). -/
abbrev textLock : Bytes := [0x52, 0x65, 0x6C, 0x61, 0x79, 0x2C, 0x31, 0x23]
/-- The text `Relay,0#` (R115). -/
abbrev textUnlock : Bytes := [0x52, 0x65, 0x6C, 0x61, 0x79, 0x2C, 0x30, 0x23]

/-- One alarm class's row of LOW_BATT_FN: the flag when no voltage code is cached, and the flag for each of the
256 codes (bit `v` of `known`). -/
structure LowBattRow where
  unknown : Bool
  known   : BitVec 256
  deriving DecidableEq, Repr, Inhabited

/-- LOW_BATT_FN (R8, R237, D13) as plain data: its domain is finite, so every total function
`(AlarmClass, Option Byte) -> Bool` is one such table (`Laws/Flags.lean` proves it; log entry 6). -/
structure LowBattTable where
  normal   : LowBattRow
  sos      : LowBattRow
  lowBatt  : LowBattRow
  powerCut : LowBattRow
  shock    : LowBattRow
  deriving DecidableEq, Repr, Inhabited

/-- The configuration registers (R8, R37): read-only for the life of the block. `none` is "unbounded". -/
structure Params where
  verifyRxCrc   : Bool
  lowBattFn     : LowBattTable
  autoLockDelay : Delay
  rxBufCap      : Option Nat
  maxConn       : Option Nat
  maxPend       : Option Nat
  deriving DecidableEq, Repr, Inhabited

/-- The default instance of LOW_BATT_FN: `alarm = LOW_BATT`, whatever the voltage (R237, D13). -/
def defaultLowBatt : LowBattTable :=
  let never : LowBattRow := { unknown := false, known := 0 }
  { normal := never, sos := never, powerCut := never, shock := never
    lowBatt := { unknown := true, known := BitVec.allOnes 256 } }

/-- AUTO_LOCK_DELAY has no value in the source (R322, D25): nothing can be proved of this one. -/
opaque autoLockDelay : Delay

/-- The free value behind R263: which of several sessions that hold one identity receives the `n`-th command for
which there is a choice. Nothing fixes it, so a claim holds for every choice (D23; log entry 8). -/
opaque freeChoice : Nat → Nat

/-- The configuration `State.reset` carries. DESIGN CHOICE for VERIFY_RX_CRC, which the spec leaves OPEN (D2):
false, as in the reference. The others are the defaults R8 names. Statements quantify over every configuration
(log entry 5). -/
def defaultParams : Params :=
  { verifyRxCrc := false, lowBattFn := defaultLowBatt, autoLockDelay := autoLockDelay
    rxBufCap := none, maxConn := none, maxPend := none }

end Sys2Proof.Config
end

