-- ==== Sys2Proof/Machine/Bytes.lean ====
section
/-!
DEFINITION. Byte sequences (`00_scope.md` R10, R11): slices, `find`, `MemRead` and `MemWrite`, and the bit slice
of R9.  Every multi-byte integer is big-endian (R62), decided here and nowhere else.
-/

namespace Sys2Proof.Machine

/-- `b[i:j]`: bytes `i` up to but not including `j`, empty if `i >= j` (R10). -/
def slice (b : Bytes) (i j : Nat) : Bytes := (b.drop i).take (j - i)

/-- `b[i]`; every rule that reads it has checked the length. -/
def byteAt (b : Bytes) (i : Nat) : Byte := b.getD i 0

/-- The big-endian unsigned integer the bytes make, first byte most significant (R11, R62). -/
def beNat (b : Bytes) : Nat := b.foldl (fun acc x => acc * 256 + x.toNat) 0

/-- `MemRead(b, off, n)` (R11): defined when `off + n <= len(b)`, which every rule that uses it checks first. -/
def memRead (b : Bytes) (off n : Nat) : Nat := beNat (slice b off (off + n))

/-- The bytes `MemWrite(out, n, v)` appends: `v mod 256^n`, most significant first (R11). -/
def beBytes : Nat → Nat → Bytes
  | 0, _ => []
  | n + 1, v => BitVec.ofNat 8 (v / 256 ^ n) :: beBytes n v

/-- `b` begins with `m`. -/
def beginsWith : Bytes → Bytes → Bool
  | [], _ => true
  | _ :: _, [] => false
  | x :: m, y :: b => if x = y then beginsWith m b else false

/-- The least `i` with `b[i : i + len(m)] = m`, or `none`. -/
def findFirst (m : Bytes) : Bytes → Option Nat
  | [] => if m = [] then some 0 else none
  | x :: b => if beginsWith m (x :: b) then some 0 else (findFirst m b).map (· + 1)

/-- `find(b, m, from)` (R10): the least index `i >= from` at which `m` stands in `b`. -/
def find (b m : Bytes) (start : Nat) : Option Nat := (findFirst m (b.drop start)).map (· + start)

/-- `b` contains `m` as a contiguous sub-sequence (R105). -/
def containsBytes (b m : Bytes) : Bool := (findFirst m b).isSome

/-- The digit pair of a byte: high nibble first (R63). -/
def nibbles (b : Byte) : List Nat := [b.toNat / 16, b.toNat % 16]

/-- Order of byte strings, used only to keep tables in one canonical order (log entry 12). -/
def bytesLt : Bytes → Bytes → Bool
  | _, [] => false
  | [], _ :: _ => true
  | x :: a, y :: b => if x.toNat < y.toNat then true else if x = y then bytesLt a b else false

end Sys2Proof.Machine
end

