-- ==== Sys2Proof/Machine/Checksum.lean ====
section
/-!
DEFINITION. The Checksum Engine's computations (`40_crc.md` R130 to R134, R136), as functions of register values
and bytes.  The operations CRC.* themselves, which write `CRC.R`, stand in `Machine/Crc.lean`.
-/

namespace Sys2Proof.Machine

/-- `reflect8` (R136): bit `i` of the result is bit `7 - i` of `b`. -/
def reflect8 (b : Byte) : Byte := b.reverse

/-- `reflect16` (R136): bit `i` of the result is bit `15 - i` of `w`. -/
def reflect16 (w : U16) : U16 := w.reverse

/-- One step of the division: a 16-bit left shift, and the polynomial in when the bit shifted out was 1 (R131). -/
def crcShift (r : U16) : U16 := if r.getLsbD 15 then (r <<< 1) ^^^ Config.crcPoly else r <<< 1

/-- The step of CRC.BYTE, `n` times. -/
def crcShifts : Nat → U16 → U16
  | 0, r => r
  | n + 1, r => crcShifts n (crcShift r)

/-- CRC.BYTE(b) on the register value `r` (R131). -/
def crcMix (r : U16) (b : Byte) : U16 := crcShifts 8 (r ^^^ ((reflect8 b).setWidth 16 <<< 8))

/-- The register after CRC.INIT and CRC.BYTE for each byte in order (R133). -/
def crcRun (bs : Bytes) : U16 := bs.foldl crcMix Config.crcInit

/-- CRC.FINAL on the register value `r` (R132). -/
def crcOut (r : U16) : U16 := reflect16 r ^^^ Config.crcXorOut

/-- CRC.SUM(bytes), the value (R133). -/
def crcSumOf (bs : Bytes) : U16 := crcOut (crcRun bs)

/-- CRC.VERIFY(bytes, c), the value (R134). -/
def crcVerifyOf (bs : Bytes) (c : U16) : Bool := crcSumOf bs = c

end Sys2Proof.Machine
end

