-- ==== Sys2Proof/Machine/Frames.lean ====
section
/-!
DEFINITION. The frame forms (`30_encoding.md` R90, R91, R97; `43_encode.md` R210, R216), built byte by byte: pure
functions from operands to a byte sequence.
-/

namespace Sys2Proof.Machine

/-- Start marker, body, big-endian checksum of the body, stop marker (R90, R91). -/
def wrapBody (body : Bytes) : Bytes :=
  Config.startMarker ++ body ++ beBytes 2 (crcSumOf body).toNat ++ Config.stopMarker

/-- The checksummed bytes of a frame of format F: length byte, protocol-id, payload, serial number (R90, R91). -/
def frameBody (proto : Byte) (payload : Bytes) (serial : U16) : Bytes :=
  [BitVec.ofNat 8 (payload.length + Config.minLength), proto] ++ payload ++ beBytes 2 serial.toNat

/-- The four protocol-ids TX.ACK takes (R210, R215). -/
def ackByte : AckProto → Byte
  | .p01 => 0x01
  | .p13 => 0x13
  | .p12 => 0x12
  | .p22 => 0x22

/-- The four checksummed bytes `05 pp sh sl` of an acknowledgement (R210, `90_conflicts.md` C2). -/
def ackBody (pp : AckProto) (serial : U16) : Bytes :=
  [Config.ackLen, ackByte pp] ++ beBytes 2 serial.toNat

/-- TX.ACK(pp, serial), the 10-byte frame (R210). -/
def ackBytes (pp : AckProto) (serial : U16) : Bytes := wrapBody (ackBody pp serial)

/-- The checksummed bytes of a command frame (R216). -/
def cmdBody (text : Bytes) (serial : U16) : Bytes :=
  [BitVec.ofNat 8 (10 + text.length), Config.cmdProto, BitVec.ofNat 8 (4 + text.length)] ++ Config.cmdReserved
    ++ text ++ beBytes 2 serial.toNat

/-- TX.CMD(text, serial), the `15 + n` bytes, for a text R217 admits (R216). -/
def cmdBytes (text : Bytes) (serial : U16) : Bytes := wrapBody (cmdBody text serial)

/-- Whether TX.CMD takes the text (R217). -/
def cmdTextOk (text : Bytes) : Bool := text.length ≤ Config.cmdTextMax

end Sys2Proof.Machine
end

