-- ==== Sys2Proof/Machine/Messages.lean ====
section
/-!
DEFINITION. The records that exist while one event is processed (`10_state.md` R40), the status cache (R25) and
the log record (R288).
-/

namespace Sys2Proof.Machine

/-- The fields of a `Frame` after the structural checks (R40): the length byte, protocol-id, payload and serial number,
which DEC.HEADER extracts (R173), and the stored checksum, which DEC.CHECK reads (R172). -/
structure Header where
  len     : Nat
  proto   : Byte
  payload : Bytes
  serial  : U16
  cksum   : U16
  deriving DecidableEq, Repr

/-- A terminal-info byte, decoded (R98, R40). -/
structure TermInfo where
  relay : Bool
  gpsOn : Bool
  alarm : AlarmClass
  chg   : Bool
  ign   : Bool
  armed : Bool
  deriving DecidableEq, Repr

/-- `HeartbeatStatus` (R40, R176). -/
structure HeartbeatStatus where
  relay : Bool
  gpsOn : Bool
  alarm : AlarmClass
  chg   : Bool
  ign   : Bool
  armed : Bool
  volt  : Byte
  gsm   : Byte
  lang  : Byte
  deriving DecidableEq, Repr

/-- The status cache `SESS[cid].st` (R25): `none` means "never written on this connection". -/
structure StatusCache where
  ign     : Option Bool
  relay   : Option Bool
  alarm   : Option AlarmClass
  chg     : Option Bool
  lowbatt : Option Bool
  volt    : Option Byte
  gsm     : Option Byte
  upd     : Option Time
  deriving DecidableEq, Repr

/-- The (year, month, day, hour, minute, second) of a location, six naturals with no calendar check (R102, D4). -/
structure DateTime where
  year   : Nat
  month  : Nat
  day    : Nat
  hour   : Nat
  minute : Nat
  second : Nat
  deriving DecidableEq, Repr

/-- A signed coordinate, exact: `units / 1800000` degrees (R101, R183). A raw value 0 is 0 whatever the sign flag
(log entry 11). -/
structure Degrees where
  units : Int
  deriving DecidableEq, Repr

/-- `LocationFix` (R40). -/
structure LocationFix where
  time    : DateTime
  sats    : BitVec 4
  lat     : Degrees
  lon     : Degrees
  speed   : Byte
  course  : BitVec 10
  fix     : Bool
  ign     : Option Bool
  relay   : Option Bool
  alarm   : Option AlarmClass
  chg     : Option Bool
  lowbatt : Option Bool
  volt    : Option Byte
  gsm     : Option Byte
  deriving DecidableEq, Repr

/-- `Message` (R40): `none` inside a variant is the failure tag of its field group (R182). -/
inductive Message where
  | login     (imei : Option Digits)
  | heartbeat (hb : Option HeartbeatStatus)
  | locBasic  (fix : Option LocationFix)
  | locExt    (fix : Option (LocationFix × TermInfo))
  | cmdResp   (text : Bytes)
  | unknown
  deriving DecidableEq, Repr

/-- What a log record says of its frame: the message, or the structural condition it was dropped with (R288). -/
inductive Decoded where
  | message (m : Message)
  | dropped (e : Cond)
  deriving DecidableEq, Repr

/-- The log record of R288. -/
structure LogRecord where
  imei    : Option Digits
  proto   : Option Byte
  serial  : Option U16
  raw     : Bytes
  decoded : Decoded
  deriving DecidableEq, Repr

/-- Outcome of a unit of work (R13): a frame is ACCEPTED or DROPPED, a host request is DONE or REJECTED. -/
inductive UnitOutcome where
  | accepted
  | dropped (e : Cond)
  | done
  | rejected (e : Cond)
  deriving DecidableEq, Repr

end Sys2Proof.Machine
end

