-- ==== Sys2Proof/Syntax.lean ====
section
/-!
DEFINITION. The operations of the block, one constructor per row of `spec/opcode_table.json` (41 rows), with the
operands the row and its rule give.  An RX.* operation carries what its frame carries (payload, serial number)
and what the delivery adds (connection, time); its checksum is no operand, it is a function of the rest (R91).
-/

namespace Sys2Proof

/-- The operations of the block. -/
inductive Instr where
  -- inbound messages (R175 to R181)
  | rxLogin     (cid : Cid) (now : Time) (p : Bytes) (serial : U16)
  | rxHeartbeat (cid : Cid) (now : Time) (p : Bytes) (serial : U16)
  | rxLocBasic  (cid : Cid) (now : Time) (p : Bytes) (serial : U16)
  | rxLocExt    (cid : Cid) (now : Time) (p : Bytes) (serial : U16)
  | rxCmdResp21 (cid : Cid) (now : Time) (p : Bytes) (serial : U16)
  | rxCmdResp15 (cid : Cid) (now : Time) (p : Bytes) (serial : U16)
  | rxUnknown   (cid : Cid) (now : Time) (proto : Byte) (p : Bytes) (serial : U16)
  -- outbound frames (R211 to R214, R216)
  | txAck01 (serial : U16)
  | txAck13 (serial : U16)
  | txAck12 (serial : U16)
  | txAck22 (serial : U16)
  | txCmd   (text : Bytes) (serial : U16)
  -- host requests by token (R251 to R253)
  | cmdBloquear (id : Digits) (ref : Ref) (now : Time)
  | cmdLiberar  (id : Digits) (ref : Ref) (now : Time)
  | cmdBateria  (id : Digits) (ref : Ref) (now : Time)
  -- host events (R281 to R283, R285, R286)
  | evConnect    (cid : Cid) (peer : Peer)
  | evDisconnect (cid : Cid)
  | evRx         (cid : Cid) (data : Bytes) (now : Time)
  | evCmd        (id : Digits) (token : Bytes) (ref : Ref) (now : Time)
  | evTimer      (id : Digits) (now : Time)
  -- the Checksum Engine (R130 to R134)
  | crcInit
  | crcByte   (b : Byte)
  | crcFinal
  | crcSum    (bytes : Bytes)
  | crcVerify (bytes : Bytes) (c : U16)
  -- the Frame Reassembler (R151)
  | frScan (buf : Bytes)
  -- the Protocol Codec, decode side (R170, R173, R174) and encode side (R210)
  | decCheck    (f : Bytes)
  | decHeader   (f : Bytes)
  | decDispatch (proto : Byte)
  | txAck       (pp : AckProto) (serial : U16)
  -- the Device Session register file (R230 to R236)
  | sConnect    (cid : Cid) (peer : Peer)
  | sLogin      (cid : Cid) (d : Digits)
  | sRefresh    (cid : Cid) (st : StatusUpdate) (now : Time)
  | sTouch      (cid : Cid) (now : Time)
  | sStatus     (cid : Cid)
  | sNextSerial (cid : Cid)
  | sDisconnect (cid : Cid)
  -- the Command Dispatcher (R255, R257, R260)
  | cRequest (id : Digits) (kind : CmdKind) (ref : Option Ref) (now : Time)
  | cConfirm (cid : Cid) (t : Bytes) (now : Time)
  | cFire    (id : Digits) (now : Time)
  -- the per-frame pipeline (R284)
  | process (cid : Cid) (f : Bytes) (now : Time)
  deriving DecidableEq, Repr

end Sys2Proof
end

