-- ==== Sys2Proof/WellFormed.lean ====
section
/-!
DEFINITION. The static checks on an operation's operands: what its encoding admits (R90, R107, R217) and what its
operand type admits (R12).  Nothing here looks at the state.
-/

namespace Sys2Proof

/-- R12 `Digits`: 1 to 16 decimal digit characters, the first of them not `'0'`. -/
def Digits.wf (d : Digits) : Bool :=
  1 ≤ d.length && d.length ≤ 16 && d.all (fun c => 0x30 ≤ c.toNat && c.toNat ≤ 0x39) && d.head? != some 0x30

/-- A payload fits its one-byte length field (R90). -/
def payloadOk (p : Bytes) : Bool := p.length ≤ Config.payloadMax

/-- The protocol-ids RX.UNKNOWN does not take (R107). -/
def knownProto (b : Byte) : Bool := b ∈ ([0x01, 0x13, 0x12, 0x22, 0x21, 0x15] : List Byte)

/-- The operands are ones the operation's encoding and types admit. -/
def Instr.wf : Instr → Bool
  | .rxLogin _ _ p _ | .rxHeartbeat _ _ p _ | .rxLocBasic _ _ p _ | .rxLocExt _ _ p _
  | .rxCmdResp21 _ _ p _ | .rxCmdResp15 _ _ p _ => payloadOk p
  | .rxUnknown _ _ proto p _ => payloadOk p && !knownProto proto
  | .txCmd text _ => text.length ≤ Config.cmdTextMax
  | .sLogin _ d => d.wf
  | .txAck01 _ | .txAck13 _ | .txAck12 _ | .txAck22 _ | .txAck _ _
  | .cmdBloquear _ _ _ | .cmdLiberar _ _ _ | .cmdBateria _ _ _
  | .evConnect _ _ | .evDisconnect _ | .evRx _ _ _ | .evCmd _ _ _ _ | .evTimer _ _
  | .crcInit | .crcByte _ | .crcFinal | .crcSum _ | .crcVerify _ _ | .frScan _
  | .decCheck _ | .decHeader _ | .decDispatch _
  | .sConnect _ _ | .sRefresh _ _ _ | .sTouch _ _ | .sStatus _ | .sNextSerial _ | .sDisconnect _
  | .cRequest _ _ _ _ | .cConfirm _ _ _ | .cFire _ _ | .process _ _ _ => true

end Sys2Proof
end

