-- ==== Sys2Proof/Decode.lean ====
section
/-!
DEFINITION. The structural checks (`42_decode.md` R170 to R172), the header (R173), the opcode map (R107, R174), the
decoder from bytes to operations, total and rejecting by name; then the encoder, from the same tables.
-/

namespace Sys2Proof

open Machine

/-- The checksum a frame carries, `MemRead(f, L+1, 2)` (R70, R172; `Frame.cksum` of R40). -/
def storedCksum (f : Bytes) : U16 := BitVec.ofNat 16 (memRead f ((byteAt f 2).toNat + 1) 2)

/-- DEC.CHECK(f): the first structural test that fails, in the order of R170 (E_LEN by R171, E_CRC by R172, only
when VERIFY_RX_CRC). -/
def checkFrame (verify : Bool) (f : Bytes) : Option Cond :=
  if f.length < Config.minFrame then some .eShort
  else if slice f 0 2 ≠ Config.startMarker then some .eStart
  else if (byteAt f 2).toNat + Config.lenOverhead > f.length then some .eTrunc
  else if (byteAt f 2).toNat < Config.minLength then some .eLen
  else if verify && !crcVerifyOf (slice f 2 ((byteAt f 2).toNat + 1)) (storedCksum f) then some .eCrc
  else none

/-- DEC.HEADER(f) (R173, R106), with the stored checksum of R40: every field is located by the length byte. -/
def headerOf (f : Bytes) : Header :=
  let len := (byteAt f 2).toNat
  { len := len, proto := byteAt f 3, payload := slice f 4 (len - 1)
    serial := BitVec.ofNat 16 (memRead f (len - 1) 2), cksum := storedCksum f }

/-- DEC.DISPATCH(proto) (R174, table of R107): total over the 256 byte values. -/
def dispatchOf (proto : Byte) : RxRule :=
  if proto = 0x01 then .login
  else if proto = 0x13 then .heartbeat
  else if proto = 0x12 then .locBasic
  else if proto = 0x22 then .locExt
  else if proto = 0x21 then .cmdResp21
  else if proto = 0x15 then .cmdResp15
  else .unknown

/-- The operation a header selects on a connection. -/
def instrOfHeader (cid : Cid) (now : Time) (h : Header) : Instr :=
  match dispatchOf h.proto with
  | .login => .rxLogin cid now h.payload h.serial
  | .heartbeat => .rxHeartbeat cid now h.payload h.serial
  | .locBasic => .rxLocBasic cid now h.payload h.serial
  | .locExt => .rxLocExt cid now h.payload h.serial
  | .cmdResp21 => .rxCmdResp21 cid now h.payload h.serial
  | .cmdResp15 => .rxCmdResp15 cid now h.payload h.serial
  | .unknown => .rxUnknown cid now h.proto h.payload h.serial

/-- A span of a connection, decoded: the structural checks, the header, the opcode map (R170, R173, R174). -/
def decodeSpan (verify : Bool) (cid : Cid) (now : Time) (f : Bytes) : Except Cond Instr :=
  match checkFrame verify f with
  | some e => .error e
  | none => .ok (instrOfHeader cid now (headerOf f))

/-- A frame of an outbound form, read as the operation that builds it (the TX.* rows of the opcode table).  It reads
the fields that are operands; the checksum, `cmdInfoLen` and the stop marker are computed by the operation, so they
are not looked at (log entry 15). -/
def decodeOutbound (f : Bytes) : Except Cond Instr :=
  match checkFrame false f with
  | some e => .error e
  | none =>
    let h := headerOf f
    if h.proto = Config.cmdProto then
      if h.len < 10 then .error .eLen
      else if slice f 5 9 ≠ Config.cmdReserved then .error .ePayload
      else .ok (.txCmd (slice f 9 (h.len - 1)) h.serial)
    else if h.len ≠ Config.ackLen.toNat then .error .eLen
    else if h.proto = 0x01 then .ok (.txAck01 h.serial)
    else if h.proto = 0x13 then .ok (.txAck13 h.serial)
    else if h.proto = 0x12 then .ok (.txAck12 h.serial)
    else if h.proto = 0x22 then .ok (.txAck22 h.serial)
    else .error .eUnknownProto

/-- A request token (R114): byte for byte one of the three, anything else is E_BADREQ. -/
def decodeToken (id : Digits) (ref : Ref) (now : Time) (token : Bytes) : Except Cond Instr :=
  if token = Config.tokBloquear then .ok (.cmdBloquear id ref now)
  else if token = Config.tokLiberar then .ok (.cmdLiberar id ref now)
  else if token = Config.tokBateria then .ok (.cmdBateria id ref now)
  else .error .eBadReq

/-- An encoded operation: its bytes, the direction that tells an outbound frame from an inbound one with the same
first bytes, and what the bytes do not carry (the connection and time of a delivery; identity, reference and time of
a request). -/
inductive Code where
  | inbound  (cid : Cid) (now : Time) (f : Bytes)
  | outbound (f : Bytes)
  | token    (id : Digits) (ref : Ref) (now : Time) (t : Bytes)
  deriving DecidableEq, Repr

/-- The decoder. -/
def decode (verify : Bool) : Code → Except Cond Instr
  | .inbound cid now f => decodeSpan verify cid now f
  | .outbound f => decodeOutbound f
  | .token id ref now t => decodeToken id ref now t

/-- The encoder: the bytes of an operation that has a wire form or a token, `none` for the host events and the
internal operations, whose encoding the table gives as "none". -/
def encode : Instr → Option Code
  | .rxLogin cid now p serial => some (.inbound cid now (wrapBody (frameBody 0x01 p serial)))
  | .rxHeartbeat cid now p serial => some (.inbound cid now (wrapBody (frameBody 0x13 p serial)))
  | .rxLocBasic cid now p serial => some (.inbound cid now (wrapBody (frameBody 0x12 p serial)))
  | .rxLocExt cid now p serial => some (.inbound cid now (wrapBody (frameBody 0x22 p serial)))
  | .rxCmdResp21 cid now p serial => some (.inbound cid now (wrapBody (frameBody 0x21 p serial)))
  | .rxCmdResp15 cid now p serial => some (.inbound cid now (wrapBody (frameBody 0x15 p serial)))
  | .rxUnknown cid now proto p serial => some (.inbound cid now (wrapBody (frameBody proto p serial)))
  | .txAck01 serial => some (.outbound (ackBytes .p01 serial))
  | .txAck13 serial => some (.outbound (ackBytes .p13 serial))
  | .txAck12 serial => some (.outbound (ackBytes .p12 serial))
  | .txAck22 serial => some (.outbound (ackBytes .p22 serial))
  | .txCmd text serial => some (.outbound (cmdBytes text serial))
  | .cmdBloquear id ref now => some (.token id ref now Config.tokBloquear)
  | .cmdLiberar id ref now => some (.token id ref now Config.tokLiberar)
  | .cmdBateria id ref now => some (.token id ref now Config.tokBateria)
  | .evConnect _ _ | .evDisconnect _ | .evRx _ _ _ | .evCmd _ _ _ _ | .evTimer _ _
  | .crcInit | .crcByte _ | .crcFinal | .crcSum _ | .crcVerify _ _ | .frScan _
  | .decCheck _ | .decHeader _ | .decDispatch _ | .txAck _ _
  | .sConnect _ _ | .sLogin _ _ | .sRefresh _ _ _ | .sTouch _ _ | .sStatus _ | .sNextSerial _ | .sDisconnect _
  | .cRequest _ _ _ _ | .cConfirm _ _ _ | .cFire _ _ | .process _ _ _ => none

/-- Whether the opcode table gives the operation an encoding (R107, R108, R114; the EVENT and INTERNAL rows have
none, R109). -/
def Instr.encodable (i : Instr) : Bool := (encode i).isSome

/-- The frame a 32-bit word of the table begins: the word's four bytes as they lie (it is the first four bytes read
big-endian), then zeros to the frame's declared length.  The row leaves the length byte free; a value below the least
the form admits (`least`) stands for that least (log entry 14). -/
def tableFrame (least w : Nat) : Bytes :=
  let len := max least (w / 256 % 256)
  [BitVec.ofNat 8 (w / 2 ^ 24), BitVec.ofNat 8 (w / 2 ^ 16), BitVec.ofNat 8 len, BitVec.ofNat 8 w]
    ++ List.replicate (len + 1) 0

/-- The encoded operation a table word stands for: a 32-bit word is a frame's first four bytes, any other width a
token.  The rows of one word are told apart by the most specific that matches: the four words `78 78 05 pp` are
TX.ACK*, protocol-id 0x80 is TX.CMD, everything else is inbound (log entry 14). -/
def tableCode (nbits w : Nat) : Code :=
  if nbits = 32 then
    if w ∈ [0x78780501, 0x78780513, 0x78780512, 0x78780522] then .outbound (tableFrame 5 w)
    else if w % 256 = 0x80 then .outbound (tableFrame 10 w)
    else .inbound ⟨0⟩ ⟨0⟩ (tableFrame 5 w)
  else .token [0x31] ⟨0⟩ ⟨0⟩ (beBytes (nbits / 8) w)

/-- The operation the decoder reads from a table word (`none` where it refuses), under the configuration of reset. -/
def decodeTableWord (nbits w : Nat) : Option Instr :=
  match decode Config.defaultParams.verifyRxCrc (tableCode nbits w) with
  | .ok i => some i
  | .error _ => none

end Sys2Proof
end

