-- ==== Sys2Proof/Machine/State.lean ====
section
/-!
DEFINITION. The state of the block (`10_state.md` R20 to R41), the inputs it is offered and the outputs it has made,
the two reasons a step can stop, and the state after reset (R340).
-/

namespace Sys2Proof.Machine

/-- A session record (R21 to R27). -/
structure Session where
  cid  : Cid
  peer : Peer
  imei : Option Digits
  st   : StatusCache
  seq  : U16
  deriving DecidableEq, Repr

/-- A pending-command record (R33); `ref` is `none` for the automatic LOCK (D26). -/
structure PendRec where
  kind : CmdKind
  ref  : Option Ref
  sent : Time
  deriving DecidableEq, Repr

/-- The outputs of R287. -/
inductive Output where
  | tx     (cid : Cid) (bytes : Bytes)
  | log    (record : LogRecord)
  | done   (ref : Ref)
  | reject (ref : Option Ref) (e : Cond)
  | sched  (id : Digits) (delay : Delay)
  deriving DecidableEq, Repr

/-- The five host events (R280). -/
inductive Event where
  | connect    (cid : Cid) (peer : Peer)
  | disconnect (cid : Cid)
  | rx         (cid : Cid) (data : Bytes) (now : Time)
  | cmd        (id : Digits) (token : Bytes) (ref : Ref) (now : Time)
  | timer      (id : Digits) (now : Time)
  deriving DecidableEq, Repr

/-- What waits to be taken by a step.  `event` is the spec's input (R280).  The other two present a table word on its
own: one span that has been cut already (the sequence of frames is lazy, R158) and one outbound form (log entry 3). -/
inductive Input where
  | event (e : Event)
  | span  (cid : Cid) (f : Bytes) (now : Time)
  | build (f : Bytes)
  deriving DecidableEq, Repr

/-- The value the operation executed last returned or raised (R11 `return`, `raise`; R13): the model's own register,
which makes the result of an internal operation visible (log entry 10). -/
inductive Result where
  | nothing
  | word     (v : U16)
  | truth    (b : Bool)
  | frames   (fs : List Bytes) (consumed : Nat)
  | passed
  | raised   (e : Cond)
  | header   (h : Header)
  | rule     (r : RxRule)
  | frame    (f : Bytes)
  | snapshot (c : StatusCache)
  | outcome  (o : UnitOutcome)
  deriving DecidableEq, Repr

/-- The state.  `sess`, `rxbuf`, `pend` and `deferred` are R20's four, each a table in one canonical order (log entry
12); `cfg` holds the configuration registers (R37); `crcR`, `pos`, `msg` are the spec's transient values (R30, R32,
R40); `result`, `choice`, `inbox` and `outs` are the model's own (log entries 2, 4, 8, 10). -/
structure State where
  sess     : List (Cid × Session)
  rxbuf    : List (Cid × Bytes)
  pend     : List (Digits × PendRec)
  deferred : List (Digits × CmdKind)
  cfg      : Config.Params
  crcR     : U16
  pos      : Nat
  msg      : Option Message
  result   : Result
  choice   : Nat
  inbox    : List Input
  outs     : List Output
  deriving DecidableEq, Repr

/-- The block has no fatal condition: every condition of R300 ends one unit of work and the block takes the next
(R13, R313, R316), so no step ends in a fault and the type has no constructor. -/
inductive Fault where
  deriving DecidableEq, Repr

/-- Why the model gives an operation no step.  All are safe: the block is specified to get no such input. -/
inductive Refusal where
  /-- Raised by `exec` for an operation without a meaning; no arm of this model does. Safe. -/
  | notModelled (mnemonic : String)
  /-- Raised by EV_CONNECT and S.CONNECT when the `cid` is a key of `SESS` (R230, R296 (1)). Safe. -/
  | connectionInUse
  /-- Raised by every operation on a connection when its `cid` is no key of `SESS` (R296 (2)). Safe. -/
  | unknownConnection
  /-- Raised by EV_TIMER and C.FIRE when `(id, LOCK)` is not in `DEFER` (R296 (3)). Safe. -/
  | nothingScheduled
  /-- Raised by EV_CONNECT when `SESS` has MAX_CONN keys (R296 (4)). Safe. -/
  | connectionsFull
  /-- Raised by EV_RX when the buffer would exceed RX_BUF_CAP (R296 (4)). Safe. -/
  | rxBufferFull
  /-- Raised by C.REQUEST when `PEND` would exceed MAX_PEND (R296 (4)). Safe. -/
  | pendFull
  /-- Raised by DEC.HEADER on a span DEC.CHECK does not pass, for which R173 defines nothing. Safe. -/
  | headerUndefined
  /-- Raised by `step` on an `Input.build` whose bytes are no outbound form (log entry 3). Safe. -/
  | notOutbound (e : Cond)
  deriving DecidableEq, Repr

/-- The block after reset under a given configuration (R340, R41): the four tables empty, no output.  `crcR` is
unspecified and never read before CRC.INIT; the model names 0 for it (log entry 9). -/
def State.resetWith (cfg : Config.Params) : State :=
  { sess := [], rxbuf := [], pend := [], deferred := [], cfg := cfg, crcR := 0, pos := 0, msg := none
    result := .nothing, choice := 0, inbox := [], outs := [] }

/-- The block after reset (R340), its configuration the one `Config.defaultParams` names (log entry 5). -/
def State.reset : State := State.resetWith Config.defaultParams

end Sys2Proof.Machine
end

