-- ==== Sys2Proof/Machine/Tables.lean ====
section
/-!
DEFINITION. Finite partial maps and the multiset of R20, as lists in one canonical order, so that equal tables are
equal data (log entry 12).  A table lists each key once, keys rising; a bag lists its entries in order, repeats kept.
-/

namespace Sys2Proof.Machine

/-- The value at a key. -/
def tget {K V : Type} [DecidableEq K] (m : List (K × V)) (k : K) : Option V :=
  match m with
  | [] => none
  | kv :: m => if kv.1 = k then some kv.2 else tget m k

/-- Create or replace the value at a key, in order. -/
def tput {K V : Type} [DecidableEq K] (lt : K → K → Bool) (m : List (K × V)) (k : K) (v : V) : List (K × V) :=
  match m with
  | [] => [(k, v)]
  | kv :: m => if kv.1 = k then (k, v) :: m else if lt k kv.1 then (k, v) :: kv :: m else kv :: tput lt m k v

/-- Remove a key. -/
def tdel {K V : Type} [DecidableEq K] (m : List (K × V)) (k : K) : List (K × V) := m.filter (fun kv => kv.1 ≠ k)

/-- Change the value at a key, if there is one. -/
def tmod {K V : Type} [DecidableEq K] (m : List (K × V)) (k : K) (f : V → V) : List (K × V) :=
  m.map (fun kv => if kv.1 = k then (kv.1, f kv.2) else kv)

/-- The keys of a table, in order. -/
def tkeys {K V : Type} (m : List (K × V)) : List K := m.map (fun kv => kv.1)

/-- The canonical form of a table: keys strictly rising. -/
def tsorted {K V : Type} (lt : K → K → Bool) (m : List (K × V)) : Prop := m.Pairwise (fun a b => lt a.1 b.1 = true)

/-- Insert into a bag, in order. -/
def bput {A : Type} (lt : A → A → Bool) (m : List A) (x : A) : List A :=
  match m with
  | [] => [x]
  | y :: m => if lt y x then y :: bput lt m x else x :: y :: m

/-- The canonical form of a bag: no entry after a greater one. -/
def bsorted {A : Type} (lt : A → A → Bool) (m : List A) : Prop := m.Pairwise (fun a b => lt b a = false)

/-- Order of connection keys in a table. -/
def cidLt (a b : Cid) : Bool := a.token < b.token

/-- Order of command kinds in a bag. -/
def kindRank : CmdKind → Nat
  | .lock => 0
  | .unlock => 1
  | .batteryCheck => 2

/-- Order of the entries of `DEFER`. -/
def deferLt (a b : Digits × CmdKind) : Bool :=
  bytesLt a.1 b.1 || (a.1 = b.1 && kindRank a.2 < kindRank b.2)

end Sys2Proof.Machine
end

