-- ==== Sys2Proof/Machine/Ops.lean ====
section
/-!
DEFINITION. The named operations over the state: the accessors of every table and register, the outputs, what raising
a condition does (`60_exceptions.md` R300, R316) and the end of a unit of work after it (R317).
-/

namespace Sys2Proof.Machine

/-! ### Registers and tables -/

/-- The status cache of a new session: never written (R25, R230, D12). -/
def StatusCache.never : StatusCache :=
  { ign := none, relay := none, alarm := none, chg := none, lowbatt := none, volt := none, gsm := none, upd := none }

/-- The record S.CONNECT creates (R230). -/
def Session.fresh (cid : Cid) (peer : Peer) : Session :=
  { cid := cid, peer := peer, imei := none, st := StatusCache.never, seq := Config.seqInit }

/-- `SESS[cid]`, if there is such a slot. -/
def State.session? (s : State) (cid : Cid) : Option Session := tget s.sess cid

/-- `cid` is a key of `SESS`. -/
def State.connected (s : State) (cid : Cid) : Bool := (s.session? cid).isSome

/-- `SESS[cid].imei`; `none` also where there is no such slot. -/
def State.imeiOf (s : State) (cid : Cid) : Option Digits := (s.session? cid).bind Session.imei

/-- `SESS[cid].st`; never written where there is no such slot. -/
def State.cacheOf (s : State) (cid : Cid) : StatusCache := (s.session? cid).elim StatusCache.never Session.st

/-- `SESS[cid].seq`; SEQ_INIT where there is no such slot. -/
def State.seqOf (s : State) (cid : Cid) : U16 := (s.session? cid).elim Config.seqInit Session.seq

/-- `PEND[id]`. -/
def State.pend? (s : State) (id : Digits) : Option PendRec := tget s.pend id

/-- `RXBUF[cid]`. -/
def State.rxbuf? (s : State) (cid : Cid) : Option Bytes := tget s.rxbuf cid

/-- The bytes of `RXBUF[cid]`, none where there is no such buffer. -/
def State.rxOf (s : State) (cid : Cid) : Bytes := (s.rxbuf? cid).getD []

/-- One byte of the receive memory: byte `a` of `RXBUF[cid]` (R60). -/
def State.rxByte (s : State) (cid : Cid) (a : Nat) : Option Byte := (s.rxOf cid)[a]?

/-- `SESS[cid] <- f(SESS[cid])`. -/
def State.modSession (s : State) (cid : Cid) (f : Session → Session) : State :=
  { s with sess := tmod s.sess cid f }

/-- `RXBUF[cid] <- b`. -/
def State.setRx (s : State) (cid : Cid) (b : Bytes) : State := { s with rxbuf := tput cidLt s.rxbuf cid b }

/-- `PEND[id] <- rec`. -/
def State.putPend (s : State) (id : Digits) (r : PendRec) : State := { s with pend := tput bytesLt s.pend id r }

/-- `PEND[id] <- none`. -/
def State.delPend (s : State) (id : Digits) : State := { s with pend := tdel s.pend id }

/-- `DEFER <- DEFER + {(id, kind)}`. -/
def State.defer (s : State) (id : Digits) (k : CmdKind) : State :=
  { s with deferred := bput deferLt s.deferred (id, k) }

/-- `DEFER <- DEFER - {(id, kind)}`, one instance. -/
def State.undefer (s : State) (id : Digits) (k : CmdKind) : State :=
  { s with deferred := s.deferred.erase (id, k) }

/-- `CRC.R <- r`. -/
def State.setCrc (s : State) (r : U16) : State := { s with crcR := r }

/-- `pos <- p`. -/
def State.setPos (s : State) (p : Nat) : State := { s with pos := p }

/-- `msg <- m`. -/
def State.setMsg (s : State) (m : Message) : State := { s with msg := some m }

/-- What the operation returns. -/
def State.setResult (s : State) (r : Result) : State := { s with result := r }

/-- `emit` (R11): append to the ordered list of outputs. -/
def State.emit (s : State) (o : Output) : State := { s with outs := s.outs ++ [o] }

/-! ### Byte streams seen from outside -/

/-- The frames appended to the transmit streams of connection identifier `cid`, in order (R60 (3), R76): a view of
`outs`.  R60 has one stream per live connection and no rule says what the stream of an identifier is when the host uses
it again after EV_DISCONNECT; DESIGN CHOICE: this view runs on, so it begins with the frames of the earlier connection
(log entry 4).  No operation reads it. -/
def State.txFrames (s : State) (cid : Cid) : List Bytes :=
  s.outs.filterMap fun o =>
    match o with
    | .tx c b => if c = cid then some b else none
    | _ => none

/-- The log records made so far, in order (R288): a view of `outs`. -/
def State.logRecords (s : State) : List LogRecord :=
  s.outs.filterMap fun o =>
    match o with
    | .log r => some r
    | _ => none

/-! ### Conditions (R300, R315 to R317) -/

/-- `raise e` (R11, R316): the unit of work ends with the condition. Nothing is saved, no mode and no mask changes,
control goes nowhere special. -/
def State.raise (s : State) (e : Cond) : State := s.setResult (.raised e)

/-- A frame ends DROPPED(e): one log record with the raw span and no header fields (R284, R300, D39, D43). -/
def State.dropFrame (s : State) (cid : Cid) (f : Bytes) (e : Cond) : State :=
  (s.emit (.log { imei := s.imeiOf cid, proto := none, serial := none, raw := f, decoded := .dropped e })).setResult
    (.outcome (.dropped e))

/-- A request ends REJECTED(e): one OUT_REJECT (R254, R256, R300). -/
def State.rejectRequest (s : State) (ref : Option Ref) (e : Cond) : State :=
  (s.emit (.reject ref e)).setResult (.outcome (.rejected e))

/-! There is no return from a condition (R317): the block takes the next unit of work from the state as it stands, the
next frame of the same buffer (`processAll` of `Machine/Engine.lean`) or the next input (`step`). -/

/-! ### Guards of R296 -/

/-- `n` entries already reach a finite capacity; `none` is unbounded (R8). -/
def atCapacity (cap : Option Nat) (n : Nat) : Bool :=
  match cap with
  | none => false
  | some c => c ≤ n

/-- Run an operation on a connection, which must be a key of `SESS`. -/
def State.onConnection (s : State) (cid : Cid) (k : Host.Outcome State Fault Refusal) :
    Host.Outcome State Fault Refusal :=
  if s.connected cid then k else .refused .unknownConnection

/-- The operation an event is. -/
def Event.instr : Event → Instr
  | .connect cid peer => .evConnect cid peer
  | .disconnect cid => .evDisconnect cid
  | .rx cid data now => .evRx cid data now
  | .cmd id token ref now => .evCmd id token ref now
  | .timer id now => .evTimer id now

/-- The host presents an event (R314): it waits behind those presented before. -/
def State.deliver (s : State) (e : Event) : State := { s with inbox := s.inbox ++ [.event e] }

/-- Whether a machine's outcome is a next state. -/
def isNext (o : Host.Outcome State Fault Refusal) : Bool :=
  match o with
  | .next _ => true
  | _ => false

end Sys2Proof.Machine
end

