-- ==== Sys2Proof/Machine/Reassembler.lean ====
section
/-!
DEFINITION. The Frame Reassembler (`41_reassembler.md` R150 to R158): FR.SCAN.
-/

namespace Sys2Proof.Machine

/-- The loop of R151 from scan position `pos`: the spans found and the final position.  `fuel` bounds the number of
turns; every turn that goes on advances `pos` by at least 4 (R158), so `len(buf)` turns are enough. -/
def scanFrom (buf : Bytes) : Nat → Nat → List Bytes × Nat
  | 0, pos => ([], pos)
  | fuel + 1, pos =>
    match find buf Config.startMarker pos with
    | none => ([], buf.length)
    | some i =>
      match find buf Config.stopMarker i with
      | none => ([], pos)
      | some e =>
        let r := scanFrom buf fuel (e + 2)
        (slice buf i (e + 2) :: r.1, r.2)

/-- FR.SCAN(buf): the frames, and how many leading bytes were consumed (R150, R151). -/
def scan (buf : Bytes) : List Bytes × Nat := scanFrom buf (buf.length + 1) 0

/-- FR.SCAN (R151): `pos` ends at the consumed count (R30). -/
def execFrScan (buf : Bytes) (s : State) : Host.Outcome State Fault Refusal :=
  .next ((s.setPos (scan buf).2).setResult (.frames (scan buf).1 (scan buf).2))

end Sys2Proof.Machine
end

