-- ==== Sys2Proof/Machine/Flags.lean ====
section
/-!
DEFINITION. The one-bit values (`10_state.md` R31): the flags of a terminal-info byte (R98) and of the two course
words (R99, R100), the low-battery flag (R237), and the failure tag of a message (R182).
-/

namespace Sys2Proof.Machine

/-- The alarm class of a 3-bit code (R98): "else=normal". -/
def alarmOf (code : BitVec 3) : AlarmClass :=
  if code = 4 then .sos
  else if code = 3 then .lowBatt
  else if code = 2 then .powerCut
  else if code = 1 then .shock
  else .normal

/-- `TI(b)` (R98). -/
def termInfo (b : Byte) : TermInfo :=
  { relay := b.getLsbD 7, gpsOn := b.getLsbD 6, alarm := alarmOf (b.extractLsb' 3 3)
    chg := b.getLsbD 2, ign := b.getLsbD 1, armed := b.getLsbD 0 }

/-- Course word of format B, north flag (R99). -/
def x12North (cw : U16) : Bool := cw.getLsbD Config.x12NorthBit
/-- Course word of format B, west flag (R99). -/
def x12West (cw : U16) : Bool := cw.getLsbD Config.x12WestBit
/-- Course word of format B, GPS-fix flag (R99). -/
def x12Fix (cw : U16) : Bool := cw.getLsbD Config.x12FixBit
/-- Course word of format X, west flag (R100). -/
def x22West (cw : U16) : Bool := cw.getLsbD Config.x22WestBit
/-- Course word of format X, south flag (R100). -/
def x22South (cw : U16) : Bool := cw.getLsbD Config.x22SouthBit
/-- Course word of format X, GPS-fix flag (R100). -/
def x22Fix (cw : U16) : Bool := cw.getLsbD Config.x22FixBit
/-- Course word of format X, ignition flag (R100). -/
def x22Ign (cw : U16) : Bool := cw.getLsbD Config.x22IgnBit

/-- The row of LOW_BATT_FN for an alarm class. -/
def lowBattRow (t : Config.LowBattTable) : AlarmClass → Config.LowBattRow
  | .normal => t.normal
  | .sos => t.sos
  | .lowBatt => t.lowBatt
  | .powerCut => t.powerCut
  | .shock => t.shock

/-- LOW_BATT_FN(alarm, volt) (R237), read from its table. -/
def lowBattFn (t : Config.LowBattTable) (a : AlarmClass) (v : Option Byte) : Bool :=
  match v with
  | none => (lowBattRow t a).unknown
  | some v => (lowBattRow t a).known.getLsbD v.toNat

/-- The condition a message carries as a tag (R182, R308, R309): E_PAYLOAD where a field group failed,
E_UNKNOWN_PROTO for an unrecognized protocol-id. -/
def messageTag : Message → Option Cond
  | .login none | .heartbeat none | .locBasic none | .locExt none => some .ePayload
  | .unknown => some .eUnknownProto
  | .login (some _) | .heartbeat (some _) | .locBasic (some _) | .locExt (some _) | .cmdResp _ => none

end Sys2Proof.Machine
end

