-- ==== Sys2Proof/Machine/Operands.lean ====
section
/-!
DEFINITION. The values assembled from the bytes of a payload (`30_encoding.md` R98 to R106): identity, date-time,
coordinates, satellite count, speed, course, text, and the field groups of formats L, H, B, X and T.
-/

namespace Sys2Proof.Machine

/-- `bcd(b) = 10 * b[7:4] + b[3:0]`, with no nibble check (R102, D3). -/
def bcd (b : Byte) : Nat := 10 * (b.toNat / 16) + b.toNat % 16

/-- `datetime(p[0:6])` (R102). -/
def dateTimeOf (p : Bytes) : DateTime :=
  { year := Config.yearBase + bcd (byteAt p 0), month := bcd (byteAt p 1), day := bcd (byteAt p 2)
    hour := bcd (byteAt p 3), minute := bcd (byteAt p 4), second := bcd (byteAt p 5) }

/-- A raw magnitude with the sign a flag gives it (R101). -/
def signedUnits (negative : Bool) (raw : Nat) : Degrees :=
  { units := if negative then -(raw : Int) else (raw : Int) }

/-- The exact value in degrees: the raw integer over 1,800,000 (R101, R183). -/
def Degrees.toRat (d : Degrees) : Rat := (d.units : Rat) / (Config.coordDiv : Rat)

/-- A 16-bit field of a payload, big-endian (R62, R64). -/
def wordAt (p : Bytes) (off : Nat) : U16 := BitVec.ofNat 16 (memRead p off 2)

/-- The low nibble of the GPS-quantity byte (R104). -/
def satsOf (b : Byte) : BitVec 4 := b.extractLsb' 0 4

/-- `course = cw[9:0]` (R99, R100). -/
def courseOf (cw : U16) : BitVec 10 := cw.extractLsb' 0 10

/-- Drop leading `'0'` characters (R103). -/
def stripZeros : Digits → Digits
  | [] => []
  | c :: d => if c = 0x30 then stripZeros d else c :: d

/-- The device identity of a login payload (R103): the 16 nibbles of its first 8 bytes without the padding nibbles
0xF; a nibble 0xA to 0xE fails the field group (D5), and so does an empty digit string. -/
def identityOf (p : Bytes) : Option Digits :=
  let ns := ((p.take Config.imeiBytes).flatMap nibbles).filter (fun n => n ≠ 15)
  if ns.any (fun n => n > 9) then none
  else
    let d := stripZeros (ns.map (fun n => BitVec.ofNat 8 (0x30 + n)))
    if d = [] then none else some d

/-- The identity of a login, `none` where the field group failed (R175). -/
def loginIdentity (p : Bytes) : Option Digits := if p.length < Config.imeiBytes then none else identityOf p

/-- The status block of a heartbeat payload (R176), for a payload of at least 4 bytes. -/
def heartbeatOf (p : Bytes) : HeartbeatStatus :=
  let t := termInfo (byteAt p 0)
  { relay := t.relay, gpsOn := t.gpsOn, alarm := t.alarm, chg := t.chg, ign := t.ign, armed := t.armed
    volt := byteAt p 1, gsm := byteAt p 2, lang := byteAt p 3 }

/-- What a heartbeat passes to S.REFRESH (R176). -/
def heartbeatUpdate (p : Bytes) : StatusUpdate :=
  let t := termInfo (byteAt p 0)
  { ign := t.ign, relay := t.relay, alarm := t.alarm, chg := t.chg
    volt := some (byteAt p 1), gsm := some (byteAt p 2) }

/-- The fix of a basic location over the cached status `c` (R177), for a payload of at least 18 bytes. -/
def basicFix (p : Bytes) (c : StatusCache) : LocationFix :=
  let cw := wordAt p 16
  { time := dateTimeOf p, sats := satsOf (byteAt p 6)
    lat := signedUnits (!x12North cw) (memRead p 7 4), lon := signedUnits (x12West cw) (memRead p 11 4)
    speed := byteAt p 15, course := courseOf cw, fix := x12Fix cw
    ign := c.ign, relay := c.relay, alarm := c.alarm, chg := c.chg
    lowbatt := c.lowbatt, volt := c.volt, gsm := c.gsm }

/-- What an extended location passes to S.REFRESH (R178): neither voltage nor GSM. -/
def extUpdate (p : Bytes) : StatusUpdate :=
  let t := termInfo (byteAt p 7)
  { ign := t.ign, relay := t.relay, alarm := t.alarm, chg := t.chg, volt := none, gsm := none }

/-- The fix of an extended location over the cached status `c` taken after the refresh (R178), for a payload of at
least 19 bytes.  Its ignition is the course word's own bit (D17). -/
def extFix (p : Bytes) (c : StatusCache) : LocationFix :=
  let cw := wordAt p 17
  { time := dateTimeOf p, sats := satsOf (byteAt p 6)
    lat := signedUnits (x22South cw) (memRead p 8 4), lon := signedUnits (x22West cw) (memRead p 12 4)
    speed := byteAt p 16, course := courseOf cw, fix := x22Fix cw
    ign := some (x22Ign cw), relay := c.relay, alarm := c.alarm, chg := c.chg
    lowbatt := c.lowbatt, volt := c.volt, gsm := c.gsm }

/-- A control character: below 0x20, or 0x7F (R105, D21). -/
def isControl (b : Byte) : Bool := b.toNat < 0x20 || b = 0x7F

/-- `text(payload)` (R105): control characters removed, the rest kept in order. -/
def textOf (p : Bytes) : Bytes := p.filter (fun b => !isControl b)

/-- ASCII lower case of one byte (R105). -/
def lowerByte (b : Byte) : Byte := if 0x41 ≤ b.toNat && b.toNat ≤ 0x5A then b + 32 else b

/-- The bytes of "success". -/
def wordSuccess : Bytes := [0x73, 0x75, 0x63, 0x63, 0x65, 0x73, 0x73]

/-- The bytes of "ok". -/
def wordOk : Bytes := [0x6F, 0x6B]

/-- `confirms(t)` (R105): contains "success" or "ok" without regard to ASCII case. -/
def confirms (t : Bytes) : Bool :=
  containsBytes (t.map lowerByte) wordSuccess || containsBytes (t.map lowerByte) wordOk

/-- The command text of a kind (R115, R117). -/
def commandText : CmdKind → Bytes
  | .lock => Config.textLock
  | .unlock => Config.textUnlock
  | .batteryCheck => Config.textUnlock

end Sys2Proof.Machine
end

