-- ==== Sys2Proof/Machine/Sessions.lean ====
section
/-!
DEFINITION. The Device Session register file's operations (`44_session.md` R230 to R237).  The `State.` definitions
are the register writes, which the RX.*, EV_* and C.* operations share; an operation on its own refuses a `cid` that
is no key of `SESS` (R296).
-/

namespace Sys2Proof.Machine

/-- S.CONNECT's writes (R230). -/
def State.connect (s : State) (cid : Cid) (peer : Peer) : State :=
  { s with sess := tput cidLt s.sess cid (Session.fresh cid peer), rxbuf := tput cidLt s.rxbuf cid [] }

/-- S.DISCONNECT's writes (R236): the key leaves `SESS` and `RXBUF`; `PEND` and `DEFER` stay. -/
def State.disconnect (s : State) (cid : Cid) : State :=
  { s with sess := tdel s.sess cid, rxbuf := tdel s.rxbuf cid }

/-- S.LOGIN's write (R231). -/
def State.login (s : State) (cid : Cid) (d : Digits) : State :=
  s.modSession cid fun r => { r with imei := some d }

/-- The cache after a refresh (R232): voltage and GSM only where the message carries them; the low-battery flag from
the alarm class and the voltage as just updated (R237). -/
def refreshedCache (t : Config.LowBattTable) (u : StatusUpdate) (now : Time) (c : StatusCache) : StatusCache :=
  let volt := if u.volt = none then c.volt else u.volt
  let gsm := if u.gsm = none then c.gsm else u.gsm
  { ign := some u.ign, relay := some u.relay, alarm := some u.alarm, chg := some u.chg
    lowbatt := some (lowBattFn t u.alarm volt), volt := volt, gsm := gsm, upd := some now }

/-- S.REFRESH's write (R232). -/
def State.refresh (s : State) (cid : Cid) (u : StatusUpdate) (now : Time) : State :=
  s.modSession cid fun r => { r with st := refreshedCache s.cfg.lowBattFn u now r.st }

/-- S.TOUCH's write (R233): the freshness timestamp only. -/
def State.touch (s : State) (cid : Cid) (now : Time) : State :=
  s.modSession cid fun r => { r with st := { r.st with upd := some now } }

/-- The serial number after `v`: modulo 0x10000, and 0 is remapped to 1 (R235). -/
def nextSeq (v : U16) : U16 := if v + 1 = 0 then 1 else v + 1

/-- S.NEXTSERIAL's write (R235). -/
def State.bumpSeq (s : State) (cid : Cid) : State :=
  s.modSession cid fun r => { r with seq := nextSeq r.seq }

/-- S.CONNECT (R230). -/
def execSConnect (cid : Cid) (peer : Peer) (s : State) : Host.Outcome State Fault Refusal :=
  if s.connected cid then .refused .connectionInUse else .next ((s.connect cid peer).setResult .nothing)

/-- S.LOGIN (R231). -/
def execSLogin (cid : Cid) (d : Digits) (s : State) : Host.Outcome State Fault Refusal :=
  s.onConnection cid (.next ((s.login cid d).setResult .nothing))

/-- S.REFRESH (R232). -/
def execSRefresh (cid : Cid) (u : StatusUpdate) (now : Time) (s : State) : Host.Outcome State Fault Refusal :=
  s.onConnection cid (.next ((s.refresh cid u now).setResult .nothing))

/-- S.TOUCH (R233). -/
def execSTouch (cid : Cid) (now : Time) (s : State) : Host.Outcome State Fault Refusal :=
  s.onConnection cid (.next ((s.touch cid now).setResult .nothing))

/-- S.STATUS (R234): a copy of the eight Options. -/
def execSStatus (cid : Cid) (s : State) : Host.Outcome State Fault Refusal :=
  s.onConnection cid (.next (s.setResult (.snapshot (s.cacheOf cid))))

/-- S.NEXTSERIAL (R235): returns the serial number, then advances. -/
def execSNextSerial (cid : Cid) (s : State) : Host.Outcome State Fault Refusal :=
  s.onConnection cid (.next ((s.bumpSeq cid).setResult (.word (s.seqOf cid))))

/-- S.DISCONNECT (R236). -/
def execSDisconnect (cid : Cid) (s : State) : Host.Outcome State Fault Refusal :=
  s.onConnection cid (.next ((s.disconnect cid).setResult .nothing))

end Sys2Proof.Machine
end

