-- ==== Sys2Proof/Machine/Crc.lean ====
section
/-!
DEFINITION. The Checksum Engine's operations (`40_crc.md` R130 to R134): each writes at most the transient `CRC.R`,
and what it returns stands in `result`.
-/

namespace Sys2Proof.Machine

/-- `CRC.R` after a whole computation over `bs`: CRC.INIT, then CRC.BYTE for each byte (R133). -/
def State.crcOver (s : State) (bs : Bytes) : State := s.setCrc (crcRun bs)

/-- CRC.INIT (R130). -/
def execCrcInit (s : State) : Host.Outcome State Fault Refusal :=
  .next ((s.setCrc Config.crcInit).setResult .nothing)

/-- CRC.BYTE (R131). -/
def execCrcByte (b : Byte) (s : State) : Host.Outcome State Fault Refusal :=
  .next ((s.setCrc (crcMix s.crcR b)).setResult .nothing)

/-- CRC.FINAL (R132): `CRC.R` is left as it is. -/
def execCrcFinal (s : State) : Host.Outcome State Fault Refusal :=
  .next (s.setResult (.word (crcOut s.crcR)))

/-- CRC.SUM (R133). -/
def execCrcSum (bs : Bytes) (s : State) : Host.Outcome State Fault Refusal :=
  .next ((s.crcOver bs).setResult (.word (crcSumOf bs)))

/-- CRC.VERIFY (R134). -/
def execCrcVerify (bs : Bytes) (c : U16) (s : State) : Host.Outcome State Fault Refusal :=
  .next ((s.crcOver bs).setResult (.truth (crcVerifyOf bs c)))

end Sys2Proof.Machine
end

