-- ==== Sys2Proof/Machine/Transmit.lean ====
section
/-!
DEFINITION. The Protocol Codec, encode side (`43_encode.md` R210 to R217): pure functions to a frame, which stands in
`result`; on the way CRC.SUM writes the transient `CRC.R`.
-/

namespace Sys2Proof.Machine

/-- Build the frame of a checksummed body (R210, R216). -/
def State.build (s : State) (body : Bytes) : State := (s.crcOver body).setResult (.frame (wrapBody body))

/-- Send the acknowledgement of a message on its connection (R210 to R214). -/
def State.sendAck (s : State) (cid : Cid) (pp : AckProto) (serial : U16) : State :=
  (s.crcOver (ackBody pp serial)).emit (.tx cid (ackBytes pp serial))

/-- TX.ACK (R210). -/
def execTxAck (pp : AckProto) (serial : U16) (s : State) : Host.Outcome State Fault Refusal :=
  .next (s.build (ackBody pp serial))

/-- TX.ACK01 (R211). -/
def execTxAck01 (serial : U16) (s : State) : Host.Outcome State Fault Refusal := .next (s.build (ackBody .p01 serial))

/-- TX.ACK13 (R212). -/
def execTxAck13 (serial : U16) (s : State) : Host.Outcome State Fault Refusal := .next (s.build (ackBody .p13 serial))

/-- TX.ACK12 (R213). -/
def execTxAck12 (serial : U16) (s : State) : Host.Outcome State Fault Refusal := .next (s.build (ackBody .p12 serial))

/-- TX.ACK22 (R214). -/
def execTxAck22 (serial : U16) (s : State) : Host.Outcome State Fault Refusal := .next (s.build (ackBody .p22 serial))

/-- TX.CMD (R216); a longer text raises E_CMDLEN before anything is computed (R217). -/
def execTxCmd (text : Bytes) (serial : U16) (s : State) : Host.Outcome State Fault Refusal :=
  if cmdTextOk text then .next (s.build (cmdBody text serial)) else .next (s.raise .eCmdLen)

end Sys2Proof.Machine
end

