-- ==== Sys2Proof/Machine/Commands.lean ====
section
/-!
DEFINITION. The Command Dispatcher (`45_command.md` R250 to R263).
-/

namespace Sys2Proof.Machine

/-- The sessions of a device, in key order: `C` of R255. -/
def State.holders (s : State) (id : Digits) : List Cid :=
  (s.sess.filter (fun kv => kv.2.imei = some id)).map (fun kv => kv.1)

/-- The one of the candidates `c :: cs` a command goes to (R263): the only one, or the one a free value picks, which
uses up one choice (log entry 8). -/
def State.chosen (s : State) (c : Cid) (cs : List Cid) : Cid :=
  match cs with
  | [] => c
  | d :: ds => (c :: d :: ds).getD (Config.freeChoice s.choice % (ds.length + 2)) c

/-- The count of free choices after one command to the candidates `c :: cs`. -/
def State.choiceAfter (s : State) (cs : List Cid) : Nat :=
  match cs with
  | [] => s.choice
  | _ :: _ => s.choice + 1

/-- `PEND` has no room for a record of `id` (R296 (4)); replacing a record needs none. -/
def State.pendFull (s : State) (id : Digits) : Bool :=
  (s.pend? id).isNone && atCapacity s.cfg.maxPend s.pend.length

/-- Send one command on connection `cid` and record it (R255): take the next serial number, send TX.CMD, create or
replace the record.  Both texts have 8 bytes, so E_CMDLEN cannot occur (R217). -/
def State.sendCommand (s : State) (cid : Cid) (id : Digits) (k : CmdKind) (ref : Option Ref) (now : Time) : State :=
  ((((s.bumpSeq cid).crcOver (cmdBody (commandText k) (s.seqOf cid))).emit
    (.tx cid (cmdBytes (commandText k) (s.seqOf cid)))).putPend id { kind := k, ref := ref, sent := now }).setResult
    (.outcome .done)

/-- C.REQUEST's transition (R255, R256). -/
def request (id : Digits) (k : CmdKind) (ref : Option Ref) (now : Time) (s : State) :
    Host.Outcome State Fault Refusal :=
  match s.holders id with
  | [] => .next (s.rejectRequest ref .eNotConn)
  | c :: cs =>
    if s.pendFull id then .refused .pendFull
    else .next ({ s with choice := s.choiceAfter cs }.sendCommand (s.chosen c cs) id k ref now)

/-- What confirming the record `r` of `id` does (R257, R259): the record goes, its reference is reported, and a
battery check schedules the follow-up LOCK. -/
def State.confirmed (s : State) (id : Digits) (r : PendRec) : State :=
  let s1 := s.delPend id
  let s2 := match r.ref with
    | some ref => s1.emit (.done ref)
    | none => s1
  match r.kind with
  | .batteryCheck => (s2.defer id .lock).emit (.sched id s.cfg.autoLockDelay)
  | .lock => s2
  | .unlock => s2

/-- C.CONFIRM's effect (R257, R258). -/
def State.confirm (s : State) (cid : Cid) (t : Bytes) : State :=
  match s.imeiOf cid with
  | none => s
  | some id =>
    match s.pend? id with
    | none => s
    | some r => if confirms t then s.confirmed id r else s

/-- C.FIRE's transition (R260): one entry of `DEFER` goes, then a LOCK is requested as if freshly, with no
reference. -/
def fire (id : Digits) (now : Time) (s : State) : Host.Outcome State Fault Refusal :=
  if (id, CmdKind.lock) ∈ s.deferred then request id .lock none now (s.undefer id .lock)
  else .refused .nothingScheduled

/-- C.REQUEST (R255). -/
def execCRequest (id : Digits) (k : CmdKind) (ref : Option Ref) (now : Time) (s : State) :
    Host.Outcome State Fault Refusal :=
  request id k ref now s

/-- C.CONFIRM (R257); `rec.sent` and `now` are read by nothing. -/
def execCConfirm (cid : Cid) (t : Bytes) (s : State) : Host.Outcome State Fault Refusal :=
  s.onConnection cid (.next ((s.confirm cid t).setResult .nothing))

/-- C.FIRE (R260). -/
def execCFire (id : Digits) (now : Time) (s : State) : Host.Outcome State Fault Refusal := fire id now s

/-- CMD.BLOQUEAR (R251): LOCK. -/
def execCmdBloquear (id : Digits) (ref : Ref) (now : Time) (s : State) : Host.Outcome State Fault Refusal :=
  request id .lock (some ref) now s

/-- CMD.LIBERAR (R252): UNLOCK. -/
def execCmdLiberar (id : Digits) (ref : Ref) (now : Time) (s : State) : Host.Outcome State Fault Refusal :=
  request id .unlock (some ref) now s

/-- CMD.BATERIA (R253): BATTERY_CHECK. -/
def execCmdBateria (id : Digits) (ref : Ref) (now : Time) (s : State) : Host.Outcome State Fault Refusal :=
  request id .batteryCheck (some ref) now s

end Sys2Proof.Machine
end

