-- ==== Sys2Proof/Machine/Receive.lean ====
section
/-!
DEFINITION. The Protocol Codec, decode side (`42_decode.md` R170 to R182): DEC.CHECK, DEC.HEADER, DEC.DISPATCH and
the seven RX.* operations.  A `recv…` function gives the message and the state after its effects, outputs included.
-/

namespace Sys2Proof.Machine

/-- The transient `CRC.R` after DEC.CHECK (R139 (3)): the checksum is computed only when VERIFY_RX_CRC is set and the
tests before it passed. -/
def State.afterCheck (s : State) (f : Bytes) : State :=
  if s.cfg.verifyRxCrc && checkFrame false f = none then s.crcOver (slice f 2 ((byteAt f 2).toNat + 1)) else s

/-- RX.LOGIN (R175). -/
def recvLogin (cid : Cid) (p : Bytes) (serial : U16) (s : State) : Message × State :=
  match loginIdentity p with
  | none => (.login none, s.sendAck cid .p01 serial)
  | some d => (.login (some d), (s.login cid d).sendAck cid .p01 serial)

/-- RX.HEARTBEAT (R176). -/
def recvHeartbeat (cid : Cid) (now : Time) (p : Bytes) (serial : U16) (s : State) : Message × State :=
  if p.length < Config.hbBlock then (.heartbeat none, s.sendAck cid .p13 serial)
  else (.heartbeat (some (heartbeatOf p)), (s.refresh cid (heartbeatUpdate p) now).sendAck cid .p13 serial)

/-- RX.LOC_BASIC (R177): the status fields are read from the cache, of which only the timestamp is written. -/
def recvLocBasic (cid : Cid) (now : Time) (p : Bytes) (serial : U16) (s : State) : Message × State :=
  if p.length < Config.locBasicMin then (.locBasic none, s.sendAck cid .p12 serial)
  else (.locBasic (some (basicFix p (s.cacheOf cid))), (s.touch cid now).sendAck cid .p12 serial)

/-- RX.LOC_EXT (R178): the cache is refreshed first, then read (D17). -/
def recvLocExt (cid : Cid) (now : Time) (p : Bytes) (serial : U16) (s : State) : Message × State :=
  if p.length < Config.locExtMin then (.locExt none, s.sendAck cid .p22 serial)
  else
    let s1 := s.refresh cid (extUpdate p) now
    (.locExt (some (extFix p (s1.cacheOf cid), termInfo (byteAt p 7))), s1.sendAck cid .p22 serial)

/-- RX.CMDRESP21 and RX.CMDRESP15 (R179, R180): no acknowledgement. -/
def recvCmdResp (cid : Cid) (p : Bytes) (s : State) : Message × State := (.cmdResp (textOf p), s.confirm cid (textOf p))

/-- RX.UNKNOWN (R181): no effect, no acknowledgement. -/
def recvUnknown (s : State) : Message × State := (.unknown, s)

/-- The RX.* rule DEC.DISPATCH selects, run (R284). -/
def recvRule (r : RxRule) (cid : Cid) (now : Time) (p : Bytes) (serial : U16) (s : State) : Message × State :=
  match r with
  | .login => recvLogin cid p serial s
  | .heartbeat => recvHeartbeat cid now p serial s
  | .locBasic => recvLocBasic cid now p serial s
  | .locExt => recvLocExt cid now p serial s
  | .cmdResp21 => recvCmdResp cid p s
  | .cmdResp15 => recvCmdResp cid p s
  | .unknown => recvUnknown s

/-- The message decoded stands in `msg` (R40); an RX.* operation returns nothing. -/
def State.received (r : Message × State) : State := (r.2.setMsg r.1).setResult .nothing

/-- RX.LOGIN (R175). -/
def execRxLogin (cid : Cid) (p : Bytes) (serial : U16) (s : State) : Host.Outcome State Fault Refusal :=
  s.onConnection cid (.next (State.received (recvLogin cid p serial s)))

/-- RX.HEARTBEAT (R176). -/
def execRxHeartbeat (cid : Cid) (now : Time) (p : Bytes) (serial : U16) (s : State) :
    Host.Outcome State Fault Refusal :=
  s.onConnection cid (.next (State.received (recvHeartbeat cid now p serial s)))

/-- RX.LOC_BASIC (R177). -/
def execRxLocBasic (cid : Cid) (now : Time) (p : Bytes) (serial : U16) (s : State) :
    Host.Outcome State Fault Refusal :=
  s.onConnection cid (.next (State.received (recvLocBasic cid now p serial s)))

/-- RX.LOC_EXT (R178). -/
def execRxLocExt (cid : Cid) (now : Time) (p : Bytes) (serial : U16) (s : State) :
    Host.Outcome State Fault Refusal :=
  s.onConnection cid (.next (State.received (recvLocExt cid now p serial s)))

/-- RX.CMDRESP21 (R179). -/
def execRxCmdResp21 (cid : Cid) (p : Bytes) (s : State) : Host.Outcome State Fault Refusal :=
  s.onConnection cid (.next (State.received (recvCmdResp cid p s)))

/-- RX.CMDRESP15 (R180). -/
def execRxCmdResp15 (cid : Cid) (p : Bytes) (s : State) : Host.Outcome State Fault Refusal :=
  s.onConnection cid (.next (State.received (recvCmdResp cid p s)))

/-- RX.UNKNOWN (R181). -/
def execRxUnknown (cid : Cid) (s : State) : Host.Outcome State Fault Refusal :=
  s.onConnection cid (.next (State.received (recvUnknown s)))

/-- DEC.CHECK (R170): passes, or raises the first condition that applies. -/
def execDecCheck (f : Bytes) (s : State) : Host.Outcome State Fault Refusal :=
  match checkFrame s.cfg.verifyRxCrc f with
  | none => .next ((s.afterCheck f).setResult .passed)
  | some e => .next ((s.afterCheck f).raise e)

/-- DEC.HEADER (R173), defined for a span that passes DEC.CHECK. -/
def execDecHeader (f : Bytes) (s : State) : Host.Outcome State Fault Refusal :=
  if checkFrame s.cfg.verifyRxCrc f = none then .next (s.setResult (.header (headerOf f)))
  else .refused .headerUndefined

/-- DEC.DISPATCH (R174). -/
def execDecDispatch (proto : Byte) (s : State) : Host.Outcome State Fault Refusal :=
  .next (s.setResult (.rule (dispatchOf proto)))

end Sys2Proof.Machine
end

