-- ==== Sys2Proof/Machine/Engine.lean ====
section
/-!
DEFINITION. The event interface and routing (`46_engine.md` R281 to R289, R296): PROCESS and the five events.
-/

namespace Sys2Proof.Machine

/-- A frame ends ACCEPTED: its log record is emitted last and reads the identity after the frame's effects (R284,
R289, D36). -/
def State.acceptFrame (s : State) (cid : Cid) (f : Bytes) (h : Header) (m : Message) : State :=
  (s.emit (.log { imei := s.imeiOf cid, proto := some h.proto, serial := some h.serial, raw := f
                  decoded := .message m })).setResult (.outcome .accepted)

/-- PROCESS's effect (R284). -/
def State.processed (s : State) (cid : Cid) (f : Bytes) (now : Time) : State :=
  let s1 := s.afterCheck f
  match checkFrame s.cfg.verifyRxCrc f with
  | some e => s1.dropFrame cid f e
  | none =>
    let h := headerOf f
    let r := recvRule (dispatchOf h.proto) cid now h.payload h.serial s1
    (r.2.setMsg r.1).acceptFrame cid f h r.1

/-- The frames of one delivery, in order (R283, R72 (b)). -/
def State.processAll (s : State) (cid : Cid) (fs : List Bytes) (now : Time) : State :=
  fs.foldl (fun s f => s.processed cid f now) s

/-- `RXBUF[cid] ++ data` (R283). -/
def State.rxWith (s : State) (cid : Cid) (data : Bytes) : Bytes := s.rxOf cid ++ data

/-- The delivery would push the buffer past a finite RX_BUF_CAP (R296 (4), D10). -/
def State.rxFull (s : State) (cid : Cid) (data : Bytes) : Bool :=
  match s.cfg.rxBufCap with
  | none => false
  | some c => c < (s.rxWith cid data).length

/-- EV_RX's effect (R283): append, scan, process the frames in order, keep what was not consumed. -/
def State.rxDelivered (s : State) (cid : Cid) (data : Bytes) (now : Time) : State :=
  let buf := s.rxWith cid data
  ((((s.setPos (scan buf).2).processAll cid (scan buf).1 now).setRx cid (buf.drop (scan buf).2))).setResult .nothing

/-- PROCESS (R284). -/
def execProcess (cid : Cid) (f : Bytes) (now : Time) (s : State) : Host.Outcome State Fault Refusal :=
  s.onConnection cid (.next (s.processed cid f now))

/-- EV_CONNECT (R281, R296). -/
def execEvConnect (cid : Cid) (peer : Peer) (s : State) : Host.Outcome State Fault Refusal :=
  if s.connected cid then .refused .connectionInUse
  else if atCapacity s.cfg.maxConn s.sess.length then .refused .connectionsFull
  else .next ((s.connect cid peer).setResult .nothing)

/-- EV_DISCONNECT (R282, R301). -/
def execEvDisconnect (cid : Cid) (s : State) : Host.Outcome State Fault Refusal :=
  s.onConnection cid (.next ((s.disconnect cid).setResult .nothing))

/-- EV_RX (R283). -/
def execEvRx (cid : Cid) (data : Bytes) (now : Time) (s : State) : Host.Outcome State Fault Refusal :=
  s.onConnection cid (if s.rxFull cid data then .refused .rxBufferFull else .next (s.rxDelivered cid data now))

/-- EV_CMD (R285): the token selects the operation; any other token is rejected before anything else (R254, D22). -/
def execEvCmd (id : Digits) (token : Bytes) (ref : Ref) (now : Time) (s : State) :
    Host.Outcome State Fault Refusal :=
  if token = Config.tokBloquear then execCmdBloquear id ref now s
  else if token = Config.tokLiberar then execCmdLiberar id ref now s
  else if token = Config.tokBateria then execCmdBateria id ref now s
  else .next (s.rejectRequest (some ref) .eBadReq)

/-- EV_TIMER (R286). -/
def execEvTimer (id : Digits) (now : Time) (s : State) : Host.Outcome State Fault Refusal := fire id now s

end Sys2Proof.Machine
end

