-- ==== Sys2Proof/Machine/Dispatch.lean ====
section
/-!
DEFINITION. One arm per operation of `spec/opcode_table.json`.
-/

namespace Sys2Proof.Machine

def exec (i : Instr) (s : State) : Host.Outcome State Fault Refusal :=
  match i with
  -- inbound messages
  | .rxLogin cid _ p serial => Sys2Proof.Machine.execRxLogin cid p serial s
  | .rxHeartbeat cid now p serial => Sys2Proof.Machine.execRxHeartbeat cid now p serial s
  | .rxLocBasic cid now p serial => Sys2Proof.Machine.execRxLocBasic cid now p serial s
  | .rxLocExt cid now p serial => Sys2Proof.Machine.execRxLocExt cid now p serial s
  | .rxCmdResp21 cid _ p _ => Sys2Proof.Machine.execRxCmdResp21 cid p s
  | .rxCmdResp15 cid _ p _ => Sys2Proof.Machine.execRxCmdResp15 cid p s
  | .rxUnknown cid _ _ _ _ => Sys2Proof.Machine.execRxUnknown cid s
  -- outbound frames
  | .txAck01 serial => Sys2Proof.Machine.execTxAck01 serial s
  | .txAck13 serial => Sys2Proof.Machine.execTxAck13 serial s
  | .txAck12 serial => Sys2Proof.Machine.execTxAck12 serial s
  | .txAck22 serial => Sys2Proof.Machine.execTxAck22 serial s
  | .txCmd text serial => Sys2Proof.Machine.execTxCmd text serial s
  -- host requests by token
  | .cmdBloquear id ref now => Sys2Proof.Machine.execCmdBloquear id ref now s
  | .cmdLiberar id ref now => Sys2Proof.Machine.execCmdLiberar id ref now s
  | .cmdBateria id ref now => Sys2Proof.Machine.execCmdBateria id ref now s
  -- host events
  | .evConnect cid peer => Sys2Proof.Machine.execEvConnect cid peer s
  | .evDisconnect cid => Sys2Proof.Machine.execEvDisconnect cid s
  | .evRx cid data now => Sys2Proof.Machine.execEvRx cid data now s
  | .evCmd id token ref now => Sys2Proof.Machine.execEvCmd id token ref now s
  | .evTimer id now => Sys2Proof.Machine.execEvTimer id now s
  -- the Checksum Engine
  | .crcInit => Sys2Proof.Machine.execCrcInit s
  | .crcByte b => Sys2Proof.Machine.execCrcByte b s
  | .crcFinal => Sys2Proof.Machine.execCrcFinal s
  | .crcSum bytes => Sys2Proof.Machine.execCrcSum bytes s
  | .crcVerify bytes c => Sys2Proof.Machine.execCrcVerify bytes c s
  -- the Frame Reassembler
  | .frScan buf => Sys2Proof.Machine.execFrScan buf s
  -- the Protocol Codec
  | .decCheck f => Sys2Proof.Machine.execDecCheck f s
  | .decHeader f => Sys2Proof.Machine.execDecHeader f s
  | .decDispatch proto => Sys2Proof.Machine.execDecDispatch proto s
  | .txAck pp serial => Sys2Proof.Machine.execTxAck pp serial s
  -- the Device Session register file
  | .sConnect cid peer => Sys2Proof.Machine.execSConnect cid peer s
  | .sLogin cid d => Sys2Proof.Machine.execSLogin cid d s
  | .sRefresh cid st now => Sys2Proof.Machine.execSRefresh cid st now s
  | .sTouch cid now => Sys2Proof.Machine.execSTouch cid now s
  | .sStatus cid => Sys2Proof.Machine.execSStatus cid s
  | .sNextSerial cid => Sys2Proof.Machine.execSNextSerial cid s
  | .sDisconnect cid => Sys2Proof.Machine.execSDisconnect cid s
  -- the Command Dispatcher
  | .cRequest id kind ref now => Sys2Proof.Machine.execCRequest id kind ref now s
  | .cConfirm cid t _ => Sys2Proof.Machine.execCConfirm cid t s
  | .cFire id now => Sys2Proof.Machine.execCFire id now s
  -- the per-frame pipeline
  | .process cid f now => Sys2Proof.Machine.execProcess cid f now s

end Sys2Proof.Machine
end

