-- ==== Sys2Proof/Machine/Step.lean ====
section
/-!
DEFINITION. One step: take the input that waits longest and run it to completion (`46_engine.md` R280, R68), and how a
table word is placed where the next step takes its input (log entries 2, 3, 14).
-/

namespace Sys2Proof.Machine

/-- One step.  With nothing waiting the block is idle with all of its state intact (R291, R327). -/
def step (s : State) : Host.Outcome State Fault Refusal :=
  match s.inbox with
  | [] => .next s
  | .event e :: rest => exec e.instr { s with inbox := rest }
  | .span cid f now :: rest => exec (.process cid f now) { s with inbox := rest }
  | .build f :: rest =>
    match decodeOutbound f with
    | .ok i => exec i { s with inbox := rest }
    | .error e => .refused (.notOutbound e)

/-- The input that presents an encoded operation. -/
def inputOf : Code → Input
  | .inbound cid now f => .span cid f now
  | .outbound f => .build f
  | .token id ref now t => .event (.cmd id t ref now)

/-- The connection an encoded operation needs, created where it does not exist yet. -/
def State.withConnectionOf (s : State) : Code → State
  | .inbound cid _ _ => if s.connected cid then s else s.connect cid ⟨[]⟩
  | .outbound _ => s
  | .token _ _ _ _ => s

/-- `s` with the table word's operation first in line (log entry 2). -/
def State.withFetchWord (s : State) (nbits w : Nat) : State :=
  let c := tableCode nbits w
  { s.withConnectionOf c with inbox := inputOf c :: s.inbox }

end Sys2Proof.Machine
end

