-- ==== Sys2Proof/Safety.lean ====
section
/-!
DEFINITION. The terms claims use: the invariant of the block, what it means that only transient registers moved, a
sequence of operations run one after the other, and the declarative reading of `find` and of the FR.SCAN loop.
-/

namespace Sys2Proof.Machine

/-! ### The invariant -/

/-- Receive memory in canonical form: buffers by rising connection key, one each. -/
abbrev Memory := List (Cid × Bytes)

/-- The canonical form of receive memory. -/
abbrev Memory.wf (m : Memory) : Prop := m.Pairwise (fun a b => cidLt a.1 b.1 = true)

/-- The four tables of R20 stand in their canonical form; in particular `PEND` has at most one record per identity
(R34, R261). -/
structure State.Canonical (s : State) : Prop where
  sess     : tsorted cidLt s.sess
  rxbuf    : Memory.wf s.rxbuf
  pend     : tsorted bytesLt s.pend
  deferred : bsorted deferLt s.deferred

/-- "with the same key set as `SESS` at all times" (R20). -/
def State.SameKeys (s : State) : Prop := tkeys s.sess = tkeys s.rxbuf

/-- Every session names its own key (R22), its serial counter is in 1..0xFFFF (R26), its identity has R12's form. -/
def State.SessionsOk (s : State) : Prop :=
  ∀ cid r, (cid, r) ∈ s.sess → r.cid = cid ∧ r.seq ≠ 0 ∧ ∀ d, r.imei = some d → Digits.wf d = true

/-- Pending records stand under identities of R12's form (R20). -/
def State.PendOk (s : State) : Prop := ∀ id r, (id, r) ∈ s.pend → Digits.wf id = true

/-- "the only kind ever inserted is `LOCK`" (R36), for identities of R12's form. -/
def State.DeferOk (s : State) : Prop := ∀ id k, (id, k) ∈ s.deferred → k = .lock ∧ Digits.wf id = true

/-- No table and no buffer exceeds a finite capacity (R8, R296 (4)). -/
structure State.WithinCapacity (s : State) : Prop where
  conn : ∀ n, s.cfg.maxConn = some n → s.sess.length ≤ n
  pend : ∀ n, s.cfg.maxPend = some n → s.pend.length ≤ n
  rx   : ∀ n, s.cfg.rxBufCap = some n → ∀ cid b, (cid, b) ∈ s.rxbuf → b.length ≤ n

/-- Between events no buffer holds a complete frame and none holds bytes the reassembler would discard: a rescan
yields nothing and consumes nothing (R283, corner cases). -/
def State.Settled (s : State) : Prop := ∀ cid b, (cid, b) ∈ s.rxbuf → scan b = ([], 0)

/-- The invariant of the block. -/
structure State.Inv (s : State) : Prop where
  canonical : s.Canonical
  sameKeys  : s.SameKeys
  sessions  : s.SessionsOk
  pend      : s.PendOk
  deferred  : s.DeferOk
  capacity  : s.WithinCapacity
  settled   : s.Settled

/-! ### Frames -/

/-- Everything but the transient registers `CRC.R`, `pos`, `msg` and `result` is as it was. -/
structure OnlyTransient (s t : State) : Prop where
  sess     : t.sess = s.sess
  rxbuf    : t.rxbuf = s.rxbuf
  pend     : t.pend = s.pend
  deferred : t.deferred = s.deferred
  cfg      : t.cfg = s.cfg
  choice   : t.choice = s.choice
  inbox    : t.inbox = s.inbox
  outs     : t.outs = s.outs

/-- Everything but the session records, the outputs and the transient registers is as it was; every byte of the
receive buffers among it. -/
structure OnlySessions (s t : State) : Prop where
  rxbuf    : t.rxbuf = s.rxbuf
  pend     : t.pend = s.pend
  deferred : t.deferred = s.deferred
  cfg      : t.cfg = s.cfg
  choice   : t.choice = s.choice
  inbox    : t.inbox = s.inbox

/-- Every session but that of `cid` is as it was. -/
def OtherSessionsKept (cid : Cid) (s t : State) : Prop := ∀ c, c ≠ cid → t.session? c = s.session? c

/-- Every byte of every receive buffer is as it was. -/
def BuffersKept (s t : State) : Prop := ∀ c a, t.rxByte c a = s.rxByte c a

/-- Every pending record but that of `id` is as it was. -/
def OtherPendingKept (id : Digits) (s t : State) : Prop := ∀ d, d ≠ id → t.pend? d = s.pend? d

/-! ### Sequences of operations -/

/-- Execute the operations one after the other, stopping where one stops. -/
def execAll : List Instr → State → Host.Outcome State Fault Refusal
  | [], s => .next s
  | i :: is, s =>
    match exec i s with
    | .next t => execAll is t
    | .fault r => .fault r
    | .refused r => .refused r

/-! ### The declarative reading of R10 and R151 -/

/-- `m` stands in `b` at index `i`. -/
def StandsAt (b m : Bytes) (i : Nat) : Prop := slice b i (i + m.length) = m

/-- `i` is the least index `>= start` with `b[i : i + len(m)] = m` (R10). -/
def FoundAt (b m : Bytes) (start i : Nat) : Prop :=
  start ≤ i ∧ StandsAt b m i ∧ ∀ j, start ≤ j → j < i → ¬ StandsAt b m j

/-- There is no index `>= start` at which `m` stands (R10 `none`). -/
def NotFound (b m : Bytes) (start : Nat) : Prop := ∀ j, start ≤ j → ¬ StandsAt b m j

/-- The loop of R151 from `pos`, as a relation: the frames it emits and the position it ends at. -/
inductive Scans (buf : Bytes) : Nat → List Bytes → Nat → Prop where
  | noStart {pos : Nat} (h : NotFound buf Config.startMarker pos) : Scans buf pos [] buf.length
  | noStop {pos i : Nat} (h : FoundAt buf Config.startMarker pos i) (h' : NotFound buf Config.stopMarker i) :
      Scans buf pos [] pos
  | frame {pos i e n : Nat} {fs : List Bytes} (h : FoundAt buf Config.startMarker pos i)
      (h' : FoundAt buf Config.stopMarker i e) (r : Scans buf (e + 2) fs n) :
      Scans buf pos (slice buf i (e + 2) :: fs) n

/-- A frame R159 speaks of: it begins with the start marker, and its first stop marker is its last two bytes. -/
def CleanFrame (f : Bytes) : Prop :=
  StandsAt f Config.startMarker 0 ∧ FoundAt f Config.stopMarker 0 (f.length - 2) ∧ 4 ≤ f.length

/-! ### Values, in the spec's arithmetic -/

/-- The high byte of a 16-bit value, the first on the wire (R62). -/
def hiByte (v : U16) : Byte := v.extractLsb' 8 8

/-- The low byte of a 16-bit value, the second on the wire (R62). -/
def loByte (v : U16) : Byte := v.extractLsb' 0 8

/-- R131's step on integers: `((r << 1) mod 0x10000)`, exclusive-or the polynomial when bit 15 of `r` is 1. -/
def crcStepNat (r : Nat) : Nat := if r / 32768 % 2 = 1 then (r * 2 % 65536) ^^^ 0x1021 else r * 2 % 65536

/-- R131's "repeat 8 times". -/
def crcEightNat (r : Nat) : Nat :=
  crcStepNat (crcStepNat (crcStepNat (crcStepNat (crcStepNat (crcStepNat (crcStepNat (crcStepNat r)))))))

/-- `reflect8` on integers: bit `i` moves to bit `7 - i` (R136). -/
def reflect8Nat (b : Nat) : Nat :=
  b % 2 * 128 + b / 2 % 2 * 64 + b / 4 % 2 * 32 + b / 8 % 2 * 16
    + b / 16 % 2 * 8 + b / 32 % 2 * 4 + b / 64 % 2 * 2 + b / 128 % 2

/-- R137's step: shift right, exclusive-or 0x8408 when the bit shifted out was 1. -/
def lsbStep (q : U16) : U16 := if q.getLsbD 0 then (q >>> 1) ^^^ 0x8408 else q >>> 1

/-- R137's eight steps. -/
def lsbEight (q : U16) : U16 := lsbStep (lsbStep (lsbStep (lsbStep (lsbStep (lsbStep (lsbStep (lsbStep q)))))))

/-- R137's form of the checksum, which needs no reflection. -/
def lsbSum (bs : Bytes) : U16 := bs.foldl (fun q b => lsbEight (q ^^^ b.setWidth 16)) 0xFFFF ^^^ 0xFFFF

/-- R98's table of alarm codes, on the number of the 3-bit code. -/
def alarmOfCode : Nat → AlarmClass
  | 4 => .sos
  | 3 => .lowBatt
  | 2 => .powerCut
  | 1 => .shock
  | _ => .normal

/-- A 4-byte big-endian integer. -/
def be4 (a b c d : Byte) : Nat := ((a.toNat * 256 + b.toNat) * 256 + c.toNat) * 256 + d.toNat

/-- Nibbles packed two to a byte, high nibble first (R63). -/
def packNibbles : List Nat → Bytes
  | [] => []
  | [a] => [BitVec.ofNat 8 (a * 16)]
  | a :: b :: ns => BitVec.ofNat 8 (a * 16 + b) :: packNibbles ns

/-- The sixteen nibbles of the first 8 bytes of a login payload, high nibble first (R63, R92). -/
def LoginNibbles (p : Bytes) (ns : List Nat) : Prop :=
  ns.length = 16 ∧ (∀ n ∈ ns, n < 16) ∧ ∃ more, p = packNibbles ns ++ more

/-- A login payload carries the identity `d` (R103): its nibbles other than 0xF are the digits of `d` after any number
of zeros, and `d` has R12's form. -/
def LoginCarries (p : Bytes) (d : Digits) : Prop :=
  d.wf = true ∧ ∃ ns zeros, LoginNibbles p ns ∧
    ns.filter (fun n => n ≠ 15) = List.replicate zeros 0 ++ d.map (fun c => c.toNat - 0x30)

/-- The login failures of R308, a complete list: under 8 bytes; a nibble 0xA to 0xE; no digit left, which is every
nibble 0 or 0xF. -/
def LoginFails (p : Bytes) : Prop :=
  p.length < 8 ∨ ∃ ns, LoginNibbles p ns ∧ ((∃ n ∈ ns, 10 ≤ n ∧ n ≤ 14) ∨ ∀ n ∈ ns, n = 0 ∨ n = 15)

/-- The 10-byte acknowledgement, byte by byte (R97 format A). -/
def ackFrame (pp : Byte) (serial : U16) : Bytes :=
  let c := crcSumOf [0x05, pp, hiByte serial, loByte serial]
  [0x78, 0x78, 0x05, pp, hiByte serial, loByte serial, hiByte c, loByte c, 0x0D, 0x0A]

/-- The checksummed bytes of a command frame, for a text of at most 245 bytes (R97 format C, R216). -/
def cmdSpan (text : Bytes) (serial : U16) : Bytes :=
  [BitVec.ofNat 8 (10 + text.length), 0x80, BitVec.ofNat 8 (4 + text.length), 0x00, 0x00, 0x00, 0x00] ++ text
    ++ [hiByte serial, loByte serial]

/-- The command frame, byte by byte (R97 format C, R216). -/
def cmdFrame (text : Bytes) (serial : U16) : Bytes :=
  let c := crcSumOf (cmdSpan text serial)
  [0x78, 0x78] ++ cmdSpan text serial ++ [hiByte c, loByte c, 0x0D, 0x0A]

/-! ### Groups of operations -/

/-- The forms in which a command is requested: C.REQUEST, the three CMD.* operations, and EV_CMD with one of the three
tokens (R251 to R253, R285). -/
inductive RequestForm : Instr → Digits → CmdKind → Option Ref → Time → Prop where
  | request (id : Digits) (k : CmdKind) (ref : Option Ref) (now : Time) :
      RequestForm (.cRequest id k ref now) id k ref now
  | bloquear (id : Digits) (ref : Ref) (now : Time) : RequestForm (.cmdBloquear id ref now) id .lock (some ref) now
  | liberar (id : Digits) (ref : Ref) (now : Time) : RequestForm (.cmdLiberar id ref now) id .unlock (some ref) now
  | bateria (id : Digits) (ref : Ref) (now : Time) :
      RequestForm (.cmdBateria id ref now) id .batteryCheck (some ref) now
  | evBloquear (id : Digits) (ref : Ref) (now : Time) :
      RequestForm (.evCmd id [0x42, 0x4C, 0x4F, 0x51, 0x55, 0x45, 0x41, 0x52] ref now) id .lock (some ref) now
  | evLiberar (id : Digits) (ref : Ref) (now : Time) :
      RequestForm (.evCmd id [0x4C, 0x49, 0x42, 0x45, 0x52, 0x41, 0x52] ref now) id .unlock (some ref) now
  | evBateria (id : Digits) (ref : Ref) (now : Time) :
      RequestForm (.evCmd id [0x42, 0x41, 0x54, 0x45, 0x52, 0x49, 0x41] ref now) id .batteryCheck (some ref) now

/-- The span `f` is a command response that confirms (R107, R105, R257): it passes DEC.CHECK, dispatches to one of the
two command-response rules, and its text confirms. -/
def ConfirmingSpan (verify : Bool) (f : Bytes) : Prop :=
  checkFrame verify f = none ∧
    (dispatchOf (headerOf f).proto = .cmdResp21 ∨ dispatchOf (headerOf f).proto = .cmdResp15) ∧
    confirms (textOf (headerOf f).payload) = true

/-- The operations a device's bytes cause on its connection (R321). -/
inductive DeviceOp (cid : Cid) : Instr → Prop where
  | login (now : Time) (p : Bytes) (n : U16) : DeviceOp cid (.rxLogin cid now p n)
  | heartbeat (now : Time) (p : Bytes) (n : U16) : DeviceOp cid (.rxHeartbeat cid now p n)
  | locBasic (now : Time) (p : Bytes) (n : U16) : DeviceOp cid (.rxLocBasic cid now p n)
  | locExt (now : Time) (p : Bytes) (n : U16) : DeviceOp cid (.rxLocExt cid now p n)
  | cmdResp21 (now : Time) (p : Bytes) (n : U16) : DeviceOp cid (.rxCmdResp21 cid now p n)
  | cmdResp15 (now : Time) (p : Bytes) (n : U16) : DeviceOp cid (.rxCmdResp15 cid now p n)
  | unknown (now : Time) (b : Byte) (p : Bytes) (n : U16) : DeviceOp cid (.rxUnknown cid now b p n)
  | process (f : Bytes) (now : Time) : DeviceOp cid (.process cid f now)
  | rx (data : Bytes) (now : Time) : DeviceOp cid (.evRx cid data now)

/-- The operations on a connection, which need it to be a key of `SESS` (R296 (2)); EV_CONNECT and S.CONNECT make
one. -/
inductive ConnectionOp (cid : Cid) : Instr → Prop where
  | device {i : Instr} (h : DeviceOp cid i) : ConnectionOp cid i
  | evDisconnect : ConnectionOp cid (.evDisconnect cid)
  | login (d : Digits) : ConnectionOp cid (.sLogin cid d)
  | refresh (u : StatusUpdate) (now : Time) : ConnectionOp cid (.sRefresh cid u now)
  | touch (now : Time) : ConnectionOp cid (.sTouch cid now)
  | status : ConnectionOp cid (.sStatus cid)
  | nextSerial : ConnectionOp cid (.sNextSerial cid)
  | sDisconnect : ConnectionOp cid (.sDisconnect cid)
  | confirm (t : Bytes) (now : Time) : ConnectionOp cid (.cConfirm cid t now)

/-- What an operation on connection `cid` can depend on, the same in two states (R324): the session and the buffer of
`cid`, the shared tables and the configuration. -/
structure SameFor (cid : Cid) (s t : State) : Prop where
  session  : s.session? cid = t.session? cid
  rx       : s.rxOf cid = t.rxOf cid
  pend     : s.pend = t.pend
  deferred : s.deferred = t.deferred
  cfg      : s.cfg = t.cfg

end Sys2Proof.Machine
end

