-- ==== Sys2Proof/Certificates/Slice0/Obligations.lean ====
section
/-!
DEFINITION. The statements about the block, each from a numbered rule or a section of `spec/`.  A clause that rests on
a decision the spec marks as its own (`92_eei_decisions.md`) names it; a clause that rests on the model's own choice
names its log entry.
-/

open Sys2Proof Sys2Proof.Machine

/-! ### The Checksum Engine -/

/-- R130, R32: CRC.INIT puts 0xFFFF in `CRC.R` and touches nothing else but `result`. -/
def Obligations.CrcInitSetsRegister : Prop :=
  ∀ s : State, ∃ t, exec .crcInit s = .next t ∧ t.crcR = 0xFFFF ∧ OnlyTransient s t ∧ t.pos = s.pos ∧ t.msg = s.msg

/-- R131: CRC.BYTE, in the rule's integer arithmetic: the reflected byte into the high byte, then eight times a 16-bit
shift and the polynomial when the bit shifted out was 1. -/
def Obligations.CrcByteDividesBitByBit : Prop :=
  ∀ (b : Byte) (s : State), ∃ t, exec (.crcByte b) s = .next t ∧
    t.crcR.toNat = crcEightNat (s.crcR.toNat ^^^ (reflect8Nat b.toNat * 256)) ∧
    OnlyTransient s t ∧ t.pos = s.pos ∧ t.msg = s.msg

/-- R132: CRC.FINAL returns the register bit-reflected and then inverted, and leaves the register as it is. -/
def Obligations.CrcFinalReflectsThenInverts : Prop :=
  ∀ s : State, ∃ t v, exec .crcFinal s = .next t ∧ t.result = .word v ∧
    (∀ i, i < 16 → v.getLsbD i = !s.crcR.getLsbD (15 - i)) ∧
    t.crcR = s.crcR ∧ OnlyTransient s t ∧ t.pos = s.pos ∧ t.msg = s.msg

/-- R133: CRC.SUM is CRC.INIT, CRC.BYTE for each byte in order, CRC.FINAL: the same next state, the register among
it; the value is a function of the bytes alone, and no other state is written. -/
def Obligations.CrcSumRunsRegisterOperations : Prop :=
  ∀ bs : Bytes, ∃ v, ∀ s : State, ∃ t, exec (.crcSum bs) s = .next t ∧ t.result = .word v ∧
    execAll (.crcInit :: bs.map .crcByte ++ [.crcFinal]) s = .next t ∧
    OnlyTransient s t ∧ t.pos = s.pos ∧ t.msg = s.msg

/-- R134: CRC.VERIFY answers whether CRC.SUM gives `c`; so it holds of the sum itself. -/
def Obligations.CrcVerifyComparesWithSum : Prop :=
  ∀ (bs : Bytes) (c : U16) (s : State), ∃ t u v, exec (.crcSum bs) s = .next u ∧ u.result = .word v ∧
    exec (.crcVerify bs c) s = .next t ∧ t.result = .truth (v = c) ∧
    OnlyTransient s t ∧ t.pos = s.pos ∧ t.msg = s.msg

/-- R137: the form without reflection (register shifted right, 0x8408) gives the same sum for every byte sequence. -/
def Obligations.CrcLsbFirstFormAgrees : Prop :=
  ∀ (bs : Bytes) (s : State), ∃ t, exec (.crcSum bs) s = .next t ∧ t.result = .word (lsbSum bs)

/-- R136: the two reflections bit by bit, and that both are involutions. -/
def Obligations.ReflectionsReverseBits : Prop :=
  (∀ (b : Byte) (i : Nat), i < 8 → (reflect8 b).getLsbD i = b.getLsbD (7 - i)) ∧
  (∀ (w : U16) (i : Nat), i < 16 → (reflect16 w).getLsbD i = w.getLsbD (15 - i)) ∧
  (∀ b : Byte, reflect8 (reflect8 b) = b) ∧ (∀ w : U16, reflect16 (reflect16 w) = w)

/-! ### The Frame Reassembler -/

/-- R151, R150: FR.SCAN emits the frames of the rule's loop, read with the declarative `find` of R10, and reports the
position the loop ends at, which is at most the buffer's length; it reads and writes no other state. -/
def Obligations.ScanFollowsMarkers : Prop :=
  ∀ (buf : Bytes) (s : State), ∃ t fs n, exec (.frScan buf) s = .next t ∧ t.result = .frames fs n ∧
    Scans buf 0 fs n ∧ n ≤ buf.length ∧ t.pos = n ∧ OnlyTransient s t ∧ t.crcR = s.crcR ∧ t.msg = s.msg

/-- R154, R156, R304 (a consequence the spec marks derived): every span FR.SCAN emits begins with the start marker and
ends at its first stop marker, so it has at least 4 bytes, and DEC.CHECK never raises E_START on it. -/
def Obligations.ScanSpansAreDelimited : Prop :=
  ∀ (buf f : Bytes) (fs : List Bytes) (n : Nat) (s t : State), exec (.frScan buf) s = .next t →
    t.result = .frames fs n → f ∈ fs →
    CleanFrame f ∧ ∃ u, exec (.decCheck f) t = .next u ∧ u.result ≠ .raised .eStart

/-- R159, the source's three reassembly properties, for frames that begin with the start marker and hold no stop marker
before their own: two frames in one read; a frame without its stop marker is retained; with it, it is emitted. -/
def Obligations.TwoFramesAndARemainder : Prop :=
  ∀ (f g : Bytes) (s : State), CleanFrame f → CleanFrame g →
    (∃ t, exec (.frScan (f ++ g)) s = .next t ∧ t.result = .frames [f, g] (f ++ g).length) ∧
    (∃ t, exec (.frScan (f.take (f.length - 2))) s = .next t ∧ t.result = .frames [] 0) ∧
    (∃ t, exec (.frScan (f.take (f.length - 2) ++ [0x0D, 0x0A])) s = .next t ∧ t.result = .frames [f] f.length)

/-- R66, R72, R153, R351 (derived): a delivery cut in two at any point gives the same outputs and the same state as
one delivery, unless the cut leaves a lone 0x78 at the end of a buffer that is discarded.  Only the transient `pos` and
how much garbage lies before a retained partial frame may differ (R153, decision D8): what is retained after two is the
end of what is retained after one, and whatever bytes come next, FR.SCAN finds the same frames in both.  Where
RX_BUF_CAP is finite the whole delivery fits (R296, D10). -/
def Obligations.CutOfADeliveryDoesNotMatter : Prop :=
  ∀ (cid : Cid) (a b : Bytes) (now : Time) (s : State) (r : Session), s.session? cid = some r →
    (∀ n, s.cfg.rxBufCap = some n → (s.rxOf cid ++ a ++ b).length ≤ n) →
    ((s.rxOf cid ++ a).getLast? ≠ some 0x78 ∨ (scan (s.rxOf cid ++ a)).2 < (s.rxOf cid ++ a).length) →
    ∃ t u v, exec (.evRx cid a now) s = .next t ∧ exec (.evRx cid b now) t = .next u ∧
      exec (.evRx cid (a ++ b) now) s = .next v ∧ v = { u with pos := v.pos, rxbuf := v.rxbuf } ∧
      (∀ c, c ≠ cid → v.rxbuf? c = u.rxbuf? c) ∧ u.rxOf cid <:+ v.rxOf cid ∧
      ∀ x, (scan (v.rxOf cid ++ x)).1 = (scan (u.rxOf cid ++ x)).1

/-! ### The Protocol Codec, decode side -/

/-- R170 to R172, R315 (the places of E_LEN and E_CRC are decisions D6 and D2): DEC.CHECK raises the first condition
that applies, in that order, or passes. -/
def Obligations.CheckRaisesFirstCondition : Prop :=
  ∀ (f : Bytes) (s : State), ∃ t, exec (.decCheck f) s = .next t ∧ OnlyTransient s t ∧ t.pos = s.pos ∧ t.msg = s.msg ∧
    (f.length < 10 → t.result = .raised .eShort) ∧
    ∀ (m0 m1 l : Byte) (rest : Bytes), f = m0 :: m1 :: l :: rest → 10 ≤ f.length →
      (¬ (m0 = 0x78 ∧ m1 = 0x78) → t.result = .raised .eStart) ∧
      (m0 = 0x78 ∧ m1 = 0x78 →
        (f.length < l.toNat + 5 → t.result = .raised .eTrunc) ∧
        (l.toNat + 5 ≤ f.length →
          (l.toNat < 5 → t.result = .raised .eLen) ∧
          (5 ≤ l.toNat →
            ∀ c0 c1 : Byte, f[l.toNat + 1]? = some c0 → f[l.toNat + 2]? = some c1 →
              let sum := crcSumOf ((f.drop 2).take (l.toNat - 1))
              (s.cfg.verifyRxCrc = true ∧ sum.toNat ≠ c0.toNat * 256 + c1.toNat → t.result = .raised .eCrc) ∧
              (s.cfg.verifyRxCrc = false ∨ sum.toNat = c0.toNat * 256 + c1.toNat → t.result = .passed))))

/-- R173, R40: on a span that passes, DEC.HEADER gives the four fields located by the length byte, and beside them the
checksum the frame carries, and writes no state but `result`. -/
def Obligations.HeaderFieldsLocatedByLength : Prop :=
  ∀ (f : Bytes) (s : State), checkFrame s.cfg.verifyRxCrc f = none →
    ∃ t h, exec (.decHeader f) s = .next t ∧ t.result = .header h ∧ t = { s with result := .header h } ∧
      f[2]? = some (BitVec.ofNat 8 h.len) ∧ f[3]? = some h.proto ∧
      h.payload.length = h.len - 5 ∧ (∀ k, k < h.len - 5 → h.payload[k]? = f[4 + k]?) ∧
      f[h.len - 1]? = some (hiByte h.serial) ∧ f[h.len]? = some (loByte h.serial) ∧
      f[h.len + 1]? = some (hiByte h.cksum) ∧ f[h.len + 2]? = some (loByte h.cksum)

/-- R174: DEC.DISPATCH selects by the table of R107, on the protocol-id alone. -/
def Obligations.DispatchIsTotal : Prop :=
  ∀ (b : Byte) (s : State), ∃ t r, exec (.decDispatch b) s = .next t ∧ t = { s with result := .rule r } ∧
    (b = 0x01 → r = .login) ∧ (b = 0x13 → r = .heartbeat) ∧ (b = 0x12 → r = .locBasic) ∧ (b = 0x22 → r = .locExt) ∧
    (b = 0x21 → r = .cmdResp21) ∧ (b = 0x15 → r = .cmdResp15) ∧
    (b ≠ 0x01 ∧ b ≠ 0x13 ∧ b ≠ 0x12 ∧ b ≠ 0x22 ∧ b ≠ 0x21 ∧ b ≠ 0x15 → r = .unknown)

/-- R173, R364 (decision D7): bytes after the declared end of a span that decodes change nothing of what it decodes
to, under either setting of VERIFY_RX_CRC. -/
def Obligations.BytesAfterDeclaredEndIgnored : Prop :=
  ∀ (v : Bool) (cid : Cid) (now : Time) (f x : Bytes) (i : Instr), decodeSpan v cid now f = .ok i →
    decodeSpan v cid now (f ++ x) = .ok i

/-- R175, R103, R308 (decisions D31, D5 in what fails): every login payload carries one identity or fails; RX.LOGIN
sets the identity it carries, leaves the identity as it is where it fails, and always sends TX.ACK01 with the serial
copied; nothing else of any session, table or buffer changes. -/
def Obligations.LoginRecordsIdentityAndAcks : Prop :=
  ∀ (cid : Cid) (now : Time) (p : Bytes) (serial : U16) (s : State) (r : Session), s.session? cid = some r →
    ∃ t id, exec (.rxLogin cid now p serial) s = .next t ∧
      ((∃ d, id = some d ∧ LoginCarries p d) ∨ id = none ∧ LoginFails p) ∧
      t.msg = some (.login id) ∧ t.session? cid = some { r with imei := id.or r.imei } ∧
      t.outs = s.outs ++ [.tx cid (ackFrame 0x01 serial)] ∧
      OnlySessions s t ∧ OtherSessionsKept cid s t ∧ BuffersKept s t ∧ t.pos = s.pos

/-- R103, R63, R308 (failures: D31, D5): sixteen nibbles, two a byte, whatever bytes follow (R92).  Where they are an
identity of R12's form after leading zeros, with padding nibbles 0xF before, between and after its digits, the login
decodes to it and it becomes the session's.  Where one is 0xA to 0xE, or no digit other than 0 is left, the login fails
and the identity stays; so it does under 8 bytes. -/
def Obligations.PackedIdentityDecodes : Prop :=
  ∀ (ns : List Nat) (more : Bytes) (cid : Cid) (now : Time) (serial : U16) (s : State) (r : Session),
    ns.length = 16 → (∀ n ∈ ns, n < 16) → s.session? cid = some r →
    (∀ (d : Digits) (zeros : Nat), d.wf = true →
      ns.filter (fun n => n ≠ 15) = List.replicate zeros 0 ++ d.map (fun c => c.toNat - 0x30) →
      ∃ t, exec (.rxLogin cid now (packNibbles ns ++ more) serial) s = .next t ∧
        t.msg = some (.login (some d)) ∧ t.session? cid = some { r with imei := some d }) ∧
    (((∃ n ∈ ns, 10 ≤ n ∧ n ≤ 14) ∨ ∀ n ∈ ns, n = 0 ∨ n = 15) →
      ∃ t, exec (.rxLogin cid now (packNibbles ns ++ more) serial) s = .next t ∧
        t.msg = some (.login none) ∧ t.session? cid = some r) ∧
    ∀ p : Bytes, p.length < 8 → ∃ t, exec (.rxLogin cid now p serial) s = .next t ∧
      t.msg = some (.login none) ∧ t.session? cid = some r

/-- R176, R98, R237: RX.HEARTBEAT decodes the 4-byte status block, refreshes all eight cache fields (the low-battery
flag by LOW_BATT_FN of the alarm class and the new voltage code) and sends TX.ACK13; a shorter payload writes no
session and is acknowledged all the same. -/
def Obligations.HeartbeatRefreshesCache : Prop :=
  ∀ (cid : Cid) (now : Time) (p : Bytes) (serial : U16) (s : State) (r : Session), s.session? cid = some r →
    ∃ t, exec (.rxHeartbeat cid now p serial) s = .next t ∧
      t.outs = s.outs ++ [.tx cid (ackFrame 0x13 serial)] ∧
      OnlySessions s t ∧ OtherSessionsKept cid s t ∧ BuffersKept s t ∧ t.pos = s.pos ∧
      (p.length < 4 → t.msg = some (.heartbeat none) ∧ t.session? cid = some r) ∧
      ∀ (b0 b1 b2 b3 : Byte) (rest : Bytes), p = b0 :: b1 :: b2 :: b3 :: rest →
        let alarm := alarmOfCode (b0.toNat / 8 % 8)
        t.msg = some (.heartbeat (some
          { relay := b0.getLsbD 7, gpsOn := b0.getLsbD 6, alarm := alarm, chg := b0.getLsbD 2
            ign := b0.getLsbD 1, armed := b0.getLsbD 0, volt := b1, gsm := b2, lang := b3 })) ∧
        t.session? cid = some { r with st :=
          { ign := some (b0.getLsbD 1), relay := some (b0.getLsbD 7), alarm := some alarm, chg := some (b0.getLsbD 2)
            lowbatt := some (lowBattFn s.cfg.lowBattFn alarm (some b1)), volt := some b1, gsm := some b2
            upd := some now } }

/-- R177, R99, R101, R102, R104 (decisions D3, D4, D19, D20): RX.LOC_BASIC on a payload of at least 18 bytes: every
field of the fix from its bytes, the status fields from the cache, of which only the timestamp is written; then
TX.ACK12. -/
def Obligations.LocBasicDecodesAndTouches : Prop :=
  ∀ (cid : Cid) (now : Time) (serial : U16) (s : State) (r : Session)
    (y mo d h mi se q a0 a1 a2 a3 o0 o1 o2 o3 sp c0 c1 : Byte) (rest : Bytes), s.session? cid = some r →
    let p := [y, mo, d, h, mi, se, q, a0, a1, a2, a3, o0, o1, o2, o3, sp, c0, c1] ++ rest
    ∃ t fix, exec (.rxLocBasic cid now p serial) s = .next t ∧ t.msg = some (.locBasic (some fix)) ∧
      fix.time = { year := 2000 + (10 * (y.toNat / 16) + y.toNat % 16), month := 10 * (mo.toNat / 16) + mo.toNat % 16
                   day := 10 * (d.toNat / 16) + d.toNat % 16, hour := 10 * (h.toNat / 16) + h.toNat % 16
                   minute := 10 * (mi.toNat / 16) + mi.toNat % 16, second := 10 * (se.toNat / 16) + se.toNat % 16 } ∧
      fix.sats.toNat = q.toNat % 16 ∧
      fix.lat.toRat = (if c0.getLsbD 2 then 1 else -1) * ((be4 a0 a1 a2 a3 : Nat) : Rat) / 1800000 ∧
      fix.lon.toRat = (if c0.getLsbD 3 then -1 else 1) * ((be4 o0 o1 o2 o3 : Nat) : Rat) / 1800000 ∧
      fix.speed = sp ∧ fix.course.toNat = c0.toNat % 4 * 256 + c1.toNat ∧ fix.fix = c0.getLsbD 4 ∧
      fix.ign = r.st.ign ∧ fix.relay = r.st.relay ∧ fix.alarm = r.st.alarm ∧ fix.chg = r.st.chg ∧
      fix.lowbatt = r.st.lowbatt ∧ fix.volt = r.st.volt ∧ fix.gsm = r.st.gsm ∧
      t.session? cid = some { r with st := { r.st with upd := some now } } ∧
      t.outs = s.outs ++ [.tx cid (ackFrame 0x12 serial)] ∧
      OnlySessions s t ∧ OtherSessionsKept cid s t ∧ BuffersKept s t ∧ t.pos = s.pos

/-- R178, R100, R101, R102, R232 (decisions D15, D16, D17): RX.LOC_EXT on a payload of at least 19 bytes: the cache is
refreshed from the terminal-info byte, voltage and GSM left as they were; the fix carries the cache as refreshed and
the ignition bit of its own course word; then TX.ACK22. -/
def Obligations.LocExtRefreshesThenReads : Prop :=
  ∀ (cid : Cid) (now : Time) (serial : U16) (s : State) (r : Session)
    (y mo d h mi se q ti a0 a1 a2 a3 o0 o1 o2 o3 sp c0 c1 : Byte) (rest : Bytes), s.session? cid = some r →
    let p := [y, mo, d, h, mi, se, q, ti, a0, a1, a2, a3, o0, o1, o2, o3, sp, c0, c1] ++ rest
    let alarm := alarmOfCode (ti.toNat / 8 % 8)
    let st : StatusCache :=
      { ign := some (ti.getLsbD 1), relay := some (ti.getLsbD 7), alarm := some alarm, chg := some (ti.getLsbD 2)
        lowbatt := some (lowBattFn s.cfg.lowBattFn alarm r.st.volt), volt := r.st.volt, gsm := r.st.gsm
        upd := some now }
    ∃ t fix, exec (.rxLocExt cid now p serial) s = .next t ∧
      t.msg = some (.locExt (some (fix, { relay := ti.getLsbD 7, gpsOn := ti.getLsbD 6, alarm := alarm
                                          chg := ti.getLsbD 2, ign := ti.getLsbD 1, armed := ti.getLsbD 0 }))) ∧
      fix.time = { year := 2000 + (10 * (y.toNat / 16) + y.toNat % 16), month := 10 * (mo.toNat / 16) + mo.toNat % 16
                   day := 10 * (d.toNat / 16) + d.toNat % 16, hour := 10 * (h.toNat / 16) + h.toNat % 16
                   minute := 10 * (mi.toNat / 16) + mi.toNat % 16, second := 10 * (se.toNat / 16) + se.toNat % 16 } ∧
      fix.sats.toNat = q.toNat % 16 ∧
      fix.lat.toRat = (if c0.getLsbD 3 then -1 else 1) * ((be4 a0 a1 a2 a3 : Nat) : Rat) / 1800000 ∧
      fix.lon.toRat = (if c0.getLsbD 2 then -1 else 1) * ((be4 o0 o1 o2 o3 : Nat) : Rat) / 1800000 ∧
      fix.speed = sp ∧ fix.course.toNat = c0.toNat % 4 * 256 + c1.toNat ∧ fix.fix = c1.getLsbD 4 ∧
      fix.ign = some (c1.getLsbD 5) ∧ fix.relay = st.relay ∧ fix.alarm = st.alarm ∧ fix.chg = st.chg ∧
      fix.lowbatt = st.lowbatt ∧ fix.volt = st.volt ∧ fix.gsm = st.gsm ∧
      t.session? cid = some { r with st := st } ∧
      t.outs = s.outs ++ [.tx cid (ackFrame 0x22 serial)] ∧
      OnlySessions s t ∧ OtherSessionsKept cid s t ∧ BuffersKept s t ∧ t.pos = s.pos

/-- R182, R308 (decisions D31, D32, D5): a failed field group (a login under 8 bytes, with a nibble 0xA to 0xE, or with
no digit left; a heartbeat under 4, a basic location under 18, an extended location under 19 payload bytes) leaves its
tag in the message, writes no session, and is acknowledged all the same. -/
def Obligations.PayloadFailureStillAcks : Prop :=
  ∀ (cid : Cid) (now : Time) (p : Bytes) (serial : U16) (s : State) (r : Session), s.session? cid = some r →
    (LoginFails p → ∃ t, exec (.rxLogin cid now p serial) s = .next t ∧ t.msg = some (.login none) ∧
      t.sess = s.sess ∧ t.outs = s.outs ++ [.tx cid (ackFrame 0x01 serial)] ∧ OnlySessions s t) ∧
    (p.length < 4 → ∃ t, exec (.rxHeartbeat cid now p serial) s = .next t ∧ t.msg = some (.heartbeat none) ∧
      t.sess = s.sess ∧ t.outs = s.outs ++ [.tx cid (ackFrame 0x13 serial)] ∧ OnlySessions s t) ∧
    (p.length < 18 → ∃ t, exec (.rxLocBasic cid now p serial) s = .next t ∧ t.msg = some (.locBasic none) ∧
      t.sess = s.sess ∧ t.outs = s.outs ++ [.tx cid (ackFrame 0x12 serial)] ∧ OnlySessions s t) ∧
    (p.length < 19 → ∃ t, exec (.rxLocExt cid now p serial) s = .next t ∧ t.msg = some (.locExt none) ∧
      t.sess = s.sess ∧ t.outs = s.outs ++ [.tx cid (ackFrame 0x22 serial)] ∧ OnlySessions s t)

/-- R179, R180: a command response under either protocol-id decodes to its text with the control characters removed
(which bytes those are is D21), does what C.CONFIRM does with that text, and sends no acknowledgement. -/
def Obligations.CommandResponseConfirmsByText : Prop :=
  ∀ (cid : Cid) (now : Time) (p : Bytes) (serial : U16) (s : State) (r : Session), s.session? cid = some r →
    ∃ t u text, exec (.rxCmdResp21 cid now p serial) s = .next t ∧ exec (.rxCmdResp15 cid now p serial) s = .next t ∧
      text = p.filter (fun b => 0x20 ≤ b.toNat && b ≠ 0x7F) ∧ t.msg = some (.cmdResp text) ∧
      exec (.cConfirm cid text now) s = .next u ∧ t = { u with msg := t.msg } ∧
      ∀ o, o ∈ t.outs → o ∈ s.outs ∨ ∀ c b, o ≠ .tx c b

/-- R181: RX.UNKNOWN decodes to the `Unknown` variant, with no acknowledgement and no state change. -/
def Obligations.UnknownMessageHasNoEffect : Prop :=
  ∀ (cid : Cid) (now : Time) (b : Byte) (p : Bytes) (serial : U16) (s : State) (r : Session), s.session? cid = some r →
    ∃ t, exec (.rxUnknown cid now b p serial) s = .next t ∧ t.msg = some .unknown ∧ OnlyTransient s t ∧
      t.crcR = s.crcR ∧ t.pos = s.pos

/-- R112 (minimum payloads: D31, D15): payload bytes after the last field of formats L, H, B and X are not looked
at. -/
def Obligations.TrailingPayloadBytesIgnored : Prop :=
  ∀ (cid : Cid) (now : Time) (p x : Bytes) (serial : U16) (s : State),
    (p.length = 8 → exec (.rxLogin cid now (p ++ x) serial) s = exec (.rxLogin cid now p serial) s) ∧
    (p.length = 4 → exec (.rxHeartbeat cid now (p ++ x) serial) s = exec (.rxHeartbeat cid now p serial) s) ∧
    (p.length = 18 → exec (.rxLocBasic cid now (p ++ x) serial) s = exec (.rxLocBasic cid now p serial) s) ∧
    (p.length = 19 → exec (.rxLocExt cid now (p ++ x) serial) s = exec (.rxLocExt cid now p serial) s)

/-! ### The Protocol Codec, encode side -/

/-- R210 to R214: the five acknowledgement operations return the 10 bytes `78 78 05 pp sh sl ch cl 0d 0a`, the checksum
over `05 pp sh sl`, and write no state but the transient registers. -/
def Obligations.AckFramesAreExact : Prop :=
  ∀ (serial : U16) (s : State) (i : Instr) (pp : Byte),
    (i, pp) ∈ [(.txAck01 serial, 0x01), (.txAck13 serial, 0x13), (.txAck12 serial, 0x12), (.txAck22 serial, 0x22),
      (.txAck .p01 serial, 0x01), (.txAck .p13 serial, 0x13), (.txAck .p12 serial, 0x12), (.txAck .p22 serial, 0x22)] →
    ∃ t, exec i s = .next t ∧ t.result = .frame (ackFrame pp serial) ∧ OnlyTransient s t ∧
      t.pos = s.pos ∧ t.msg = s.msg

/-- R216: TX.CMD of a text of `n <= 245` bytes returns the `15 + n` bytes of format C, the checksum over everything
from the length byte through the serial number. -/
def Obligations.CommandFrameLayout : Prop :=
  ∀ (text : Bytes) (serial : U16) (s : State), text.length ≤ 245 →
    ∃ t, exec (.txCmd text serial) s = .next t ∧ t.result = .frame (cmdFrame text serial) ∧
      (cmdFrame text serial).length = 15 + text.length ∧ OnlyTransient s t ∧ t.pos = s.pos ∧ t.msg = s.msg

/-- R217, R312 (decision D38; the raised condition stands in `result`, log entry 10): a longer text raises E_CMDLEN and
nothing is built. -/
def Obligations.LongCommandTextRaises : Prop :=
  ∀ (text : Bytes) (serial : U16) (s : State), 245 < text.length →
    exec (.txCmd text serial) s = .next { s with result := .raised .eCmdLen }

/-- `95_test_vectors.md` section 6 (derived): every outbound frame, read back by the block's own decoder, passes
DEC.CHECK under either setting and dispatches: an acknowledgement to the message it acknowledges, with an empty
payload and its serial; a command frame to RX.UNKNOWN. -/
def Obligations.OwnFramesReadBack : Prop :=
  ∀ (v : Bool) (cid : Cid) (now : Time) (serial : U16) (text : Bytes),
    decodeSpan v cid now (ackFrame 0x01 serial) = .ok (.rxLogin cid now [] serial) ∧
    decodeSpan v cid now (ackFrame 0x13 serial) = .ok (.rxHeartbeat cid now [] serial) ∧
    decodeSpan v cid now (ackFrame 0x12 serial) = .ok (.rxLocBasic cid now [] serial) ∧
    decodeSpan v cid now (ackFrame 0x22 serial) = .ok (.rxLocExt cid now [] serial) ∧
    (text.length ≤ 245 → ∃ p, decodeSpan v cid now (cmdFrame text serial) = .ok (.rxUnknown cid now 0x80 p serial) ∧
      p = BitVec.ofNat 8 (4 + text.length) :: 0x00 :: 0x00 :: 0x00 :: 0x00 :: text)

/-! ### The Device Session register file -/

/-- R230, R281 (initial cache `none`: D12): S.CONNECT and EV_CONNECT create the one session and its empty buffer, and
touch no other session, buffer, pending record or deferred action. EV_CONNECT needs room below MAX_CONN (R296). -/
def Obligations.ConnectCreatesFreshSession : Prop :=
  ∀ (cid : Cid) (peer : Peer) (s : State) (i : Instr), s.session? cid = none →
    (i = .sConnect cid peer ∨ i = .evConnect cid peer ∧ ∀ n, s.cfg.maxConn = some n → s.sess.length < n) →
    ∃ t, exec i s = .next t ∧
      t.session? cid = some { cid := cid, peer := peer, imei := none
                              st := { ign := none, relay := none, alarm := none, chg := none, lowbatt := none
                                      volt := none, gsm := none, upd := none }
                              seq := 1 } ∧
      t.rxbuf? cid = some [] ∧ OtherSessionsKept cid s t ∧ (∀ c, c ≠ cid → t.rxbuf? c = s.rxbuf? c) ∧
      t.pend = s.pend ∧ t.deferred = s.deferred ∧ t.outs = s.outs ∧ t.cfg = s.cfg ∧ t.choice = s.choice ∧
      t.inbox = s.inbox ∧ t.crcR = s.crcR ∧ t.pos = s.pos ∧ t.msg = s.msg

/-- R236, R282: S.DISCONNECT and EV_DISCONNECT remove the session and its buffer; `PEND` and `DEFER` are not touched,
no frame is sent, other connections stay. -/
def Obligations.DisconnectDestroysOneSession : Prop :=
  ∀ (cid : Cid) (s : State) (r : Session) (i : Instr), s.session? cid = some r →
    (i = .sDisconnect cid ∨ i = .evDisconnect cid) →
    ∃ t, exec i s = .next t ∧ t.session? cid = none ∧ t.rxbuf? cid = none ∧
      OtherSessionsKept cid s t ∧ (∀ c, c ≠ cid → t.rxbuf? c = s.rxbuf? c) ∧
      t.pend = s.pend ∧ t.deferred = s.deferred ∧ t.outs = s.outs ∧ t.cfg = s.cfg ∧ t.choice = s.choice ∧
      t.inbox = s.inbox ∧ t.crcR = s.crcR ∧ t.pos = s.pos ∧ t.msg = s.msg

/-- R231, R233: S.LOGIN writes the identity and nothing else; S.TOUCH writes the freshness timestamp and nothing
else. -/
def Obligations.LoginAndTouchWriteOneField : Prop :=
  ∀ (cid : Cid) (d : Digits) (now : Time) (s : State) (r : Session), s.session? cid = some r →
    (∃ t, exec (.sLogin cid d) s = .next t ∧ t.session? cid = some { r with imei := some d } ∧
      OtherSessionsKept cid s t ∧ OnlySessions s t ∧ t.outs = s.outs ∧ t.crcR = s.crcR ∧ t.pos = s.pos ∧
      t.msg = s.msg) ∧
    (∃ t, exec (.sTouch cid now) s = .next t ∧ t.session? cid = some { r with st := { r.st with upd := some now } } ∧
      OtherSessionsKept cid s t ∧ OnlySessions s t ∧ t.outs = s.outs ∧ t.crcR = s.crcR ∧ t.pos = s.pos ∧
      t.msg = s.msg)

/-- R232: S.REFRESH writes six cache fields always, voltage and GSM only when given, and computes the low-battery flag
from the alarm class and the voltage as just updated (R237). -/
def Obligations.RefreshKeepsAbsentFields : Prop :=
  ∀ (cid : Cid) (u : StatusUpdate) (now : Time) (s : State) (r : Session), s.session? cid = some r →
    ∃ t st, exec (.sRefresh cid u now) s = .next t ∧ t.session? cid = some { r with st := st } ∧
      st.ign = some u.ign ∧ st.relay = some u.relay ∧ st.alarm = some u.alarm ∧ st.chg = some u.chg ∧
      (∀ v, u.volt = some v → st.volt = some v) ∧ (u.volt = none → st.volt = r.st.volt) ∧
      (∀ g, u.gsm = some g → st.gsm = some g) ∧ (u.gsm = none → st.gsm = r.st.gsm) ∧
      st.lowbatt = some (lowBattFn s.cfg.lowBattFn u.alarm st.volt) ∧ st.upd = some now ∧
      OtherSessionsKept cid s t ∧ OnlySessions s t ∧ t.outs = s.outs ∧ t.crcR = s.crcR ∧ t.pos = s.pos ∧
      t.msg = s.msg

/-- R234: S.STATUS returns a copy of the eight Options and writes no state. -/
def Obligations.StatusReturnsCopy : Prop :=
  ∀ (cid : Cid) (s : State) (r : Session), s.session? cid = some r →
    ∃ c, exec (.sStatus cid) s = .next { s with result := .snapshot c } ∧
      c.ign = r.st.ign ∧ c.relay = r.st.relay ∧ c.alarm = r.st.alarm ∧ c.chg = r.st.chg ∧
      c.lowbatt = r.st.lowbatt ∧ c.volt = r.st.volt ∧ c.gsm = r.st.gsm ∧ c.upd = r.st.upd

/-- R235 (the counter holds the next serial: D27): S.NEXTSERIAL returns the counter, then advances it modulo 0x10000
with 0 remapped to 1. -/
def Obligations.NextSerialReturnsThenAdvances : Prop :=
  ∀ (cid : Cid) (s : State) (r : Session), s.session? cid = some r →
    ∃ t q, exec (.sNextSerial cid) s = .next t ∧ t.result = .word r.seq ∧ t.session? cid = some { r with seq := q } ∧
      q.toNat = (if (r.seq.toNat + 1) % 65536 = 0 then 1 else (r.seq.toNat + 1) % 65536) ∧
      OtherSessionsKept cid s t ∧ OnlySessions s t ∧ t.outs = s.outs ∧ t.crcR = s.crcR ∧ t.pos = s.pos ∧
      t.msg = s.msg

/-- R235 (D27): on a connection whose counter is 1, the `k`-th serial number issued (from 0) is `1 + k mod 65535`: the
cycle 1, 2, ..., 0xFFFF, 1, ... without 0. -/
def Obligations.SerialsCycleWithoutZero : Prop :=
  ∀ (cid : Cid) (s : State) (r : Session) (k : Nat), s.session? cid = some r → r.seq = 1 →
    ∃ t, execAll (List.replicate (k + 1) (.sNextSerial cid)) s = .next t ∧
      t.result = .word (BitVec.ofNat 16 (1 + k % 65535))

/-! ### The Command Dispatcher -/

/-- R255, R263 (which of several sessions: free, D23, log entry 8; room below MAX_PEND: R296, D11): a request in any
of its forms, for a device some session holds, sends one command frame on one such session with that session's next
serial, creates or replaces the record of that identity, and changes nothing else.  The tables stand in canonical
form, an invariant stated in `StepKeepsInvariant`. -/
def Obligations.RequestSendsAndRecords : Prop :=
  ∀ (i : Instr) (id : Digits) (k : CmdKind) (ref : Option Ref) (now : Time) (s : State) (c0 : Cid) (r0 : Session),
    RequestForm i id k ref now → s.Canonical → s.session? c0 = some r0 → r0.imei = some id →
    (∀ n, s.cfg.maxPend = some n → s.pend? id = none → s.pend.length < n) →
    ∃ (t : State) (cid : Cid) (r : Session), exec i s = .next t ∧ s.session? cid = some r ∧ r.imei = some id ∧
      t.outs = s.outs ++ [.tx cid (cmdFrame
        (match k with
          | .lock => [0x52, 0x65, 0x6C, 0x61, 0x79, 0x2C, 0x31, 0x23]
          | _ => [0x52, 0x65, 0x6C, 0x61, 0x79, 0x2C, 0x30, 0x23]) r.seq)] ∧
      t.pend? id = some { kind := k, ref := ref, sent := now } ∧ OtherPendingKept id s t ∧
      t.session? cid = some { r with seq := if r.seq = 0xFFFF then 1 else r.seq + 1 } ∧ OtherSessionsKept cid s t ∧
      t.rxbuf = s.rxbuf ∧ t.deferred = s.deferred ∧ t.cfg = s.cfg ∧ t.inbox = s.inbox ∧ t.pos = s.pos ∧ t.msg = s.msg ∧
      t.result = .outcome .done

/-- R256 (decision D22): a request for an identity no session holds is rejected E_NOTCONN: one OUT_REJECT, no frame, no
serial number consumed, `PEND` unchanged. -/
def Obligations.RequestNotConnectedRejected : Prop :=
  ∀ (i : Instr) (id : Digits) (k : CmdKind) (ref : Option Ref) (now : Time) (s : State),
    RequestForm i id k ref now → (∀ c r, (c, r) ∈ s.sess → r.imei ≠ some id) →
    exec i s = .next { s with outs := s.outs ++ [.reject ref .eNotConn], result := .outcome (.rejected .eNotConn) }

/-- R310: a token that is none of the three is rejected E_BADREQ synchronously, before any state is written, whether or
not the device is connected. -/
def Obligations.UnknownTokenRejected : Prop :=
  ∀ (id : Digits) (token : Bytes) (ref : Ref) (now : Time) (s : State),
    token ≠ [0x42, 0x4C, 0x4F, 0x51, 0x55, 0x45, 0x41, 0x52] → token ≠ [0x4C, 0x49, 0x42, 0x45, 0x52, 0x41, 0x52] →
    token ≠ [0x42, 0x41, 0x54, 0x45, 0x52, 0x49, 0x41] →
    exec (.evCmd id token ref now) s =
      .next { s with outs := s.outs ++ [.reject (some ref) .eBadReq], result := .outcome (.rejected .eBadReq) }

/-- R251, R252, R253: the three host requests are C.REQUEST with kind LOCK, UNLOCK, BATTERY_CHECK and the request's
reference, and EV_CMD with the token is the same operation. -/
def Obligations.TokensSelectRequests : Prop :=
  ∀ (id : Digits) (ref : Ref) (now : Time) (s : State),
    exec (.cmdBloquear id ref now) s = exec (.cRequest id .lock (some ref) now) s ∧
    exec (.cmdLiberar id ref now) s = exec (.cRequest id .unlock (some ref) now) s ∧
    exec (.cmdBateria id ref now) s = exec (.cRequest id .batteryCheck (some ref) now) s ∧
    exec (.evCmd id [0x42, 0x4C, 0x4F, 0x51, 0x55, 0x45, 0x41, 0x52] ref now) s = exec (.cmdBloquear id ref now) s ∧
    exec (.evCmd id [0x4C, 0x49, 0x42, 0x45, 0x52, 0x41, 0x52] ref now) s = exec (.cmdLiberar id ref now) s ∧
    exec (.evCmd id [0x42, 0x41, 0x54, 0x45, 0x52, 0x49, 0x41] ref now) s = exec (.cmdBateria id ref now) s

/-- R260, R286 (decisions D25, D26): C.FIRE and EV_TIMER take one scheduled entry of `DEFER` and request a LOCK with no
reference, as if freshly: sent with the session's next serial and recorded where a session holds the identity (and
`PEND` has room, R296), rejected E_NOTCONN and not rescheduled where none does; nothing else changes.  The tables stand
in canonical form, an invariant stated in `StepKeepsInvariant`. -/
def Obligations.TimerFiresFollowUpLock : Prop :=
  ∀ (i : Instr) (id : Digits) (now : Time) (s : State), (i = .cFire id now ∨ i = .evTimer id now) →
    (id, CmdKind.lock) ∈ s.deferred → s.Canonical →
    ((∀ c r, (c, r) ∈ s.sess → r.imei ≠ some id) →
      ∃ t, exec i s = .next t ∧ t.outs = s.outs ++ [.reject none .eNotConn] ∧ t.pend = s.pend ∧ t.sess = s.sess ∧
        t.deferred = s.deferred.erase (id, .lock) ∧ t.rxbuf = s.rxbuf ∧ t.cfg = s.cfg ∧ t.choice = s.choice ∧
        t.inbox = s.inbox ∧ t.crcR = s.crcR ∧ t.pos = s.pos ∧ t.msg = s.msg ∧
        t.result = .outcome (.rejected .eNotConn)) ∧
    (∀ c0 r0, s.session? c0 = some r0 → r0.imei = some id →
      (∀ n, s.cfg.maxPend = some n → s.pend? id = none → s.pend.length < n) →
      ∃ t cid r, exec i s = .next t ∧ s.session? cid = some r ∧ r.imei = some id ∧
        t.outs = s.outs ++ [.tx cid (cmdFrame [0x52, 0x65, 0x6C, 0x61, 0x79, 0x2C, 0x31, 0x23] r.seq)] ∧
        t.pend? id = some { kind := .lock, ref := none, sent := now } ∧ OtherPendingKept id s t ∧
        t.session? cid = some { r with seq := if r.seq = 0xFFFF then 1 else r.seq + 1 } ∧
        OtherSessionsKept cid s t ∧ t.deferred = s.deferred.erase (id, .lock) ∧ t.rxbuf = s.rxbuf ∧ t.cfg = s.cfg ∧
        t.inbox = s.inbox ∧ t.pos = s.pos ∧ t.msg = s.msg ∧ t.result = .outcome .done)

/-- R257, R259 (decisions D25, D26): a confirming text on a connection whose identity has a pending record removes the
record, reports its reference if it has one, and, when the kind was BATTERY_CHECK, adds one `(id, LOCK)` to `DEFER` and
asks the timer facility; nothing else changes. -/
def Obligations.ConfirmationClearsRecord : Prop :=
  ∀ (cid : Cid) (text : Bytes) (now : Time) (s : State) (r : Session) (id : Digits) (p : PendRec),
    s.session? cid = some r → r.imei = some id → s.pend? id = some p → confirms text = true →
    ∃ t, exec (.cConfirm cid text now) s = .next t ∧ t.pend? id = none ∧ OtherPendingKept id s t ∧
      t.outs = s.outs ++ (match p.ref with | some ref => [.done ref] | none => [])
        ++ (if p.kind = .batteryCheck then [.sched id s.cfg.autoLockDelay] else []) ∧
      (∀ e, t.deferred.count e = s.deferred.count e + (if p.kind = .batteryCheck ∧ e = (id, .lock) then 1 else 0)) ∧
      t.sess = s.sess ∧ t.rxbuf = s.rxbuf ∧ t.cfg = s.cfg ∧ t.choice = s.choice ∧ t.inbox = s.inbox ∧
      t.crcR = s.crcR ∧ t.pos = s.pos ∧ t.msg = s.msg

/-- R258: a response that does not confirm, or on a connection without identity, or whose identity has no pending
record, leaves the machine where it is. -/
def Obligations.NoConfirmationNoTransition : Prop :=
  ∀ (cid : Cid) (text : Bytes) (now : Time) (s : State) (r : Session), s.session? cid = some r →
    (confirms text = false ∨ r.imei = none ∨ ∃ id, r.imei = some id ∧ s.pend? id = none) →
    exec (.cConfirm cid text now) s = .next { s with result := .nothing }

/-- R105, R355 (ASCII case folding: D21): a text confirms exactly when, in lower case, it contains "success" or "ok" as
a contiguous sub-sequence. -/
def Obligations.ConfirmsIsASubstringTest : Prop :=
  ∀ text : Bytes, confirms text = true ↔
    ∃ a b w, (w = [0x73, 0x75, 0x63, 0x63, 0x65, 0x73, 0x73] ∨ w = [0x6F, 0x6B]) ∧
      text.map (fun c => if 0x41 ≤ c.toNat ∧ c.toNat ≤ 0x5A then BitVec.ofNat 8 (c.toNat + 32) else c) = a ++ w ++ b

/-! ### Events, routing and steps -/

/-- R283: EV_RX appends, scans, runs PROCESS on the frames in order, and keeps what was not consumed; no other buffer
changes. Where RX_BUF_CAP is finite the buffer fits (R296, D10). -/
def Obligations.DeliveryProcessesFramesInOrder : Prop :=
  ∀ (cid : Cid) (data : Bytes) (now : Time) (s : State) (r : Session), s.session? cid = some r →
    (∀ n, s.cfg.rxBufCap = some n → (s.rxOf cid ++ data).length ≤ n) →
    ∃ t u fs n, exec (.evRx cid data now) s = .next t ∧ Scans (s.rxOf cid ++ data) 0 fs n ∧
      execAll (fs.map (fun f => .process cid f now)) { s with pos := n } = .next u ∧
      t.rxOf cid = (s.rxOf cid ++ data).drop n ∧ (∀ c a, c ≠ cid → t.rxByte c a = s.rxByte c a) ∧
      t.sess = u.sess ∧ t.pend = u.pend ∧ t.deferred = u.deferred ∧ t.outs = u.outs ∧ t.cfg = u.cfg ∧
      t.choice = u.choice ∧ t.inbox = u.inbox ∧ t.crcR = u.crcR ∧ t.pos = u.pos ∧ t.msg = u.msg

/-- R284 (order of outputs and the record's identity: D36): a step that takes a span which decodes to `i` executes `i`
(after DEC.CHECK, which may move `CRC.R`), then appends the log record, which reads the identity after the frame's
effects; the outcome is ACCEPTED. -/
def Obligations.SpanStepRunsDecodedInstruction : Prop :=
  ∀ (cid : Cid) (f : Bytes) (now : Time) (i : Instr) (rest : List Input) (s : State) (r : Session),
    s.inbox = .span cid f now :: rest → s.session? cid = some r →
    decodeSpan s.cfg.verifyRxCrc cid now f = .ok i →
    ∃ t m, exec i ({ s with inbox := rest }.afterCheck f) = .next t ∧ t.msg = some m ∧
      step s = exec (.process cid f now) { s with inbox := rest } ∧
      step s = .next { t with
        outs := t.outs ++ [.log { imei := t.imeiOf cid, proto := some (headerOf f).proto
                                  serial := some (headerOf f).serial, raw := f, decoded := .message m }]
        result := .outcome .accepted }

/-- R284, R300, R316 (log record of a dropped frame: D39, D43): a span DEC.CHECK rejects has no effect but one log
record with its raw bytes and no header fields; the outcome is DROPPED. -/
def Obligations.DroppedFrameHasNoEffect : Prop :=
  ∀ (cid : Cid) (f : Bytes) (now : Time) (e : Cond) (s : State) (r : Session), s.session? cid = some r →
    checkFrame s.cfg.verifyRxCrc f = some e →
    ∃ t, exec (.process cid f now) s = .next t ∧ t = { s with
      crcR := t.crcR
      outs := s.outs ++ [.log { imei := r.imei, proto := none, serial := none, raw := f, decoded := .dropped e }]
      result := .outcome (.dropped e) }

/-- R280, R291, R327 (the waiting inputs, `Input.build` and the reading of outbound bytes are the model's own, log
entries 2, 3 and 15): a step executes the operation of the input that waits longest: an event its operation, a span
PROCESS, whether or not it decodes, bytes of an outbound form that decode to `i` execute `i`; with nothing waiting the
block stays as it is. -/
def Obligations.StepTakesOldestInput : Prop :=
  (∀ s : State, s.inbox = [] → step s = .next s) ∧
  (∀ (s : State) (e : Event) (rest : List Input), s.inbox = .event e :: rest →
    step s = exec e.instr { s with inbox := rest }) ∧
  (∀ (s : State) (cid : Cid) (f : Bytes) (now : Time) (rest : List Input), s.inbox = .span cid f now :: rest →
    step s = exec (.process cid f now) { s with inbox := rest }) ∧
  (∀ (s : State) (f : Bytes) (i : Instr) (rest : List Input), s.inbox = .build f :: rest → decodeOutbound f = .ok i →
    step s = exec i { s with inbox := rest })

/-- R107, R108, R114: words written out from the encodings of the opcode table decode to the operations they stand for
(which row a word stands for, and the bytes after it, are log entry 14; that an outbound frame is read back at all is the
model's choice, log entry 15). -/
def Obligations.TableWordsDecode : Prop :=
  decodeSpan true ⟨7⟩ ⟨1⟩ [0x78, 0x78, 0x09, 0x13, 0x46, 0x06, 0x04, 0x01, 0x00, 0x02, 0x18, 0x46, 0x0D, 0x0A]
    = .ok (.rxHeartbeat ⟨7⟩ ⟨1⟩ [0x46, 0x06, 0x04, 0x01] 2) ∧
  decodeSpan true ⟨7⟩ ⟨1⟩ [0x78, 0x78, 0x05, 0x99, 0x00, 0x01, 0x96, 0x67, 0x0D, 0x0A]
    = .ok (.rxUnknown ⟨7⟩ ⟨1⟩ 0x99 [] 1) ∧
  decodeOutbound [0x78, 0x78, 0x05, 0x12, 0x00, 0x50, 0xF0, 0x21, 0x0D, 0x0A] = .ok (.txAck12 0x50) ∧
  decodeToken [0x31] ⟨3⟩ ⟨1⟩ [0x4C, 0x49, 0x42, 0x45, 0x52, 0x41, 0x52] = .ok (.cmdLiberar [0x31] ⟨3⟩ ⟨1⟩) ∧
  decodeTableWord 32 0x78780001 = some (.rxLogin ⟨0⟩ ⟨0⟩ [] 0) ∧
  decodeTableWord 64 0x424C4F5155454152 = some (.cmdBloquear [0x31] ⟨0⟩ ⟨0⟩)

/-- R90, R91, R97, R106, R107, R114: decoding the encoding of any well-formed operation that has one gives it back,
every operand at every value the encoding admits, under either setting of VERIFY_RX_CRC.  For TX.* the rules give the
bytes (R97) but no decoder: R108 has outbound frames selected "not by a decoder".  The one that reads them back here,
`decodeOutbound`, is the model's own choice, log entry 15. -/
def Obligations.DecodeOfEncode : Prop :=
  ∀ (i : Instr) (v : Bool) (c : Code), i.wf = true → encode i = some c → decode v c = .ok i

/-- R90, R107, R174, R217: whatever bytes it is given, the decoder either rejects by name or answers a well-formed
operation that has an encoding.  In the outbound direction it speaks of the model's own decoder, `decodeOutbound`: the
spec has none (R108), log entry 15. -/
def Obligations.DecodedIsWellFormed : Prop :=
  ∀ (v : Bool) (c : Code) (i : Instr), decode v c = .ok i → i.wf = true ∧ i.encodable = true

/-! ### Reset, invariants and rules of the whole machine -/

/-- R340, R41 (decision D30): after reset, under every configuration, the four tables are empty, every identity is Idle,
and there is no output. -/
def Obligations.ResetIsEmpty : Prop :=
  ∀ cfg : Config.Params, (State.resetWith cfg).sess = [] ∧ (State.resetWith cfg).rxbuf = [] ∧
    (State.resetWith cfg).deferred = [] ∧ (∀ id, (State.resetWith cfg).pend? id = none) ∧
    (∀ cid, (State.resetWith cfg).session? cid = none) ∧ (State.resetWith cfg).outs = [] ∧
    (State.resetWith cfg).cfg = cfg

/-- R20, R340: the state after reset meets the invariant, under every configuration. -/
def Obligations.ResetMeetsInvariant : Prop := ∀ cfg : Config.Params, (State.resetWith cfg).Inv

/-- R20, R22, R26, R34, R36, R261, R283, R296: a step keeps the invariant, from every state that meets it: tables in
canonical form with at most one record per key, `SESS` and `RXBUF` with the same keys, serial counters in 1..0xFFFF,
identities in R12's form, only LOCK deferred, capacities kept, no complete frame left in a buffer. -/
def Obligations.StepKeepsInvariant : Prop := ∀ s t : State, s.Inv → step s = .next t → t.Inv

/-- R37: no operation, so no wire message and no host request, changes the configuration. -/
def Obligations.ConfigurationNeverChanges : Prop := ∀ (i : Instr) (s t : State), exec i s = .next t → t.cfg = s.cfg

/-- R60 (3), R76, R288 (that `outs` keeps them all is log entry 4): outputs are only ever appended, so the frames of a
connection's transmit stream are only ever appended to. -/
def Obligations.OutputsOnlyGrow : Prop :=
  ∀ (i : Instr) (s t : State), exec i s = .next t →
    (∃ o, t.outs = s.outs ++ o) ∧ ∀ cid, ∃ fs, t.txFrames cid = s.txFrames cid ++ fs

/-- R321: what a device's bytes can do. They cannot touch another connection's session or buffer, send on another
connection, create or change a pending record (only remove one), or change the configuration. -/
def Obligations.DeviceCannotReachOthers : Prop :=
  ∀ (cid : Cid) (i : Instr) (s t : State), DeviceOp cid i → exec i s = .next t →
    OtherSessionsKept cid s t ∧ (∀ c a, c ≠ cid → t.rxByte c a = s.rxByte c a) ∧
    (∃ o, t.outs = s.outs ++ o ∧ ∀ c b, Output.tx c b ∈ o → c = cid) ∧
    (∀ id, t.pend? id = s.pend? id ∨ t.pend? id = none) ∧ t.cfg = s.cfg

/-- R258, R358: a pending record goes only by a confirming command response on a connection that holds its identity: if
an operation removes one, it is C.CONFIRM or a command response with a confirming text, PROCESS of a confirming span, or
an EV_RX one of whose frames is a confirming span, the identity read and the record still there after the frames before
it. -/
def Obligations.PendingRemovedOnlyByResponse : Prop :=
  ∀ (i : Instr) (s t : State) (id : Digits), exec i s = .next t → s.pend? id ≠ none → t.pend? id = none →
    ∃ cid, (∃ text now, i = .cConfirm cid text now ∧ confirms text = true ∧ s.imeiOf cid = some id) ∨
      (∃ p now n, (i = .rxCmdResp21 cid now p n ∨ i = .rxCmdResp15 cid now p n) ∧ confirms (textOf p) = true ∧
        s.imeiOf cid = some id) ∨
      (∃ f now, i = .process cid f now ∧ ConfirmingSpan s.cfg.verifyRxCrc f ∧ s.imeiOf cid = some id) ∨
      (∃ data now fs n f gs u, i = .evRx cid data now ∧ Scans (s.rxOf cid ++ data) 0 (fs ++ f :: gs) n ∧
        execAll (fs.map (fun g => .process cid g now)) { s with pos := n } = .next u ∧
        ConfirmingSpan s.cfg.verifyRxCrc f ∧ u.imeiOf cid = some id ∧ u.pend? id = s.pend? id)

/-- R324, R320: a delivery's outputs and effects depend on nothing of the other connections: from two states that agree
on the session and buffer of `cid`, the shared tables and the configuration, the same delivery makes the same outputs
and leaves the two states agreeing again. -/
def Obligations.DeliveryIndependentOfOthers : Prop :=
  ∀ (cid : Cid) (data : Bytes) (now : Time) (s t : State) (r : Session), s.session? cid = some r →
    (∀ n, s.cfg.rxBufCap = some n → (s.rxOf cid ++ data).length ≤ n) → SameFor cid s t →
    ∃ s' t' o, exec (.evRx cid data now) s = .next s' ∧ exec (.evRx cid data now) t = .next t' ∧
      s'.outs = s.outs ++ o ∧ t'.outs = t.outs ++ o ∧ SameFor cid s' t'

/-- R296 (decisions D40, D10, D11), R173: the inputs the host must never raise get no step, each refused by name. -/
def Obligations.HostDutiesRefused : Prop :=
  (∀ (cid : Cid) (i : Instr) (s : State), ConnectionOp cid i → s.session? cid = none →
    exec i s = .refused .unknownConnection) ∧
  (∀ (cid : Cid) (peer : Peer) (s : State) (r : Session), s.session? cid = some r →
    exec (.sConnect cid peer) s = .refused .connectionInUse ∧
    exec (.evConnect cid peer) s = .refused .connectionInUse) ∧
  (∀ (id : Digits) (now : Time) (s : State), (id, CmdKind.lock) ∉ s.deferred →
    exec (.cFire id now) s = .refused .nothingScheduled ∧ exec (.evTimer id now) s = .refused .nothingScheduled) ∧
  (∀ (cid : Cid) (peer : Peer) (s : State) (n : Nat), s.session? cid = none → s.cfg.maxConn = some n →
    n ≤ s.sess.length → exec (.evConnect cid peer) s = .refused .connectionsFull) ∧
  (∀ (cid : Cid) (data : Bytes) (now : Time) (s : State) (r : Session) (n : Nat), s.session? cid = some r →
    s.cfg.rxBufCap = some n → n < (s.rxOf cid ++ data).length →
    exec (.evRx cid data now) s = .refused .rxBufferFull) ∧
  (∀ (i : Instr) (id : Digits) (k : CmdKind) (ref : Option Ref) (now : Time) (s : State) (c : Cid) (r : Session)
    (n : Nat), RequestForm i id k ref now → (c, r) ∈ s.sess → r.imei = some id → s.pend? id = none →
    s.cfg.maxPend = some n → n ≤ s.pend.length → exec i s = .refused .pendFull) ∧
  (∀ (i : Instr) (id : Digits) (now : Time) (s : State) (c : Cid) (r : Session) (n : Nat),
    (i = .cFire id now ∨ i = .evTimer id now) → (id, CmdKind.lock) ∈ s.deferred → (c, r) ∈ s.sess →
    r.imei = some id → s.pend? id = none → s.cfg.maxPend = some n → n ≤ s.pend.length →
    exec i s = .refused .pendFull) ∧
  (∀ (f : Bytes) (s : State), checkFrame s.cfg.verifyRxCrc f ≠ none →
    exec (.decHeader f) s = .refused .headerUndefined)

/-- R237 (default instance: D13; that `State.reset` carries it is log entry 5): under the default LOW_BATT_FN a refresh
sets the low-battery flag exactly when the alarm class is LOW_BATT, whatever the voltage. -/
def Obligations.DefaultLowBatteryFlag : Prop :=
  ∀ (cid : Cid) (u : StatusUpdate) (now : Time) (s : State) (r : Session), s.session? cid = some r →
    s.cfg.lowBattFn = State.reset.cfg.lowBattFn →
    ∃ t st, exec (.sRefresh cid u now) s = .next t ∧ t.session? cid = some { r with st := st } ∧
      st.lowbatt = some (decide (u.alarm = .lowBatt))
end

