-- ==== Sys2Proof/Laws/Bytes.lean ====
section
/-!
SUPPORT. The laws of byte sequences: `find` is the least index at which the pattern stands (R10), a big-endian word is
its two bytes (R62), and what a slice of a concatenation is.
-/

namespace Sys2Proof.Machine

/-! ### Slices -/

@[simp] theorem slice_nil (i j : Nat) : slice [] i j = [] := by simp [slice]

theorem length_slice (b : Bytes) (i j : Nat) : (slice b i j).length = min (j - i) (b.length - i) := by
  simp [slice]

/-- A slice that ends within the first part does not see the second. -/
theorem slice_append_left {a b : Bytes} {i j : Nat} (h : j ≤ a.length) : slice (a ++ b) i j = slice a i j := by
  by_cases hij : i ≤ j
  · have : i ≤ a.length := by omega
    rw [slice, slice, List.drop_append_of_le_length this, List.take_append_of_le_length]
    simp; omega
  · simp [slice, show j - i = 0 by omega]

/-- A slice that begins within the second part does not see the first. -/
theorem slice_append_right {a b : Bytes} {i j : Nat} (h : a.length ≤ i) :
    slice (a ++ b) i j = slice b (i - a.length) (j - a.length) := by
  rw [slice, slice, List.drop_append, List.drop_eq_nil_of_le h, List.nil_append]
  congr 1
  omega

theorem slice_full (b : Bytes) : slice b 0 b.length = b := by simp [slice]

theorem slice_drop (b : Bytes) (k i j : Nat) : slice (b.drop k) i j = slice b (k + i) (k + j) := by
  simp [slice, List.drop_drop]
  congr 1
  omega

theorem getElem?_slice (b : Bytes) (i j k : Nat) (h : k < j - i) : (slice b i j)[k]? = b[i + k]? := by
  simp [slice, h]

/-! ### `find` -/

theorem beginsWith_iff (m b : Bytes) : beginsWith m b = true ↔ m <+: b := by
  induction m generalizing b with
  | nil => simp [beginsWith]
  | cons x m ih =>
    cases b with
    | nil => simp [beginsWith]
    | cons y b => by_cases h : x = y <;> simp [beginsWith, h, ih]

theorem standsAt_iff (b m : Bytes) (i : Nat) : StandsAt b m i ↔ m <+: b.drop i := by
  rw [StandsAt, slice, Nat.add_sub_cancel_left, List.prefix_iff_eq_take]
  exact eq_comm

theorem findFirst_spec (m b : Bytes) :
    (∀ i, findFirst m b = some i → m <+: b.drop i ∧ ∀ j, j < i → ¬ m <+: b.drop j) ∧
    (findFirst m b = none → ∀ j, ¬ m <+: b.drop j) := by
  induction b with
  | nil =>
    by_cases h : m = []
    · subst h; simp [findFirst]
    · simp [findFirst, h]
  | cons x b ih =>
    by_cases h : beginsWith m (x :: b)
    · have hp := (beginsWith_iff m (x :: b)).mp h
      simp [findFirst, h, hp]
    · have hp : ¬ m <+: x :: b := fun e => h ((beginsWith_iff m (x :: b)).mpr e)
      simp only [findFirst, h, Bool.false_eq_true, if_false, Option.map_eq_some_iff, Option.map_eq_none_iff]
      refine ⟨?_, fun hn j => ?_⟩
      · rintro i ⟨k, hk, rfl⟩
        refine ⟨by simpa using (ih.1 k hk).1, fun j hj => ?_⟩
        cases j with
        | zero => simpa using hp
        | succ j => simpa using (ih.1 k hk).2 j (by omega)
      · cases j with
        | zero => simpa using hp
        | succ j => simpa using ih.2 hn j

/-- `find` finds the least index (R10). -/
theorem foundAt_of_find {b m : Bytes} {start i : Nat} (h : find b m start = some i) : FoundAt b m start i := by
  obtain ⟨k, hk, rfl⟩ := Option.map_eq_some_iff.mp h
  obtain ⟨h1, h2⟩ := (findFirst_spec m (b.drop start)).1 k hk
  refine ⟨by omega, ?_, fun j hj hjk => ?_⟩
  · rw [standsAt_iff, Nat.add_comm]
    simpa [List.drop_drop] using h1
  · rw [standsAt_iff]
    have := h2 (j - start) (by omega)
    rwa [List.drop_drop, show start + (j - start) = j by omega] at this

/-- `find` answers `none` only where the pattern stands nowhere (R10). -/
theorem notFound_of_find {b m : Bytes} {start : Nat} (h : find b m start = none) : NotFound b m start := by
  intro j hj
  rw [standsAt_iff]
  have := (findFirst_spec m (b.drop start)).2 (Option.map_eq_none_iff.mp h) (j - start)
  rwa [List.drop_drop, show start + (j - start) = j by omega] at this

theorem FoundAt.unique {b m : Bytes} {start i j : Nat} (hi : FoundAt b m start i) (hj : FoundAt b m start j) :
    i = j := by
  rcases Nat.lt_trichotomy i j with h | h | h
  · exact absurd hi.2.1 (hj.2.2 i hi.1 h)
  · exact h
  · exact absurd hj.2.1 (hi.2.2 j hj.1 h)

theorem find_eq_some {b m : Bytes} {start i : Nat} : find b m start = some i ↔ FoundAt b m start i := by
  refine ⟨foundAt_of_find, fun h => ?_⟩
  cases hf : find b m start with
  | none => exact absurd h.2.1 (notFound_of_find hf i h.1)
  | some j => rw [(foundAt_of_find hf).unique h]

theorem find_eq_none {b m : Bytes} {start : Nat} : find b m start = none ↔ NotFound b m start := by
  refine ⟨notFound_of_find, fun h => ?_⟩
  cases hf : find b m start with
  | none => rfl
  | some j => exact absurd (foundAt_of_find hf).2.1 (h j (foundAt_of_find hf).1)

/-- A pattern that stands at `i` ends within the sequence. -/
theorem StandsAt.le_length {b m : Bytes} {i : Nat} (h : StandsAt b m i) (hm : m ≠ []) :
    i + m.length ≤ b.length := by
  have := congrArg List.length h
  rw [length_slice] at this
  have : 0 < m.length := List.length_pos_iff.mpr hm
  omega

theorem StandsAt.append {b m : Bytes} {i : Nat} (h : StandsAt b m i) (hm : m ≠ []) (x : Bytes) :
    StandsAt (b ++ x) m i := by
  rw [StandsAt, slice_append_left (h.le_length hm)]
  exact h

theorem standsAt_append_left {b m x : Bytes} {i : Nat} (hi : i + m.length ≤ b.length) :
    StandsAt (b ++ x) m i ↔ StandsAt b m i := by
  rw [StandsAt, StandsAt, slice_append_left hi]

theorem FoundAt.append {b m : Bytes} {start i : Nat} (h : FoundAt b m start i) (hm : m ≠ []) (x : Bytes) :
    FoundAt (b ++ x) m start i := by
  refine ⟨h.1, h.2.1.append hm x, fun j hj hji => ?_⟩
  have := h.2.1.le_length hm
  rw [standsAt_append_left (by omega)]
  exact h.2.2 j hj hji

theorem standsAt_drop (b m : Bytes) (k i : Nat) : StandsAt (b.drop k) m i ↔ StandsAt b m (k + i) := by
  rw [standsAt_iff, standsAt_iff, List.drop_drop]

theorem foundAt_drop (b m : Bytes) (k start i : Nat) :
    FoundAt (b.drop k) m start i ↔ FoundAt b m (k + start) (k + i) := by
  constructor
  · rintro ⟨h1, h2, h3⟩
    refine ⟨by omega, (standsAt_drop ..).mp h2, fun j hj hji => ?_⟩
    have := h3 (j - k) (by omega) (by omega)
    rwa [standsAt_drop, show k + (j - k) = j by omega] at this
  · rintro ⟨h1, h2, h3⟩
    exact ⟨by omega, (standsAt_drop ..).mpr h2, fun j hj hji => by rw [standsAt_drop]; exact h3 _ (by omega) (by omega)⟩

theorem notFound_drop (b m : Bytes) (k start : Nat) : NotFound (b.drop k) m start ↔ NotFound b m (k + start) := by
  constructor
  · intro h j hj
    have := h (j - k) (by omega)
    rwa [standsAt_drop, show k + (j - k) = j by omega] at this
  · intro h j hj
    rw [standsAt_drop]
    exact h _ (by omega)

/-- Two bytes stand at `i` exactly when they are the bytes at `i` and `i + 1`. -/
theorem standsAt_pair (b : Bytes) (x y : Byte) (i : Nat) :
    StandsAt b [x, y] i ↔ b[i]? = some x ∧ b[i + 1]? = some y := by
  rw [standsAt_iff]
  have h0 : (b.drop i)[0]? = b[i]? := by simp
  have h1 : (b.drop i)[1]? = b[i + 1]? := by simp
  rw [← h0, ← h1]
  rcases b.drop i with _ | ⟨u, _ | ⟨v, w⟩⟩
  · simp
  · simp
  · simp [eq_comm]

theorem containsBytes_iff (b m : Bytes) : containsBytes b m = true ↔ m <:+: b := by
  rw [containsBytes]
  constructor
  · intro h
    obtain ⟨i, hi⟩ := Option.isSome_iff_exists.mp h
    obtain ⟨⟨t, ht⟩, -⟩ := (findFirst_spec m b).1 i hi
    exact ⟨b.take i, t, by rw [List.append_assoc, ht, List.take_append_drop]⟩
  · rintro ⟨u, v, rfl⟩
    cases h : findFirst m (u ++ m ++ v) with
    | some i => rfl
    | none =>
      refine absurd ?_ ((findFirst_spec m _).2 h u.length)
      simp

/-! ### Big-endian words (R62) -/

theorem beBytes_two (v : U16) : beBytes 2 v.toNat = [hiByte v, loByte v] := by
  have h1 : BitVec.ofNat 8 (v.toNat / 256) = hiByte v := by
    apply BitVec.eq_of_toNat_eq
    simp [hiByte, BitVec.extractLsb'_toNat, Nat.shiftRight_eq_div_pow]
  have h2 : BitVec.ofNat 8 v.toNat = loByte v := by
    apply BitVec.eq_of_toNat_eq
    simp [loByte, BitVec.extractLsb'_toNat]
  simp [beBytes, h1, h2]

theorem word_hi_lo (v : U16) : (hiByte v).toNat * 256 + (loByte v).toNat = v.toNat := by
  have h1 : (hiByte v).toNat = v.toNat / 256 := by
    have := v.isLt
    simp [hiByte, BitVec.extractLsb'_toNat, Nat.shiftRight_eq_div_pow]
    omega
  have h2 : (loByte v).toNat = v.toNat % 256 := by
    simp [loByte, BitVec.extractLsb'_toNat]
  omega

theorem hiByte_ofNat (a b : Byte) : hiByte (BitVec.ofNat 16 (a.toNat * 256 + b.toNat)) = a := by
  apply BitVec.eq_of_toNat_eq
  have := a.isLt
  have := b.isLt
  simp [hiByte, BitVec.extractLsb'_toNat, Nat.shiftRight_eq_div_pow]
  omega

theorem loByte_ofNat (a b : Byte) : loByte (BitVec.ofNat 16 (a.toNat * 256 + b.toNat)) = b := by
  apply BitVec.eq_of_toNat_eq
  have := b.isLt
  simp [loByte, BitVec.extractLsb'_toNat]
  omega

theorem beNat_pair (a b : Byte) : beNat [a, b] = a.toNat * 256 + b.toNat := by simp [beNat]

theorem beNat_four (a b c d : Byte) : beNat [a, b, c, d] = be4 a b c d := by simp [beNat, be4]

theorem beNat_hi_lo (v : U16) : beNat [hiByte v, loByte v] = v.toNat := by rw [beNat_pair, word_hi_lo]

theorem ofNat_beNat_hi_lo (v : U16) : BitVec.ofNat 16 (beNat [hiByte v, loByte v]) = v := by
  rw [beNat_hi_lo]
  simp

/-- A two-byte slice, read big-endian. -/
theorem memRead_two {b : Bytes} {i : Nat} {x y : Byte} (hx : b[i]? = some x) (hy : b[i + 1]? = some y) :
    memRead b i 2 = x.toNat * 256 + y.toNat := by
  have : slice b i (i + 2) = [x, y] := (standsAt_pair b x y i).mpr ⟨hx, hy⟩
  rw [memRead, this, beNat_pair]

end Sys2Proof.Machine
end

