-- ==== Sys2Proof/Laws/Flags.lean ====
section
/-!
SUPPORT. The laws of the one-bit values and of identities: every LOW_BATT_FN is one of the tables (log entry 6), what
the default one says (R237), what R98's alarm code selects, and that a decoded identity has R12's form.
-/

namespace Sys2Proof.Machine

/-- The row that a function of the voltage code is. -/
theorem exists_row (g : Option Byte → Bool) :
    ∃ r : Config.LowBattRow, ∀ v : Option Byte,
      (match v with | none => r.unknown | some x => r.known.getLsbD x.toNat) = g v := by
  refine ⟨{ unknown := g none, known := BitVec.ofFnLE (fun i : Fin 256 => g (some (BitVec.ofNat 8 i))) }, fun v => ?_⟩
  cases v with
  | none => rfl
  | some x =>
    have hx := x.isLt
    simp [hx]

/-- LOW_BATT_FN as a table loses nothing: every total function of R237's two arguments is one. -/
theorem lowBattTable_complete (g : AlarmClass → Option Byte → Bool) :
    ∃ t : Config.LowBattTable, ∀ a v, lowBattFn t a v = g a v := by
  obtain ⟨r0, h0⟩ := exists_row (g .normal)
  obtain ⟨r1, h1⟩ := exists_row (g .sos)
  obtain ⟨r2, h2⟩ := exists_row (g .lowBatt)
  obtain ⟨r3, h3⟩ := exists_row (g .powerCut)
  obtain ⟨r4, h4⟩ := exists_row (g .shock)
  refine ⟨{ normal := r0, sos := r1, lowBatt := r2, powerCut := r3, shock := r4 }, fun a v => ?_⟩
  cases a
  · exact h0 v
  · exact h1 v
  · exact h2 v
  · exact h3 v
  · exact h4 v

/-- The default instance: `alarm = LOW_BATT`, whatever the voltage (R237). -/
theorem lowBattFn_default (a : AlarmClass) (v : Option Byte) :
    lowBattFn Config.defaultLowBatt a v = decide (a = .lowBatt) := by
  have h : ∀ x : Byte, (BitVec.allOnes 256).getLsbD x.toNat = true := fun x => by
    rw [BitVec.getLsbD_allOnes]
    simpa using x.isLt
  cases a <;> cases v <;> first | rfl | exact h _ | simp [lowBattFn, lowBattRow, Config.defaultLowBatt]

/-- R98's alarm code, as a number. -/
theorem termInfo_alarm (b : Byte) : (termInfo b).alarm = alarmOfCode (b.toNat / 8 % 8) := by
  revert b
  decide +kernel

/-! ### Identities (R12, R103) -/

theorem stripZeros_cases (d : Digits) :
    stripZeros d = [] ∨ ∃ c e, stripZeros d = c :: e ∧ c ≠ 0x30 := by
  induction d with
  | nil => exact .inl rfl
  | cons c d ih =>
    by_cases h : c = 0x30
    · simpa [stripZeros, h] using ih
    · exact .inr ⟨c, d, if_neg h, h⟩

theorem stripZeros_suffix (d : Digits) : stripZeros d <:+ d := by
  induction d with
  | nil => exact List.suffix_refl _
  | cons c d ih =>
    by_cases h : c = 0x30
    · simp only [stripZeros, h, if_true]
      exact ih.trans (List.suffix_cons ..)
    · rw [show stripZeros (c :: d) = c :: d from if_neg h]

theorem length_flatMap_nibbles (p : Bytes) : (p.flatMap nibbles).length = 2 * p.length := by
  induction p with
  | nil => rfl
  | cons b p ih => simp [nibbles, ih]; omega

/-- A decoded identity has R12's form. -/
theorem identityOf_wf {p : Bytes} {d : Digits} (h : identityOf p = some d) : d.wf = true := by
  unfold identityOf at h
  simp only at h
  split at h
  · cases h
  · rename_i hn
    split at h
    · cases h
    · rename_i hd
      obtain rfl := Option.some.inj h
      set ns := ((p.take Config.imeiBytes).flatMap nibbles).filter (fun n => n ≠ 15) with hns
      have hlen : ns.length ≤ 16 := by
        rw [hns]
        refine le_trans (List.length_filter_le _ _) ?_
        rw [length_flatMap_nibbles, List.length_take]
        have : Config.imeiBytes = 8 := rfl
        omega
      have hle : ∀ n ∈ ns, n ≤ 9 := by
        intro n hm
        by_contra hgt
        exact hn (List.any_eq_true.mpr ⟨n, hm, by simp; omega⟩)
      have suf := stripZeros_suffix (ns.map (fun n => BitVec.ofNat 8 (0x30 + n)))
      obtain h0 | ⟨c, e, he, hc⟩ := stripZeros_cases (ns.map (fun n => BitVec.ofNat 8 (0x30 + n)))
      · exact absurd h0 hd
      · have hlen' := suf.length_le
        rw [List.length_map] at hlen'
        have hall : ∀ x ∈ stripZeros (ns.map (fun n => BitVec.ofNat 8 (0x30 + n))),
            (decide (0x30 ≤ x.toNat) && decide (x.toNat ≤ 0x39)) = true := by
          intro x hx
          obtain ⟨n, hm, rfl⟩ := List.mem_map.mp (suf.subset hx)
          have := hle n hm
          simp only [BitVec.toNat_ofNat, Bool.and_eq_true, decide_eq_true_eq]
          omega
        rw [he] at hlen' hall ⊢
        simp only [Digits.wf, Bool.and_eq_true, decide_eq_true_eq, List.all_eq_true, bne_iff_ne, List.head?_cons,
          ne_eq, Option.some.injEq]
        refine ⟨⟨⟨by simp, by omega⟩, fun x hx => by simpa using hall x hx⟩, hc⟩

theorem loginIdentity_wf {p : Bytes} {d : Digits} (h : loginIdentity p = some d) : d.wf = true := by
  unfold loginIdentity at h
  split at h
  · cases h
  · exact identityOf_wf h

/-! ### What a login payload carries (R103, R308) -/

theorem stripZeros_split (d : Digits) : ∃ z, d = List.replicate z 0x30 ++ stripZeros d := by
  induction d with
  | nil => exact ⟨0, rfl⟩
  | cons c d ih =>
    by_cases h : c = 0x30
    · obtain ⟨z, hz⟩ := ih
      refine ⟨z + 1, ?_⟩
      rw [h, show stripZeros (0x30 :: d) = stripZeros d from if_pos rfl, List.replicate_succ, List.cons_append, ← hz]
    · exact ⟨0, by rw [show stripZeros (c :: d) = c :: d from if_neg h]; rfl⟩

theorem stripZeros_zeros (z : Nat) (d : Digits) : stripZeros (List.replicate z 0x30 ++ d) = stripZeros d := by
  induction z with
  | zero => rfl
  | succ z ih => rwa [List.replicate_succ, List.cons_append, stripZeros, if_pos rfl]

theorem nibbles_pack {a b : Nat} (ha : a < 16) (hb : b < 16) : nibbles (BitVec.ofNat 8 (a * 16 + b)) = [a, b] := by
  simp [nibbles]
  omega

theorem pack_nibbles (p : Bytes) : packNibbles (p.flatMap nibbles) = p := by
  induction p with
  | nil => rfl
  | cons b p ih =>
    have : BitVec.ofNat 8 (b.toNat / 16 * 16 + b.toNat % 16) = b := by rw [Nat.div_add_mod']; simp
    simpa [nibbles, packNibbles, ih] using this

/-- Packing an even number of nibbles and unpacking gives them back. -/
theorem unpack_pack (k : Nat) (ns : List Nat) (h : ns.length = 2 * k) (hn : ∀ n ∈ ns, n < 16) :
    (packNibbles ns).flatMap nibbles = ns ∧ (packNibbles ns).length = k := by
  induction k generalizing ns with
  | zero => obtain rfl : ns = [] := by simpa using h
            exact ⟨rfl, rfl⟩
  | succ k ih =>
    rcases ns with _ | ⟨a, _ | ⟨b, ns⟩⟩
    · simp at h
    · simp at h
      omega
    · obtain ⟨h1, h2⟩ := ih ns (by simp at h; omega) fun n hm => hn n (by simp [hm])
      rw [packNibbles, List.flatMap_cons, nibbles_pack (hn a (by simp)) (hn b (by simp)), h1]
      exact ⟨rfl, by simp [h2]⟩

/-- The nibbles of a payload are those its first 8 bytes hold. -/
theorem loginNibbles_iff (p : Bytes) (ns : List Nat) :
    LoginNibbles p ns ↔ 8 ≤ p.length ∧ (p.take 8).flatMap nibbles = ns := by
  constructor
  · rintro ⟨hl, hn, more, rfl⟩
    obtain ⟨h1, h2⟩ := unpack_pack 8 ns hl hn
    refine ⟨by simp [h2], ?_⟩
    rw [List.take_append_of_le_length (by omega), List.take_of_length_le (by omega), h1]
  · rintro ⟨hl, rfl⟩
    refine ⟨?_, fun n hn => ?_, p.drop 8, ?_⟩
    · rw [length_flatMap_nibbles, List.length_take]
      omega
    · obtain ⟨b, -, hb⟩ := List.mem_flatMap.mp hn
      have := b.isLt
      simp only [nibbles, List.mem_cons, List.not_mem_nil, or_false] at hb
      omega
    · rw [pack_nibbles, List.take_append_drop]

/-- The decoder of identities, over the nibbles. -/
theorem loginIdentity_of_nibbles {p : Bytes} {ns : List Nat} (h : LoginNibbles p ns) :
    loginIdentity p =
      if (ns.filter (fun n => n ≠ 15)).any (fun n => n > 9) then none
      else if stripZeros ((ns.filter (fun n => n ≠ 15)).map (fun n => BitVec.ofNat 8 (0x30 + n))) = [] then none
      else some (stripZeros ((ns.filter (fun n => n ≠ 15)).map (fun n => BitVec.ofNat 8 (0x30 + n)))) := by
  obtain ⟨hl, rfl⟩ := (loginNibbles_iff p ns).mp h
  exact if_neg (show ¬ p.length < 8 by omega)

theorem digit_value {n : Nat} (h : n ≤ 9) : (BitVec.ofNat 8 (0x30 + n)).toNat - 0x30 = n := by
  simp only [BitVec.toNat_ofNat]
  omega

theorem digit_char {c : Byte} (h : 0x30 ≤ c.toNat) : BitVec.ofNat 8 (0x30 + (c.toNat - 0x30)) = c := by
  rw [show 0x30 + (c.toNat - 0x30) = c.toNat by omega, BitVec.ofNat_toNat, BitVec.setWidth_eq]

/-- A login decodes to an identity exactly when its payload carries it. -/
theorem loginIdentity_eq_some {p : Bytes} {d : Digits} : loginIdentity p = some d ↔ LoginCarries p d := by
  constructor
  · intro h
    have hl : 8 ≤ p.length := by
      by_contra hl
      rw [loginIdentity, if_pos (show p.length < 8 by omega)] at h
      cases h
    have hns := (loginNibbles_iff p _).mpr ⟨hl, rfl⟩
    refine ⟨loginIdentity_wf h, (p.take 8).flatMap nibbles, ?_⟩
    rw [loginIdentity_of_nibbles hns] at h
    split at h
    · cases h
    rename_i hany
    split at h
    · cases h
    have hd := Option.some.inj h
    set ds := ((p.take 8).flatMap nibbles).filter (fun n => n ≠ 15)
    obtain ⟨z, hz⟩ := stripZeros_split (ds.map fun n => BitVec.ofNat 8 (0x30 + n))
    refine ⟨z, hns, ?_⟩
    rw [← hd]
    have e := congrArg (List.map fun c : Byte => c.toNat - 0x30) hz
    rw [List.map_map, List.map_append, List.map_replicate] at e
    refine Eq.trans ?_ e
    conv_lhs => rw [← List.map_id ds]
    refine List.map_congr_left fun n hn => ?_
    have : n ≤ 9 := by
      by_contra hgt
      exact hany (List.any_eq_true.mpr ⟨n, hn, by simp; omega⟩)
    exact (digit_value this).symm
  · rintro ⟨hw, ns, z, hns, hf⟩
    simp only [Digits.wf, Bool.and_eq_true, decide_eq_true_eq, List.all_eq_true, bne_iff_ne] at hw
    obtain ⟨⟨⟨h1, -⟩, h3⟩, h4⟩ := hw
    rw [loginIdentity_of_nibbles hns, hf, if_neg]
    · have hm : (List.replicate z 0 ++ d.map (fun c : Byte => c.toNat - 0x30)).map
          (fun n => BitVec.ofNat 8 (0x30 + n)) = List.replicate z 0x30 ++ d := by
        rw [List.map_append, List.map_replicate, List.map_map]
        congr 1
        conv_rhs => rw [← List.map_id d]
        exact List.map_congr_left fun c hc => digit_char (h3 c hc).1
      rw [hm, stripZeros_zeros]
      rcases d with _ | ⟨c, d⟩
      · simp at h1
      · rw [show stripZeros (c :: d) = c :: d from if_neg (by simpa using h4), if_neg (List.cons_ne_nil _ _)]
    · rw [List.any_eq_true]
      rintro ⟨n, hn, hgt⟩
      simp only [gt_iff_lt, decide_eq_true_eq] at hgt
      rcases List.mem_append.mp hn with hn | hn
      · have := (List.mem_replicate.mp hn).2
        omega
      · obtain ⟨c, hc, rfl⟩ := List.mem_map.mp hn
        have := (h3 c hc).2
        omega

/-- A login fails exactly as R308 lists. -/
theorem loginIdentity_eq_none {p : Bytes} : loginIdentity p = none ↔ LoginFails p := by
  by_cases hl : p.length < 8
  · exact ⟨fun _ => .inl hl, fun _ => if_pos hl⟩
  have hns := (loginNibbles_iff p _).mpr ⟨by omega, rfl⟩
  rw [loginIdentity_of_nibbles hns]
  constructor
  · intro h
    refine .inr ⟨_, hns, ?_⟩
    split at h
    · rename_i hany
      obtain ⟨n, hn, hgt⟩ := List.any_eq_true.mp hany
      obtain ⟨hm, h15⟩ := List.mem_filter.mp hn
      have := hns.2.1 n hm
      simp only [gt_iff_lt, decide_eq_true_eq] at hgt
      simp only [ne_eq, decide_eq_true_eq] at h15
      exact .inl ⟨n, hm, by omega, by omega⟩
    · split at h
      · rename_i hany hz
        refine .inr fun n hn => ?_
        by_contra hne
        rw [not_or] at hne
        obtain ⟨z, hz'⟩ := stripZeros_split
          ((((p.take 8).flatMap nibbles).filter (fun n => n ≠ 15)).map fun n => BitVec.ofNat 8 (0x30 + n))
        rw [hz, List.append_nil] at hz'
        have hm : n ∈ ((p.take 8).flatMap nibbles).filter (fun n => n ≠ 15) :=
          List.mem_filter.mpr ⟨hn, by simpa using hne.2⟩
        have h9 : n ≤ 9 := by
          by_contra hgt
          exact hany (List.any_eq_true.mpr ⟨n, hm, by simp; omega⟩)
        have h0 : BitVec.ofNat 8 (0x30 + n) = (0x30 : Byte) :=
          (List.mem_replicate.mp (hz' ▸ List.mem_map_of_mem hm)).2
        have := congrArg (fun c : Byte => c.toNat - 0x30) h0
        simp only [digit_value h9] at this
        exact hne.1 this
      · cases h
  · rintro (h | ⟨ns, h, hf⟩)
    · exact absurd h hl
    obtain ⟨-, rfl⟩ := (loginNibbles_iff p ns).mp h
    rcases hf with ⟨n, hn, h10, h14⟩ | hz
    · exact if_pos (List.any_eq_true.mpr ⟨n, List.mem_filter.mpr ⟨hn, by simp; omega⟩, by simp; omega⟩)
    · split
      · rfl
      · refine if_pos ?_
        have : ∀ l : Digits, (∀ c ∈ l, c = 0x30) → stripZeros l = [] := by
          intro l
          induction l with
          | nil => intro _; rfl
          | cons c l ih =>
            intro h
            rw [stripZeros, if_pos (h c (by simp))]
            exact ih fun x hx => h x (by simp [hx])
        refine this _ fun c hc => ?_
        obtain ⟨n, hn, rfl⟩ := List.mem_map.mp hc
        obtain ⟨hm, h15⟩ := List.mem_filter.mp hn
        have : n = 0 := (hz n hm).resolve_right (by simpa using h15)
        subst this
        rfl

end Sys2Proof.Machine
end

