-- ==== Sys2Proof/Laws/Scan.lean ====
section
/-!
SUPPORT. The laws of FR.SCAN: it follows the loop of R151 read as the relation `Scans`; the relation has one outcome;
the outcome stays within the buffer; and a scan can be cut where an earlier one stopped (R153, R158).
-/

namespace Sys2Proof.Machine

theorem startMarker_length : Config.startMarker.length = 2 := rfl
theorem stopMarker_length : Config.stopMarker.length = 2 := rfl

/-- A stop marker found from a start marker on lies at least two bytes after it (R155). -/
theorem stop_after_start {b : Bytes} {i e : Nat} (h : StandsAt b Config.startMarker i)
    (h' : FoundAt b Config.stopMarker i e) : i + 2 ≤ e := by
  obtain ⟨h0, h1⟩ := (standsAt_pair b _ _ i).mp h
  obtain ⟨g0, g1⟩ := (standsAt_pair b _ _ e).mp h'.2.1
  by_contra hlt
  have := h'.1
  rcases (by omega : e = i ∨ e = i + 1) with rfl | rfl
  · rw [h0] at g0; exact absurd g0 (by decide)
  · rw [h1] at g0; exact absurd g0 (by decide)

/-- With enough fuel the scan is R151's loop. -/
theorem scanFrom_scans (buf : Bytes) (fuel pos : Nat) (h : buf.length < fuel + pos) (hpos : pos ≤ buf.length) :
    Scans buf pos (scanFrom buf fuel pos).1 (scanFrom buf fuel pos).2 := by
  induction fuel generalizing pos with
  | zero => omega
  | succ fuel ih =>
    rw [scanFrom]
    rcases hi : find buf Config.startMarker pos with _ | i
    · exact .noStart (notFound_of_find hi)
    · have fi := foundAt_of_find hi
      rcases he : find buf Config.stopMarker i with _ | e
      · simpa only [he] using Scans.noStop fi (notFound_of_find he)
      · have fe := foundAt_of_find he
        have h1 := stop_after_start fi.2.1 fe
        have h2 := fe.2.1.le_length (by decide)
        have := fi.1
        simp only [stopMarker_length] at h2
        simpa only [he] using Scans.frame fi fe (ih (e + 2) (by omega) (by omega))

/-- FR.SCAN follows R151. -/
theorem scan_scans (buf : Bytes) : Scans buf 0 (scan buf).1 (scan buf).2 :=
  scanFrom_scans buf (buf.length + 1) 0 (by omega) (by omega)

/-- R151's loop has one outcome. -/
theorem Scans.unique {buf : Bytes} {pos n m : Nat} {fs gs : List Bytes} (h : Scans buf pos fs n)
    (g : Scans buf pos gs m) : fs = gs ∧ n = m := by
  induction h generalizing gs m with
  | noStart h =>
    cases g with
    | noStart => exact ⟨rfl, rfl⟩
    | noStop g _ => exact absurd g.2.1 (h _ g.1)
    | frame g _ _ => exact absurd g.2.1 (h _ g.1)
  | noStop h h' =>
    cases g with
    | noStart g => exact absurd h.2.1 (g _ h.1)
    | noStop => exact ⟨rfl, rfl⟩
    | frame g g' _ =>
      obtain rfl := h.unique g
      exact absurd g'.2.1 (h' _ g'.1)
  | frame h h' _ ih =>
    cases g with
    | noStart g => exact absurd h.2.1 (g _ h.1)
    | noStop g g' =>
      obtain rfl := h.unique g
      exact absurd h'.2.1 (g' _ h'.1)
    | frame g g' r' =>
      obtain rfl := h.unique g
      obtain rfl := h'.unique g'
      obtain ⟨rfl, rfl⟩ := ih r'
      exact ⟨rfl, rfl⟩

theorem scan_eq_iff (buf : Bytes) (fs : List Bytes) (n : Nat) : scan buf = (fs, n) ↔ Scans buf 0 fs n := by
  constructor
  · intro h
    have := scan_scans buf
    rwa [h] at this
  · intro h
    obtain ⟨h1, h2⟩ := h.unique (scan_scans buf)
    rw [h1, h2]

/-- The scan ends where it began or later, within the buffer (R150). -/
theorem Scans.bounds {buf : Bytes} {pos n : Nat} {fs : List Bytes} (h : Scans buf pos fs n)
    (hpos : pos ≤ buf.length) : pos ≤ n ∧ n ≤ buf.length := by
  induction h with
  | noStart => exact ⟨hpos, le_refl _⟩
  | noStop => exact ⟨le_refl _, hpos⟩
  | frame h h' _ ih =>
    have h1 := stop_after_start h.2.1 h'
    have h2 := h'.2.1.le_length (by decide)
    simp only [stopMarker_length] at h2
    have := ih h2
    have := h.1
    omega

theorem scan_le_length (buf : Bytes) : (scan buf).2 ≤ buf.length := ((scan_scans buf).bounds (Nat.zero_le _)).2

/-- A scan of a suffix is the scan of the whole from there, shifted. -/
theorem Scans.drop {buf : Bytes} {k pos n : Nat} {fs : List Bytes} (h : Scans buf pos fs n) (hk : k ≤ pos)
    (hpos : pos ≤ buf.length) : Scans (buf.drop k) (pos - k) fs (n - k) := by
  induction h with
  | @noStart pos h =>
    have := Scans.noStart (buf := buf.drop k) (pos := pos - k)
      ((notFound_drop ..).mpr (by rwa [Nat.add_sub_cancel' hk]))
    rwa [List.length_drop] at this
  | @noStop pos i h h' =>
    have := h.1
    refine .noStop (i := i - k) ((foundAt_drop ..).mpr ?_) ((notFound_drop ..).mpr ?_)
    · rwa [Nat.add_sub_cancel' hk, Nat.add_sub_cancel' (by omega)]
    · rwa [Nat.add_sub_cancel' (by omega)]
  | @frame pos i e n fs h h' _ ih =>
    have h1 := stop_after_start h.2.1 h'
    have h2 := h'.2.1.le_length (by decide)
    simp only [stopMarker_length] at h2
    have := h.1
    have r := ih (by omega) h2
    have hs : slice buf i (e + 2) = slice (buf.drop k) (i - k) (e - k + 2) := by
      rw [slice_drop]; congr 1 <;> omega
    rw [hs]
    refine .frame ((foundAt_drop ..).mpr ?_) ((foundAt_drop ..).mpr ?_) ?_
    · rwa [Nat.add_sub_cancel' hk, Nat.add_sub_cancel' (by omega)]
    · rwa [Nat.add_sub_cancel' (by omega), Nat.add_sub_cancel' (by omega)]
    · rwa [show e + 2 - k = e - k + 2 by omega] at r

/-- Bytes before the start marker that is found do not matter to the frames (R153). -/
theorem Scans.skip {b : Bytes} {p q i n : Nat} {fs : List Bytes} (h : Scans b p fs n)
    (f : FoundAt b Config.startMarker p i) (hpq : p ≤ q) (hqi : q ≤ i) : ∃ m, Scans b q fs m := by
  have fq : FoundAt b Config.startMarker q i := ⟨hqi, f.2.1, fun j hj hji => f.2.2 j (by omega) hji⟩
  cases h with
  | noStart g => exact absurd f.2.1 (g _ f.1)
  | noStop g g' =>
    obtain rfl := g.unique f
    exact ⟨_, .noStop fq g'⟩
  | frame g g' r =>
    obtain rfl := g.unique f
    exact ⟨_, .frame fq g' r⟩

/-- A scan of more bytes finds the frames of the first part, then those of the scan from where it stopped: unless it
stopped by discarding a lone 0x78, the first half of a start marker (R152, R351). It may retain more: bytes before the
start marker of a partial frame, which the first scan on its own discarded (R153). -/
theorem Scans.append {buf x : Bytes} {pos n m : Nat} {fs gs : List Bytes} (h : Scans buf pos fs n)
    (hpos : pos ≤ buf.length) (hlone : buf.getLast? ≠ some 0x78 ∨ n < buf.length)
    (g : Scans (buf ++ x) n gs m) :
    ∃ m', Scans (buf ++ x) pos (fs ++ gs) m' ∧
      (m' = m ∨ m' ≤ m ∧ ∃ i, m ≤ i ∧ FoundAt (buf ++ x) Config.startMarker m' i) := by
  induction h with
  | @noStart pos h =>
    rw [List.nil_append]
    have hlast : buf.getLast? ≠ some 0x78 := hlone.resolve_right (by omega)
    have key : ∀ j, pos ≤ j → j < buf.length → ¬ StandsAt (buf ++ x) Config.startMarker j := by
      intro j hj hjl hs
      by_cases hend : j + 2 ≤ buf.length
      · exact h j hj ((standsAt_append_left (by rw [startMarker_length]; exact hend)).mp hs)
      · obtain ⟨h0, -⟩ := (standsAt_pair _ _ _ j).mp hs
        rw [List.getElem?_append_left hjl] at h0
        apply hlast
        rw [List.getLast?_eq_getElem?, show buf.length - 1 = j by omega, h0]
    have lift : ∀ {i}, FoundAt (buf ++ x) Config.startMarker buf.length i →
        FoundAt (buf ++ x) Config.startMarker pos i := fun g =>
      ⟨by have := g.1; omega, g.2.1, fun j hj hji =>
        if hjl : j < buf.length then key j hj hjl else g.2.2 j (by omega) hji⟩
    cases g with
    | noStart g =>
      exact ⟨_, .noStart fun j hj => if hjl : j < buf.length then key j hj hjl else g j (by omega), .inl rfl⟩
    | noStop g g' => exact ⟨_, .noStop (lift g) g', .inr ⟨hpos, _, g.1, lift g⟩⟩
    | frame g g' r => exact ⟨_, .frame (lift g) g' r, .inl rfl⟩
  | noStop => exact ⟨m, by simpa using g, .inl rfl⟩
  | @frame pos i e n fs h h' _ ih =>
    have h2 := h'.2.1.le_length (by decide)
    simp only [stopMarker_length] at h2
    obtain ⟨m', r, hm⟩ := ih h2 hlone g
    have hs : slice (buf ++ x) i (e + 2) = slice buf i (e + 2) := slice_append_left h2
    refine ⟨m', ?_, hm⟩
    rw [List.cons_append, ← hs]
    exact .frame (h.append (by decide) x) (h'.append (by decide) x) r

/-- What FR.SCAN leaves yields nothing and is not consumed (R283). -/
theorem scan_rest (buf : Bytes) : scan (buf.drop (scan buf).2) = ([], 0) := by
  rw [scan_eq_iff]
  have key : ∀ {pos n fs}, Scans buf pos fs n → pos ≤ buf.length → Scans buf n [] n := by
    intro pos n fs h hpos
    induction h with
    | noStart h => exact .noStart fun j hj hs => by have := hs.le_length (by decide); simp at this; omega
    | noStop h h' => exact .noStop h h'
    | frame h h' _ ih =>
      have h2 := h'.2.1.le_length (by decide)
      exact ih h2
  have := (key (scan_scans buf) (Nat.zero_le _)).drop (le_refl _) (scan_le_length buf)
  simpa using this

/-- FR.SCAN of a buffer with a frame at its start and no stop marker before its own (R159). -/
theorem CleanFrame.scan_append {f : Bytes} (h : CleanFrame f) (x : Bytes) :
    scan (f ++ x) = (f :: (scan x).1, f.length + (scan x).2) := by
  obtain ⟨hs, he, hl⟩ := h
  rw [scan_eq_iff]
  have fi : FoundAt f Config.startMarker 0 0 := ⟨le_refl _, hs, fun j _ hj => absurd hj (by omega)⟩
  have hslice : slice (f ++ x) 0 (f.length - 2 + 2) = f := by
    rw [slice_append_left (by omega), show f.length - 2 + 2 = f.length by omega, slice_full]
  have r : Scans (f ++ x) f.length (scan x).1 (f.length + (scan x).2) := by
    have up : ∀ {pos n fs}, Scans x pos fs n → Scans (f ++ x) (f.length + pos) fs (f.length + n) := by
      intro pos n fs h
      have hd : (f ++ x).drop f.length = x := by simp
      induction h with
      | noStart h =>
        rw [← List.length_append]
        exact .noStart ((notFound_drop ..).mp (by rwa [hd]))
      | noStop h h' => exact .noStop ((foundAt_drop ..).mp (by rwa [hd])) ((notFound_drop ..).mp (by rwa [hd]))
      | @frame pos i e n fs h h' _ ih =>
        have : slice x i (e + 2) = slice (f ++ x) (f.length + i) (f.length + e + 2) := by
          rw [slice_append_right (by omega)]; congr 1 <;> omega
        rw [this]
        exact .frame ((foundAt_drop ..).mp (by rwa [hd])) ((foundAt_drop ..).mp (by rwa [hd])) ih
    exact up (scan_scans x)
  have := Scans.frame (fi.append (by decide) x) (he.append (by decide) x)
    (by rw [show f.length - 2 + 2 = f.length by omega]; exact r)
  rwa [hslice] at this

end Sys2Proof.Machine
end

