-- ==== Sys2Proof/Laws/State.lean ====
section
/-!
SUPPORT. One lemma per field per update of the state, true by `rfl`, so that no later proof unfolds a record update;
and what the reads of `Machine/Ops.lean` see after an update.
-/

namespace Sys2Proof.Machine

variable (s : State)

/-! ### `State.modSession` -/

@[simp] theorem State.modSession_sess (c : Cid) (f : Session → Session) :
    (s.modSession c f).sess = tmod s.sess c f := rfl
@[simp] theorem State.modSession_rxbuf (c : Cid) (f : Session → Session) : (s.modSession c f).rxbuf = s.rxbuf := rfl
@[simp] theorem State.modSession_pend (c : Cid) (f : Session → Session) : (s.modSession c f).pend = s.pend := rfl
@[simp] theorem State.modSession_deferred (c : Cid) (f : Session → Session) :
    (s.modSession c f).deferred = s.deferred := rfl
@[simp] theorem State.modSession_cfg (c : Cid) (f : Session → Session) : (s.modSession c f).cfg = s.cfg := rfl
@[simp] theorem State.modSession_crcR (c : Cid) (f : Session → Session) : (s.modSession c f).crcR = s.crcR := rfl
@[simp] theorem State.modSession_pos (c : Cid) (f : Session → Session) : (s.modSession c f).pos = s.pos := rfl
@[simp] theorem State.modSession_msg (c : Cid) (f : Session → Session) : (s.modSession c f).msg = s.msg := rfl
@[simp] theorem State.modSession_result (c : Cid) (f : Session → Session) : (s.modSession c f).result = s.result := rfl
@[simp] theorem State.modSession_choice (c : Cid) (f : Session → Session) : (s.modSession c f).choice = s.choice := rfl
@[simp] theorem State.modSession_inbox (c : Cid) (f : Session → Session) : (s.modSession c f).inbox = s.inbox := rfl
@[simp] theorem State.modSession_outs (c : Cid) (f : Session → Session) : (s.modSession c f).outs = s.outs := rfl

/-! ### `State.setRx` -/

@[simp] theorem State.setRx_sess (c : Cid) (b : Bytes) : (s.setRx c b).sess = s.sess := rfl
@[simp] theorem State.setRx_rxbuf (c : Cid) (b : Bytes) : (s.setRx c b).rxbuf = tput cidLt s.rxbuf c b := rfl
@[simp] theorem State.setRx_pend (c : Cid) (b : Bytes) : (s.setRx c b).pend = s.pend := rfl
@[simp] theorem State.setRx_deferred (c : Cid) (b : Bytes) : (s.setRx c b).deferred = s.deferred := rfl
@[simp] theorem State.setRx_cfg (c : Cid) (b : Bytes) : (s.setRx c b).cfg = s.cfg := rfl
@[simp] theorem State.setRx_crcR (c : Cid) (b : Bytes) : (s.setRx c b).crcR = s.crcR := rfl
@[simp] theorem State.setRx_pos (c : Cid) (b : Bytes) : (s.setRx c b).pos = s.pos := rfl
@[simp] theorem State.setRx_msg (c : Cid) (b : Bytes) : (s.setRx c b).msg = s.msg := rfl
@[simp] theorem State.setRx_result (c : Cid) (b : Bytes) : (s.setRx c b).result = s.result := rfl
@[simp] theorem State.setRx_choice (c : Cid) (b : Bytes) : (s.setRx c b).choice = s.choice := rfl
@[simp] theorem State.setRx_inbox (c : Cid) (b : Bytes) : (s.setRx c b).inbox = s.inbox := rfl
@[simp] theorem State.setRx_outs (c : Cid) (b : Bytes) : (s.setRx c b).outs = s.outs := rfl

/-! ### `State.putPend` -/

@[simp] theorem State.putPend_sess (d : Digits) (r : PendRec) : (s.putPend d r).sess = s.sess := rfl
@[simp] theorem State.putPend_rxbuf (d : Digits) (r : PendRec) : (s.putPend d r).rxbuf = s.rxbuf := rfl
@[simp] theorem State.putPend_pend (d : Digits) (r : PendRec) : (s.putPend d r).pend = tput bytesLt s.pend d r := rfl
@[simp] theorem State.putPend_deferred (d : Digits) (r : PendRec) : (s.putPend d r).deferred = s.deferred := rfl
@[simp] theorem State.putPend_cfg (d : Digits) (r : PendRec) : (s.putPend d r).cfg = s.cfg := rfl
@[simp] theorem State.putPend_crcR (d : Digits) (r : PendRec) : (s.putPend d r).crcR = s.crcR := rfl
@[simp] theorem State.putPend_pos (d : Digits) (r : PendRec) : (s.putPend d r).pos = s.pos := rfl
@[simp] theorem State.putPend_msg (d : Digits) (r : PendRec) : (s.putPend d r).msg = s.msg := rfl
@[simp] theorem State.putPend_result (d : Digits) (r : PendRec) : (s.putPend d r).result = s.result := rfl
@[simp] theorem State.putPend_choice (d : Digits) (r : PendRec) : (s.putPend d r).choice = s.choice := rfl
@[simp] theorem State.putPend_inbox (d : Digits) (r : PendRec) : (s.putPend d r).inbox = s.inbox := rfl
@[simp] theorem State.putPend_outs (d : Digits) (r : PendRec) : (s.putPend d r).outs = s.outs := rfl

/-! ### `State.delPend` -/

@[simp] theorem State.delPend_sess (d : Digits) : (s.delPend d).sess = s.sess := rfl
@[simp] theorem State.delPend_rxbuf (d : Digits) : (s.delPend d).rxbuf = s.rxbuf := rfl
@[simp] theorem State.delPend_pend (d : Digits) : (s.delPend d).pend = tdel s.pend d := rfl
@[simp] theorem State.delPend_deferred (d : Digits) : (s.delPend d).deferred = s.deferred := rfl
@[simp] theorem State.delPend_cfg (d : Digits) : (s.delPend d).cfg = s.cfg := rfl
@[simp] theorem State.delPend_crcR (d : Digits) : (s.delPend d).crcR = s.crcR := rfl
@[simp] theorem State.delPend_pos (d : Digits) : (s.delPend d).pos = s.pos := rfl
@[simp] theorem State.delPend_msg (d : Digits) : (s.delPend d).msg = s.msg := rfl
@[simp] theorem State.delPend_result (d : Digits) : (s.delPend d).result = s.result := rfl
@[simp] theorem State.delPend_choice (d : Digits) : (s.delPend d).choice = s.choice := rfl
@[simp] theorem State.delPend_inbox (d : Digits) : (s.delPend d).inbox = s.inbox := rfl
@[simp] theorem State.delPend_outs (d : Digits) : (s.delPend d).outs = s.outs := rfl

/-! ### `State.defer` -/

@[simp] theorem State.defer_sess (d : Digits) (k : CmdKind) : (s.defer d k).sess = s.sess := rfl
@[simp] theorem State.defer_rxbuf (d : Digits) (k : CmdKind) : (s.defer d k).rxbuf = s.rxbuf := rfl
@[simp] theorem State.defer_pend (d : Digits) (k : CmdKind) : (s.defer d k).pend = s.pend := rfl
@[simp] theorem State.defer_deferred (d : Digits) (k : CmdKind) :
    (s.defer d k).deferred = bput deferLt s.deferred (d, k) := rfl
@[simp] theorem State.defer_cfg (d : Digits) (k : CmdKind) : (s.defer d k).cfg = s.cfg := rfl
@[simp] theorem State.defer_crcR (d : Digits) (k : CmdKind) : (s.defer d k).crcR = s.crcR := rfl
@[simp] theorem State.defer_pos (d : Digits) (k : CmdKind) : (s.defer d k).pos = s.pos := rfl
@[simp] theorem State.defer_msg (d : Digits) (k : CmdKind) : (s.defer d k).msg = s.msg := rfl
@[simp] theorem State.defer_result (d : Digits) (k : CmdKind) : (s.defer d k).result = s.result := rfl
@[simp] theorem State.defer_choice (d : Digits) (k : CmdKind) : (s.defer d k).choice = s.choice := rfl
@[simp] theorem State.defer_inbox (d : Digits) (k : CmdKind) : (s.defer d k).inbox = s.inbox := rfl
@[simp] theorem State.defer_outs (d : Digits) (k : CmdKind) : (s.defer d k).outs = s.outs := rfl

/-! ### `State.undefer` -/

@[simp] theorem State.undefer_sess (d : Digits) (k : CmdKind) : (s.undefer d k).sess = s.sess := rfl
@[simp] theorem State.undefer_rxbuf (d : Digits) (k : CmdKind) : (s.undefer d k).rxbuf = s.rxbuf := rfl
@[simp] theorem State.undefer_pend (d : Digits) (k : CmdKind) : (s.undefer d k).pend = s.pend := rfl
@[simp] theorem State.undefer_deferred (d : Digits) (k : CmdKind) :
    (s.undefer d k).deferred = s.deferred.erase (d, k) := rfl
@[simp] theorem State.undefer_cfg (d : Digits) (k : CmdKind) : (s.undefer d k).cfg = s.cfg := rfl
@[simp] theorem State.undefer_crcR (d : Digits) (k : CmdKind) : (s.undefer d k).crcR = s.crcR := rfl
@[simp] theorem State.undefer_pos (d : Digits) (k : CmdKind) : (s.undefer d k).pos = s.pos := rfl
@[simp] theorem State.undefer_msg (d : Digits) (k : CmdKind) : (s.undefer d k).msg = s.msg := rfl
@[simp] theorem State.undefer_result (d : Digits) (k : CmdKind) : (s.undefer d k).result = s.result := rfl
@[simp] theorem State.undefer_choice (d : Digits) (k : CmdKind) : (s.undefer d k).choice = s.choice := rfl
@[simp] theorem State.undefer_inbox (d : Digits) (k : CmdKind) : (s.undefer d k).inbox = s.inbox := rfl
@[simp] theorem State.undefer_outs (d : Digits) (k : CmdKind) : (s.undefer d k).outs = s.outs := rfl

/-! ### `State.setCrc` -/

@[simp] theorem State.setCrc_sess (r : U16) : (s.setCrc r).sess = s.sess := rfl
@[simp] theorem State.setCrc_rxbuf (r : U16) : (s.setCrc r).rxbuf = s.rxbuf := rfl
@[simp] theorem State.setCrc_pend (r : U16) : (s.setCrc r).pend = s.pend := rfl
@[simp] theorem State.setCrc_deferred (r : U16) : (s.setCrc r).deferred = s.deferred := rfl
@[simp] theorem State.setCrc_cfg (r : U16) : (s.setCrc r).cfg = s.cfg := rfl
@[simp] theorem State.setCrc_crcR (r : U16) : (s.setCrc r).crcR = r := rfl
@[simp] theorem State.setCrc_pos (r : U16) : (s.setCrc r).pos = s.pos := rfl
@[simp] theorem State.setCrc_msg (r : U16) : (s.setCrc r).msg = s.msg := rfl
@[simp] theorem State.setCrc_result (r : U16) : (s.setCrc r).result = s.result := rfl
@[simp] theorem State.setCrc_choice (r : U16) : (s.setCrc r).choice = s.choice := rfl
@[simp] theorem State.setCrc_inbox (r : U16) : (s.setCrc r).inbox = s.inbox := rfl
@[simp] theorem State.setCrc_outs (r : U16) : (s.setCrc r).outs = s.outs := rfl

/-! ### `State.setPos` -/

@[simp] theorem State.setPos_sess (p : Nat) : (s.setPos p).sess = s.sess := rfl
@[simp] theorem State.setPos_rxbuf (p : Nat) : (s.setPos p).rxbuf = s.rxbuf := rfl
@[simp] theorem State.setPos_pend (p : Nat) : (s.setPos p).pend = s.pend := rfl
@[simp] theorem State.setPos_deferred (p : Nat) : (s.setPos p).deferred = s.deferred := rfl
@[simp] theorem State.setPos_cfg (p : Nat) : (s.setPos p).cfg = s.cfg := rfl
@[simp] theorem State.setPos_crcR (p : Nat) : (s.setPos p).crcR = s.crcR := rfl
@[simp] theorem State.setPos_pos (p : Nat) : (s.setPos p).pos = p := rfl
@[simp] theorem State.setPos_msg (p : Nat) : (s.setPos p).msg = s.msg := rfl
@[simp] theorem State.setPos_result (p : Nat) : (s.setPos p).result = s.result := rfl
@[simp] theorem State.setPos_choice (p : Nat) : (s.setPos p).choice = s.choice := rfl
@[simp] theorem State.setPos_inbox (p : Nat) : (s.setPos p).inbox = s.inbox := rfl
@[simp] theorem State.setPos_outs (p : Nat) : (s.setPos p).outs = s.outs := rfl

/-! ### `State.setMsg` -/

@[simp] theorem State.setMsg_sess (m : Message) : (s.setMsg m).sess = s.sess := rfl
@[simp] theorem State.setMsg_rxbuf (m : Message) : (s.setMsg m).rxbuf = s.rxbuf := rfl
@[simp] theorem State.setMsg_pend (m : Message) : (s.setMsg m).pend = s.pend := rfl
@[simp] theorem State.setMsg_deferred (m : Message) : (s.setMsg m).deferred = s.deferred := rfl
@[simp] theorem State.setMsg_cfg (m : Message) : (s.setMsg m).cfg = s.cfg := rfl
@[simp] theorem State.setMsg_crcR (m : Message) : (s.setMsg m).crcR = s.crcR := rfl
@[simp] theorem State.setMsg_pos (m : Message) : (s.setMsg m).pos = s.pos := rfl
@[simp] theorem State.setMsg_msg (m : Message) : (s.setMsg m).msg = some m := rfl
@[simp] theorem State.setMsg_result (m : Message) : (s.setMsg m).result = s.result := rfl
@[simp] theorem State.setMsg_choice (m : Message) : (s.setMsg m).choice = s.choice := rfl
@[simp] theorem State.setMsg_inbox (m : Message) : (s.setMsg m).inbox = s.inbox := rfl
@[simp] theorem State.setMsg_outs (m : Message) : (s.setMsg m).outs = s.outs := rfl

/-! ### `State.setResult` -/

@[simp] theorem State.setResult_sess (r : Result) : (s.setResult r).sess = s.sess := rfl
@[simp] theorem State.setResult_rxbuf (r : Result) : (s.setResult r).rxbuf = s.rxbuf := rfl
@[simp] theorem State.setResult_pend (r : Result) : (s.setResult r).pend = s.pend := rfl
@[simp] theorem State.setResult_deferred (r : Result) : (s.setResult r).deferred = s.deferred := rfl
@[simp] theorem State.setResult_cfg (r : Result) : (s.setResult r).cfg = s.cfg := rfl
@[simp] theorem State.setResult_crcR (r : Result) : (s.setResult r).crcR = s.crcR := rfl
@[simp] theorem State.setResult_pos (r : Result) : (s.setResult r).pos = s.pos := rfl
@[simp] theorem State.setResult_msg (r : Result) : (s.setResult r).msg = s.msg := rfl
@[simp] theorem State.setResult_result (r : Result) : (s.setResult r).result = r := rfl
@[simp] theorem State.setResult_choice (r : Result) : (s.setResult r).choice = s.choice := rfl
@[simp] theorem State.setResult_inbox (r : Result) : (s.setResult r).inbox = s.inbox := rfl
@[simp] theorem State.setResult_outs (r : Result) : (s.setResult r).outs = s.outs := rfl

/-! ### `State.emit` -/

@[simp] theorem State.emit_sess (o : Output) : (s.emit o).sess = s.sess := rfl
@[simp] theorem State.emit_rxbuf (o : Output) : (s.emit o).rxbuf = s.rxbuf := rfl
@[simp] theorem State.emit_pend (o : Output) : (s.emit o).pend = s.pend := rfl
@[simp] theorem State.emit_deferred (o : Output) : (s.emit o).deferred = s.deferred := rfl
@[simp] theorem State.emit_cfg (o : Output) : (s.emit o).cfg = s.cfg := rfl
@[simp] theorem State.emit_crcR (o : Output) : (s.emit o).crcR = s.crcR := rfl
@[simp] theorem State.emit_pos (o : Output) : (s.emit o).pos = s.pos := rfl
@[simp] theorem State.emit_msg (o : Output) : (s.emit o).msg = s.msg := rfl
@[simp] theorem State.emit_result (o : Output) : (s.emit o).result = s.result := rfl
@[simp] theorem State.emit_choice (o : Output) : (s.emit o).choice = s.choice := rfl
@[simp] theorem State.emit_inbox (o : Output) : (s.emit o).inbox = s.inbox := rfl
@[simp] theorem State.emit_outs (o : Output) : (s.emit o).outs = s.outs ++ [o] := rfl

/-! ### `State.raise` -/

@[simp] theorem State.raise_sess (e : Cond) : (s.raise e).sess = s.sess := rfl
@[simp] theorem State.raise_rxbuf (e : Cond) : (s.raise e).rxbuf = s.rxbuf := rfl
@[simp] theorem State.raise_pend (e : Cond) : (s.raise e).pend = s.pend := rfl
@[simp] theorem State.raise_deferred (e : Cond) : (s.raise e).deferred = s.deferred := rfl
@[simp] theorem State.raise_cfg (e : Cond) : (s.raise e).cfg = s.cfg := rfl
@[simp] theorem State.raise_crcR (e : Cond) : (s.raise e).crcR = s.crcR := rfl
@[simp] theorem State.raise_pos (e : Cond) : (s.raise e).pos = s.pos := rfl
@[simp] theorem State.raise_msg (e : Cond) : (s.raise e).msg = s.msg := rfl
@[simp] theorem State.raise_result (e : Cond) : (s.raise e).result = .raised e := rfl
@[simp] theorem State.raise_choice (e : Cond) : (s.raise e).choice = s.choice := rfl
@[simp] theorem State.raise_inbox (e : Cond) : (s.raise e).inbox = s.inbox := rfl
@[simp] theorem State.raise_outs (e : Cond) : (s.raise e).outs = s.outs := rfl

/-! ### `State.connect` -/

@[simp] theorem State.connect_sess (c : Cid) (p : Peer) :
    (s.connect c p).sess = tput cidLt s.sess c (Session.fresh c p) := rfl
@[simp] theorem State.connect_rxbuf (c : Cid) (p : Peer) : (s.connect c p).rxbuf = tput cidLt s.rxbuf c [] := rfl
@[simp] theorem State.connect_pend (c : Cid) (p : Peer) : (s.connect c p).pend = s.pend := rfl
@[simp] theorem State.connect_deferred (c : Cid) (p : Peer) : (s.connect c p).deferred = s.deferred := rfl
@[simp] theorem State.connect_cfg (c : Cid) (p : Peer) : (s.connect c p).cfg = s.cfg := rfl
@[simp] theorem State.connect_crcR (c : Cid) (p : Peer) : (s.connect c p).crcR = s.crcR := rfl
@[simp] theorem State.connect_pos (c : Cid) (p : Peer) : (s.connect c p).pos = s.pos := rfl
@[simp] theorem State.connect_msg (c : Cid) (p : Peer) : (s.connect c p).msg = s.msg := rfl
@[simp] theorem State.connect_result (c : Cid) (p : Peer) : (s.connect c p).result = s.result := rfl
@[simp] theorem State.connect_choice (c : Cid) (p : Peer) : (s.connect c p).choice = s.choice := rfl
@[simp] theorem State.connect_inbox (c : Cid) (p : Peer) : (s.connect c p).inbox = s.inbox := rfl
@[simp] theorem State.connect_outs (c : Cid) (p : Peer) : (s.connect c p).outs = s.outs := rfl

/-! ### `State.disconnect` -/

@[simp] theorem State.disconnect_sess (c : Cid) : (s.disconnect c).sess = tdel s.sess c := rfl
@[simp] theorem State.disconnect_rxbuf (c : Cid) : (s.disconnect c).rxbuf = tdel s.rxbuf c := rfl
@[simp] theorem State.disconnect_pend (c : Cid) : (s.disconnect c).pend = s.pend := rfl
@[simp] theorem State.disconnect_deferred (c : Cid) : (s.disconnect c).deferred = s.deferred := rfl
@[simp] theorem State.disconnect_cfg (c : Cid) : (s.disconnect c).cfg = s.cfg := rfl
@[simp] theorem State.disconnect_crcR (c : Cid) : (s.disconnect c).crcR = s.crcR := rfl
@[simp] theorem State.disconnect_pos (c : Cid) : (s.disconnect c).pos = s.pos := rfl
@[simp] theorem State.disconnect_msg (c : Cid) : (s.disconnect c).msg = s.msg := rfl
@[simp] theorem State.disconnect_result (c : Cid) : (s.disconnect c).result = s.result := rfl
@[simp] theorem State.disconnect_choice (c : Cid) : (s.disconnect c).choice = s.choice := rfl
@[simp] theorem State.disconnect_inbox (c : Cid) : (s.disconnect c).inbox = s.inbox := rfl
@[simp] theorem State.disconnect_outs (c : Cid) : (s.disconnect c).outs = s.outs := rfl

/-! ### `State.crcOver` -/

@[simp] theorem State.crcOver_sess (b : Bytes) : (s.crcOver b).sess = s.sess := rfl
@[simp] theorem State.crcOver_rxbuf (b : Bytes) : (s.crcOver b).rxbuf = s.rxbuf := rfl
@[simp] theorem State.crcOver_pend (b : Bytes) : (s.crcOver b).pend = s.pend := rfl
@[simp] theorem State.crcOver_deferred (b : Bytes) : (s.crcOver b).deferred = s.deferred := rfl
@[simp] theorem State.crcOver_cfg (b : Bytes) : (s.crcOver b).cfg = s.cfg := rfl
@[simp] theorem State.crcOver_crcR (b : Bytes) : (s.crcOver b).crcR = crcRun b := rfl
@[simp] theorem State.crcOver_pos (b : Bytes) : (s.crcOver b).pos = s.pos := rfl
@[simp] theorem State.crcOver_msg (b : Bytes) : (s.crcOver b).msg = s.msg := rfl
@[simp] theorem State.crcOver_result (b : Bytes) : (s.crcOver b).result = s.result := rfl
@[simp] theorem State.crcOver_choice (b : Bytes) : (s.crcOver b).choice = s.choice := rfl
@[simp] theorem State.crcOver_inbox (b : Bytes) : (s.crcOver b).inbox = s.inbox := rfl
@[simp] theorem State.crcOver_outs (b : Bytes) : (s.crcOver b).outs = s.outs := rfl

/-! ### `State.build` -/

@[simp] theorem State.build_sess (b : Bytes) : (s.build b).sess = s.sess := rfl
@[simp] theorem State.build_rxbuf (b : Bytes) : (s.build b).rxbuf = s.rxbuf := rfl
@[simp] theorem State.build_pend (b : Bytes) : (s.build b).pend = s.pend := rfl
@[simp] theorem State.build_deferred (b : Bytes) : (s.build b).deferred = s.deferred := rfl
@[simp] theorem State.build_cfg (b : Bytes) : (s.build b).cfg = s.cfg := rfl
@[simp] theorem State.build_crcR (b : Bytes) : (s.build b).crcR = crcRun b := rfl
@[simp] theorem State.build_pos (b : Bytes) : (s.build b).pos = s.pos := rfl
@[simp] theorem State.build_msg (b : Bytes) : (s.build b).msg = s.msg := rfl
@[simp] theorem State.build_result (b : Bytes) : (s.build b).result = .frame (wrapBody b) := rfl
@[simp] theorem State.build_choice (b : Bytes) : (s.build b).choice = s.choice := rfl
@[simp] theorem State.build_inbox (b : Bytes) : (s.build b).inbox = s.inbox := rfl
@[simp] theorem State.build_outs (b : Bytes) : (s.build b).outs = s.outs := rfl

/-! ### `State.sendAck` -/

@[simp] theorem State.sendAck_sess (c : Cid) (pp : AckProto) (n : U16) : (s.sendAck c pp n).sess = s.sess := rfl
@[simp] theorem State.sendAck_rxbuf (c : Cid) (pp : AckProto) (n : U16) : (s.sendAck c pp n).rxbuf = s.rxbuf := rfl
@[simp] theorem State.sendAck_pend (c : Cid) (pp : AckProto) (n : U16) : (s.sendAck c pp n).pend = s.pend := rfl
@[simp] theorem State.sendAck_deferred (c : Cid) (pp : AckProto) (n : U16) :
    (s.sendAck c pp n).deferred = s.deferred := rfl
@[simp] theorem State.sendAck_cfg (c : Cid) (pp : AckProto) (n : U16) : (s.sendAck c pp n).cfg = s.cfg := rfl
@[simp] theorem State.sendAck_crcR (c : Cid) (pp : AckProto) (n : U16) :
    (s.sendAck c pp n).crcR = crcRun (ackBody pp n) := rfl
@[simp] theorem State.sendAck_pos (c : Cid) (pp : AckProto) (n : U16) : (s.sendAck c pp n).pos = s.pos := rfl
@[simp] theorem State.sendAck_msg (c : Cid) (pp : AckProto) (n : U16) : (s.sendAck c pp n).msg = s.msg := rfl
@[simp] theorem State.sendAck_result (c : Cid) (pp : AckProto) (n : U16) : (s.sendAck c pp n).result = s.result := rfl
@[simp] theorem State.sendAck_choice (c : Cid) (pp : AckProto) (n : U16) : (s.sendAck c pp n).choice = s.choice := rfl
@[simp] theorem State.sendAck_inbox (c : Cid) (pp : AckProto) (n : U16) : (s.sendAck c pp n).inbox = s.inbox := rfl
@[simp] theorem State.sendAck_outs (c : Cid) (pp : AckProto) (n : U16) :
    (s.sendAck c pp n).outs = s.outs ++ [.tx c (ackBytes pp n)] := rfl

/-! ### `State.rejectRequest` -/

@[simp] theorem State.rejectRequest_sess (r : Option Ref) (e : Cond) : (s.rejectRequest r e).sess = s.sess := rfl
@[simp] theorem State.rejectRequest_rxbuf (r : Option Ref) (e : Cond) : (s.rejectRequest r e).rxbuf = s.rxbuf := rfl
@[simp] theorem State.rejectRequest_pend (r : Option Ref) (e : Cond) : (s.rejectRequest r e).pend = s.pend := rfl
@[simp] theorem State.rejectRequest_deferred (r : Option Ref) (e : Cond) :
    (s.rejectRequest r e).deferred = s.deferred := rfl
@[simp] theorem State.rejectRequest_cfg (r : Option Ref) (e : Cond) : (s.rejectRequest r e).cfg = s.cfg := rfl
@[simp] theorem State.rejectRequest_crcR (r : Option Ref) (e : Cond) : (s.rejectRequest r e).crcR = s.crcR := rfl
@[simp] theorem State.rejectRequest_pos (r : Option Ref) (e : Cond) : (s.rejectRequest r e).pos = s.pos := rfl
@[simp] theorem State.rejectRequest_msg (r : Option Ref) (e : Cond) : (s.rejectRequest r e).msg = s.msg := rfl
@[simp] theorem State.rejectRequest_result (r : Option Ref) (e : Cond) :
    (s.rejectRequest r e).result = .outcome (.rejected e) := rfl
@[simp] theorem State.rejectRequest_choice (r : Option Ref) (e : Cond) : (s.rejectRequest r e).choice = s.choice := rfl
@[simp] theorem State.rejectRequest_inbox (r : Option Ref) (e : Cond) : (s.rejectRequest r e).inbox = s.inbox := rfl
@[simp] theorem State.rejectRequest_outs (r : Option Ref) (e : Cond) :
    (s.rejectRequest r e).outs = s.outs ++ [.reject r e] := rfl

/-! ### `State.login` -/

@[simp] theorem State.login_sess (c : Cid) (d : Digits) :
    (s.login c d).sess = tmod s.sess c (fun r => { r with imei := some d }) := rfl
@[simp] theorem State.login_rxbuf (c : Cid) (d : Digits) : (s.login c d).rxbuf = s.rxbuf := rfl
@[simp] theorem State.login_pend (c : Cid) (d : Digits) : (s.login c d).pend = s.pend := rfl
@[simp] theorem State.login_deferred (c : Cid) (d : Digits) : (s.login c d).deferred = s.deferred := rfl
@[simp] theorem State.login_cfg (c : Cid) (d : Digits) : (s.login c d).cfg = s.cfg := rfl
@[simp] theorem State.login_crcR (c : Cid) (d : Digits) : (s.login c d).crcR = s.crcR := rfl
@[simp] theorem State.login_pos (c : Cid) (d : Digits) : (s.login c d).pos = s.pos := rfl
@[simp] theorem State.login_msg (c : Cid) (d : Digits) : (s.login c d).msg = s.msg := rfl
@[simp] theorem State.login_result (c : Cid) (d : Digits) : (s.login c d).result = s.result := rfl
@[simp] theorem State.login_choice (c : Cid) (d : Digits) : (s.login c d).choice = s.choice := rfl
@[simp] theorem State.login_inbox (c : Cid) (d : Digits) : (s.login c d).inbox = s.inbox := rfl
@[simp] theorem State.login_outs (c : Cid) (d : Digits) : (s.login c d).outs = s.outs := rfl

/-! ### `State.refresh` -/

@[simp] theorem State.refresh_sess (c : Cid) (u : StatusUpdate) (w : Time) :
    (s.refresh c u w).sess = tmod s.sess c (fun r => { r with st := refreshedCache s.cfg.lowBattFn u w r.st }) := rfl
@[simp] theorem State.refresh_rxbuf (c : Cid) (u : StatusUpdate) (w : Time) : (s.refresh c u w).rxbuf = s.rxbuf := rfl
@[simp] theorem State.refresh_pend (c : Cid) (u : StatusUpdate) (w : Time) : (s.refresh c u w).pend = s.pend := rfl
@[simp] theorem State.refresh_deferred (c : Cid) (u : StatusUpdate) (w : Time) :
    (s.refresh c u w).deferred = s.deferred := rfl
@[simp] theorem State.refresh_cfg (c : Cid) (u : StatusUpdate) (w : Time) : (s.refresh c u w).cfg = s.cfg := rfl
@[simp] theorem State.refresh_crcR (c : Cid) (u : StatusUpdate) (w : Time) : (s.refresh c u w).crcR = s.crcR := rfl
@[simp] theorem State.refresh_pos (c : Cid) (u : StatusUpdate) (w : Time) : (s.refresh c u w).pos = s.pos := rfl
@[simp] theorem State.refresh_msg (c : Cid) (u : StatusUpdate) (w : Time) : (s.refresh c u w).msg = s.msg := rfl
@[simp] theorem State.refresh_result (c : Cid) (u : StatusUpdate) (w : Time) :
    (s.refresh c u w).result = s.result := rfl
@[simp] theorem State.refresh_choice (c : Cid) (u : StatusUpdate) (w : Time) :
    (s.refresh c u w).choice = s.choice := rfl
@[simp] theorem State.refresh_inbox (c : Cid) (u : StatusUpdate) (w : Time) : (s.refresh c u w).inbox = s.inbox := rfl
@[simp] theorem State.refresh_outs (c : Cid) (u : StatusUpdate) (w : Time) : (s.refresh c u w).outs = s.outs := rfl

/-! ### `State.touch` -/

@[simp] theorem State.touch_sess (c : Cid) (w : Time) :
    (s.touch c w).sess = tmod s.sess c (fun r => { r with st := { r.st with upd := some w } }) := rfl
@[simp] theorem State.touch_rxbuf (c : Cid) (w : Time) : (s.touch c w).rxbuf = s.rxbuf := rfl
@[simp] theorem State.touch_pend (c : Cid) (w : Time) : (s.touch c w).pend = s.pend := rfl
@[simp] theorem State.touch_deferred (c : Cid) (w : Time) : (s.touch c w).deferred = s.deferred := rfl
@[simp] theorem State.touch_cfg (c : Cid) (w : Time) : (s.touch c w).cfg = s.cfg := rfl
@[simp] theorem State.touch_crcR (c : Cid) (w : Time) : (s.touch c w).crcR = s.crcR := rfl
@[simp] theorem State.touch_pos (c : Cid) (w : Time) : (s.touch c w).pos = s.pos := rfl
@[simp] theorem State.touch_msg (c : Cid) (w : Time) : (s.touch c w).msg = s.msg := rfl
@[simp] theorem State.touch_result (c : Cid) (w : Time) : (s.touch c w).result = s.result := rfl
@[simp] theorem State.touch_choice (c : Cid) (w : Time) : (s.touch c w).choice = s.choice := rfl
@[simp] theorem State.touch_inbox (c : Cid) (w : Time) : (s.touch c w).inbox = s.inbox := rfl
@[simp] theorem State.touch_outs (c : Cid) (w : Time) : (s.touch c w).outs = s.outs := rfl

/-! ### `State.bumpSeq` -/

@[simp] theorem State.bumpSeq_sess (c : Cid) :
    (s.bumpSeq c).sess = tmod s.sess c (fun r => { r with seq := nextSeq r.seq }) := rfl
@[simp] theorem State.bumpSeq_rxbuf (c : Cid) : (s.bumpSeq c).rxbuf = s.rxbuf := rfl
@[simp] theorem State.bumpSeq_pend (c : Cid) : (s.bumpSeq c).pend = s.pend := rfl
@[simp] theorem State.bumpSeq_deferred (c : Cid) : (s.bumpSeq c).deferred = s.deferred := rfl
@[simp] theorem State.bumpSeq_cfg (c : Cid) : (s.bumpSeq c).cfg = s.cfg := rfl
@[simp] theorem State.bumpSeq_crcR (c : Cid) : (s.bumpSeq c).crcR = s.crcR := rfl
@[simp] theorem State.bumpSeq_pos (c : Cid) : (s.bumpSeq c).pos = s.pos := rfl
@[simp] theorem State.bumpSeq_msg (c : Cid) : (s.bumpSeq c).msg = s.msg := rfl
@[simp] theorem State.bumpSeq_result (c : Cid) : (s.bumpSeq c).result = s.result := rfl
@[simp] theorem State.bumpSeq_choice (c : Cid) : (s.bumpSeq c).choice = s.choice := rfl
@[simp] theorem State.bumpSeq_inbox (c : Cid) : (s.bumpSeq c).inbox = s.inbox := rfl
@[simp] theorem State.bumpSeq_outs (c : Cid) : (s.bumpSeq c).outs = s.outs := rfl

/-! ### `State.sendCommand` -/

@[simp] theorem State.sendCommand_sess (c : Cid) (d : Digits) (k : CmdKind) (r : Option Ref) (w : Time) :
    (s.sendCommand c d k r w).sess = tmod s.sess c (fun r => { r with seq := nextSeq r.seq }) := rfl
@[simp] theorem State.sendCommand_rxbuf (c : Cid) (d : Digits) (k : CmdKind) (r : Option Ref) (w : Time) :
    (s.sendCommand c d k r w).rxbuf = s.rxbuf := rfl
@[simp] theorem State.sendCommand_pend (c : Cid) (d : Digits) (k : CmdKind) (r : Option Ref) (w : Time) :
    (s.sendCommand c d k r w).pend = tput bytesLt s.pend d { kind := k, ref := r, sent := w } := rfl
@[simp] theorem State.sendCommand_deferred (c : Cid) (d : Digits) (k : CmdKind) (r : Option Ref) (w : Time) :
    (s.sendCommand c d k r w).deferred = s.deferred := rfl
@[simp] theorem State.sendCommand_cfg (c : Cid) (d : Digits) (k : CmdKind) (r : Option Ref) (w : Time) :
    (s.sendCommand c d k r w).cfg = s.cfg := rfl
@[simp] theorem State.sendCommand_crcR (c : Cid) (d : Digits) (k : CmdKind) (r : Option Ref) (w : Time) :
    (s.sendCommand c d k r w).crcR = crcRun (cmdBody (commandText k) (s.seqOf c)) := rfl
@[simp] theorem State.sendCommand_pos (c : Cid) (d : Digits) (k : CmdKind) (r : Option Ref) (w : Time) :
    (s.sendCommand c d k r w).pos = s.pos := rfl
@[simp] theorem State.sendCommand_msg (c : Cid) (d : Digits) (k : CmdKind) (r : Option Ref) (w : Time) :
    (s.sendCommand c d k r w).msg = s.msg := rfl
@[simp] theorem State.sendCommand_result (c : Cid) (d : Digits) (k : CmdKind) (r : Option Ref) (w : Time) :
    (s.sendCommand c d k r w).result = .outcome .done := rfl
@[simp] theorem State.sendCommand_choice (c : Cid) (d : Digits) (k : CmdKind) (r : Option Ref) (w : Time) :
    (s.sendCommand c d k r w).choice = s.choice := rfl
@[simp] theorem State.sendCommand_inbox (c : Cid) (d : Digits) (k : CmdKind) (r : Option Ref) (w : Time) :
    (s.sendCommand c d k r w).inbox = s.inbox := rfl
@[simp] theorem State.sendCommand_outs (c : Cid) (d : Digits) (k : CmdKind) (r : Option Ref) (w : Time) :
    (s.sendCommand c d k r w).outs = s.outs ++ [.tx c (cmdBytes (commandText k) (s.seqOf c))] := rfl

/-! ### Reads after an update that leaves their table alone -/

theorem State.session?_congr {s t : State} (h : t.sess = s.sess) (c : Cid) : t.session? c = s.session? c := by
  simp [State.session?, h]

theorem State.connected_congr {s t : State} (h : t.sess = s.sess) (c : Cid) : t.connected c = s.connected c := by
  simp [State.connected, State.session?, h]

theorem State.imeiOf_congr {s t : State} (h : t.sess = s.sess) (c : Cid) : t.imeiOf c = s.imeiOf c := by
  simp [State.imeiOf, State.session?, h]

theorem State.cacheOf_congr {s t : State} (h : t.sess = s.sess) (c : Cid) : t.cacheOf c = s.cacheOf c := by
  simp [State.cacheOf, State.session?, h]

theorem State.seqOf_congr {s t : State} (h : t.sess = s.sess) (c : Cid) : t.seqOf c = s.seqOf c := by
  simp [State.seqOf, State.session?, h]

theorem State.holders_congr {s t : State} (h : t.sess = s.sess) (d : Digits) : t.holders d = s.holders d := by
  simp [State.holders, h]

theorem State.pend?_congr {s t : State} (h : t.pend = s.pend) (d : Digits) : t.pend? d = s.pend? d := by
  simp [State.pend?, h]

theorem State.rxOf_congr {s t : State} (h : t.rxbuf = s.rxbuf) (c : Cid) : t.rxOf c = s.rxOf c := by
  simp [State.rxOf, State.rxbuf?, h]

theorem State.rxByte_congr {s t : State} (h : t.rxbuf = s.rxbuf) (c : Cid) (a : Nat) :
    t.rxByte c a = s.rxByte c a := by
  simp [State.rxByte, State.rxOf_congr h]

end Sys2Proof.Machine
end

