-- ==== Sys2Proof/Laws/Tables.lean ====
section
/-!
SUPPORT. The laws of tables and bags: read after write, that every operation keeps the canonical form, and that the
three orders used are strict and total.
-/

namespace Sys2Proof.Machine

/-! ### Orders -/

/-- A strict total order, as a Boolean relation. -/
structure StrictTotal {K : Type} (lt : K → K → Bool) : Prop where
  irrefl : ∀ a, lt a a = false
  trans  : ∀ {a b c}, lt a b = true → lt b c = true → lt a c = true
  total  : ∀ {a b}, a ≠ b → lt a b = false → lt b a = true

theorem StrictTotal.asymm {K : Type} {lt : K → K → Bool} (h : StrictTotal lt) {a b : K} (hab : lt a b = true) :
    lt b a = false := by
  cases hba : lt b a
  · rfl
  · have := h.irrefl a
    rw [h.trans hab hba] at this
    exact this

theorem cidLt_strictTotal : StrictTotal cidLt where
  irrefl a := by simp [cidLt]
  trans := by intro a b c; simp only [cidLt, decide_eq_true_eq]; omega
  total := by
    intro a b hne h
    have : a.token ≠ b.token := fun h' => hne (by cases a; cases b; simp_all)
    simp only [cidLt, decide_eq_false_iff_not, decide_eq_true_eq] at *
    omega

theorem bytesLt_irrefl (a : Bytes) : bytesLt a a = false := by
  induction a with
  | nil => rfl
  | cons x a ih => simp [bytesLt, ih]

theorem bytesLt_trans {a b c : Bytes} (hab : bytesLt a b = true) (hbc : bytesLt b c = true) :
    bytesLt a c = true := by
  induction a generalizing b c with
  | nil =>
    cases c with
    | nil => cases b <;> simp [bytesLt] at hbc
    | cons z c => rfl
  | cons x a ih =>
    cases b with
    | nil => simp [bytesLt] at hab
    | cons y b =>
      cases c with
      | nil => simp [bytesLt] at hbc
      | cons z c =>
        simp only [bytesLt] at *
        by_cases h1 : x.toNat < y.toNat <;> by_cases h2 : y.toNat < z.toNat
        · simp [show x.toNat < z.toNat by omega]
        · by_cases h3 : y = z
          · subst h3; simp [h1]
          · simp [h2, h3] at hbc
        · by_cases h3 : x = y
          · subst h3; simp [h2]
          · simp [h1, h3] at hab
        · by_cases h3 : x = y <;> by_cases h4 : y = z
          · subst h3; subst h4; simp at hab hbc ⊢; exact ih hab hbc
          · simp [h2, h4] at hbc
          · simp [h1, h3] at hab
          · simp [h1, h3] at hab

theorem bytesLt_total {a b : Bytes} (hne : a ≠ b) (h : bytesLt a b = false) : bytesLt b a = true := by
  induction a generalizing b with
  | nil => cases b <;> simp_all [bytesLt]
  | cons x a ih =>
    cases b with
    | nil => rfl
    | cons y b =>
      simp only [bytesLt] at *
      by_cases h1 : x.toNat < y.toNat
      · simp [h1] at h
      · by_cases h2 : x = y
        · subst h2
          simp only [lt_self_iff_false, if_false, if_true] at h ⊢
          exact ih (fun e => hne (by rw [e])) h
        · have : y.toNat < x.toNat := by
            have : x.toNat ≠ y.toNat := fun e => h2 (BitVec.eq_of_toNat_eq e)
            omega
          simp [this]

theorem bytesLt_strictTotal : StrictTotal bytesLt where
  irrefl := bytesLt_irrefl
  trans := bytesLt_trans
  total := bytesLt_total

theorem deferLt_strictTotal : StrictTotal deferLt where
  irrefl a := by simp [deferLt, bytesLt_irrefl]
  trans := by
    rintro ⟨a, k⟩ ⟨b, l⟩ ⟨c, m⟩
    simp only [deferLt, Bool.or_eq_true, Bool.and_eq_true, decide_eq_true_eq]
    rintro (h | ⟨rfl, h⟩) (h' | ⟨rfl, h'⟩)
    · exact .inl (bytesLt_trans h h')
    · exact .inl h
    · exact .inl h'
    · exact .inr ⟨rfl, by omega⟩
  total := by
    rintro ⟨a, k⟩ ⟨b, l⟩ hne h
    simp only [deferLt, Bool.or_eq_false_iff, Bool.or_eq_true, Bool.and_eq_true, decide_eq_true_eq] at *
    by_cases hab : a = b
    · subst hab
      refine .inr ⟨rfl, ?_⟩
      have hk : k ≠ l := fun e => hne (by rw [e])
      revert h hk
      cases k <;> cases l <;> simp [kindRank]
    · exact .inl (bytesLt_total hab h.1)

/-! ### Tables -/

section Tables
variable {K V W : Type} [DecidableEq K] {lt : K → K → Bool}

@[simp] theorem tget_nil (k : K) : tget ([] : List (K × V)) k = none := rfl

@[simp] theorem tget_tput_same (m : List (K × V)) (k : K) (v : V) : tget (tput lt m k v) k = some v := by
  induction m with
  | nil => simp [tput, tget]
  | cons kv m ih =>
    by_cases h : kv.1 = k
    · simp [tput, tget, h]
    · by_cases h' : lt k kv.1 <;> simp [tput, tget, h, h', ih]

theorem tget_tput_other (m : List (K × V)) {k j : K} (v : V) (hne : j ≠ k) :
    tget (tput lt m k v) j = tget m j := by
  induction m with
  | nil => simp [tput, tget, hne.symm]
  | cons kv m ih =>
    by_cases h : kv.1 = k
    · have : ¬ kv.1 = j := fun e => hne (e.symm.trans h)
      simp [tput, tget, h, hne.symm]
    · by_cases h' : lt k kv.1
      · simp [tput, tget, h, h', hne.symm]
      · simp [tput, tget, h, h', ih]

@[simp] theorem tget_tdel_same (m : List (K × V)) (k : K) : tget (tdel m k) k = none := by
  induction m with
  | nil => rfl
  | cons kv m ih =>
    by_cases h : kv.1 = k
    · simpa [tdel, h] using ih
    · simpa [tdel, tget, h] using ih

theorem tget_tdel_other (m : List (K × V)) {k j : K} (hne : j ≠ k) : tget (tdel m k) j = tget m j := by
  induction m with
  | nil => rfl
  | cons kv m ih =>
    by_cases h : kv.1 = k
    · have : ¬ k = j := fun e => hne e.symm
      simpa [tdel, tget, h, this] using ih
    · simp only [tdel, ne_eq, decide_not, List.filter_cons, h, decide_false, Bool.not_false, if_true, tget] at ih ⊢
      rw [ih]

theorem tget_tmod_same (m : List (K × V)) (k : K) (f : V → V) : tget (tmod m k f) k = (tget m k).map f := by
  induction m with
  | nil => rfl
  | cons kv m ih =>
    by_cases h : kv.1 = k
    · simp [tmod, tget, h]
    · simpa [tmod, tget, h] using ih

theorem tget_tmod_other (m : List (K × V)) {k j : K} (f : V → V) (hne : j ≠ k) :
    tget (tmod m k f) j = tget m j := by
  induction m with
  | nil => rfl
  | cons kv m ih =>
    by_cases h : kv.1 = k
    · have : ¬ kv.1 = j := fun e => hne (e.symm.trans h)
      simpa [tmod, tget, h, this, hne.symm] using ih
    · simp only [tmod, List.map_cons, h, if_false, tget] at ih ⊢
      rw [ih]

@[simp] theorem tkeys_tmod (m : List (K × V)) (k : K) (f : V → V) : tkeys (tmod m k f) = tkeys m := by
  simp only [tkeys, tmod, List.map_map]
  refine List.map_congr_left fun kv _ => ?_
  by_cases h : kv.1 = k <;> simp [h]

@[simp] theorem length_tmod (m : List (K × V)) (k : K) (f : V → V) : (tmod m k f).length = m.length := by
  simp [tmod]

theorem tkeys_tdel (m : List (K × V)) (k : K) : tkeys (tdel m k) = (tkeys m).filter (fun j => j ≠ k) := by
  simp [tkeys, tdel, List.filter_map, Function.comp_def]

theorem tkeys_tput_congr {m : List (K × V)} {n : List (K × W)} (h : tkeys m = tkeys n) (k : K) (v : V) (w : W) :
    tkeys (tput lt m k v) = tkeys (tput lt n k w) := by
  induction m generalizing n with
  | nil =>
    cases n with
    | nil => rfl
    | cons => simp [tkeys] at h
  | cons kv m ih =>
    cases n with
    | nil => simp [tkeys] at h
    | cons kw n =>
      simp only [tkeys, List.map_cons, List.cons.injEq] at h ih
      by_cases h1 : kw.1 = k
      · simp [tput, tkeys, h.1, h1, h.2]
      · by_cases h2 : lt k kw.1
        · simp [tput, tkeys, h.1, h1, h2, h.2]
        · simp [tput, tkeys, h.1, h1, h2, ih h.2]

theorem tput_tput_same (m : List (K × V)) (k : K) (v w : V) : tput lt (tput lt m k v) k w = tput lt m k w := by
  induction m with
  | nil => simp [tput]
  | cons kv m ih =>
    by_cases h : kv.1 = k
    · simp [tput, h]
    · by_cases h' : lt k kv.1 <;> simp [tput, h, h', ih]

theorem mem_of_tget {m : List (K × V)} {k : K} {v : V} (h : tget m k = some v) : (k, v) ∈ m := by
  induction m with
  | nil => simp at h
  | cons kv m ih =>
    by_cases hk : kv.1 = k
    · simp [tget, hk] at h
      simp [← hk, ← h]
    · simp [tget, hk] at h
      exact List.mem_cons_of_mem _ (ih h)

theorem tget_isSome (m : List (K × V)) (k : K) : (tget m k).isSome = true ↔ k ∈ tkeys m := by
  induction m with
  | nil => simp [tkeys]
  | cons kv m ih =>
    by_cases h : kv.1 = k
    · simp [tget, tkeys, h]
    · have : ¬ k = kv.1 := fun e => h e.symm
      simp only [tget, h, if_false, ih]
      simp [tkeys, this]

theorem mem_tput {m : List (K × V)} {k : K} {v : V} {x : K × V} (h : x ∈ tput lt m k v) : x = (k, v) ∨ x ∈ m := by
  induction m with
  | nil => exact .inl (by simpa [tput] using h)
  | cons kv m ih =>
    by_cases h1 : kv.1 = k
    · simp only [tput, h1, if_true, List.mem_cons] at h
      exact h.imp_right (List.mem_cons_of_mem _)
    · by_cases h2 : lt k kv.1
      · simp only [tput, h1, h2, if_false, if_true, List.mem_cons] at h
        simpa using h
      · simp only [tput, h1, h2, if_false, List.mem_cons, Bool.false_eq_true] at h
        rcases h with h | h
        · exact .inr (by simp [h])
        · exact (ih h).imp_right (List.mem_cons_of_mem _)

theorem mem_tdel {m : List (K × V)} {k : K} {x : K × V} (h : x ∈ tdel m k) : x ∈ m := (List.mem_filter.mp h).1

theorem mem_tmod {m : List (K × V)} {k : K} {f : V → V} {x : K × V} (h : x ∈ tmod m k f) :
    ∃ v, (x.1, v) ∈ m ∧ ((x.1 = k ∧ x.2 = f v) ∨ (x.1 ≠ k ∧ x.2 = v)) := by
  obtain ⟨kv, hkv, rfl⟩ := List.mem_map.mp h
  by_cases hk : kv.1 = k
  · exact ⟨kv.2, by rw [if_pos hk]; exact hkv, .inl (by simp [hk])⟩
  · exact ⟨kv.2, by rw [if_neg hk]; exact hkv, .inr (by simp [hk])⟩

omit [DecidableEq K] in
/-- The canonical form depends on the keys alone. -/
theorem tsorted_iff_keys (m : List (K × V)) :
    tsorted lt m ↔ (tkeys m).Pairwise (fun a b => lt a b = true) := by
  simp [tsorted, tkeys, List.pairwise_map]

theorem tsorted_tmod {m : List (K × V)} (h : tsorted lt m) (k : K) (f : V → V) : tsorted lt (tmod m k f) := by
  rw [tsorted_iff_keys] at *
  simpa using h

theorem tsorted_tdel {m : List (K × V)} (h : tsorted lt m) (k : K) : tsorted lt (tdel m k) := by
  exact List.Pairwise.filter _ h

theorem tsorted_tput (ht : StrictTotal lt) {m : List (K × V)} (h : tsorted lt m) (k : K) (v : V) :
    tsorted lt (tput lt m k v) := by
  induction m with
  | nil => simp [tput, tsorted]
  | cons kv m ih =>
    obtain ⟨hkv, hm⟩ := List.pairwise_cons.mp h
    by_cases h1 : kv.1 = k
    · simp only [tput, h1, if_true]
      exact List.pairwise_cons.mpr ⟨fun x hx => by simpa [h1] using hkv x hx, hm⟩
    · by_cases h2 : lt k kv.1
      · simp only [tput, h1, h2, if_false, if_true]
        refine List.pairwise_cons.mpr ⟨fun x hx => ?_, h⟩
        rcases List.mem_cons.mp hx with rfl | hx
        · exact h2
        · exact ht.trans h2 (hkv x hx)
      · simp only [tput, h1, h2, if_false, Bool.false_eq_true]
        refine List.pairwise_cons.mpr ⟨fun x hx => ?_, ih hm⟩
        rcases mem_tput hx with rfl | hx
        · exact ht.total (fun e => h1 e.symm) (by simpa using h2)
        · exact hkv x hx

/-- Replacing at a key that is there changes no key. -/
theorem tkeys_tput_of_mem (ht : StrictTotal lt) {m : List (K × V)} (h : tsorted lt m) {k : K} (hk : k ∈ tkeys m)
    (v : V) : tkeys (tput lt m k v) = tkeys m := by
  induction m with
  | nil => simp [tkeys] at hk
  | cons kv m ih =>
    obtain ⟨hkv, hm⟩ := List.pairwise_cons.mp h
    by_cases h1 : kv.1 = k
    · simp [tput, tkeys, h1]
    · have hk' : k ∈ tkeys m := by
        rcases List.mem_cons.mp (by simpa [tkeys] using hk : k ∈ kv.1 :: tkeys m) with e | e
        · exact absurd e.symm h1
        · exact e
      have h2 : lt k kv.1 = false := by
        obtain ⟨x, hx, rfl⟩ := List.mem_map.mp hk'
        exact ht.asymm (hkv x hx)
      have := ih hm hk'
      simp only [tput, h1, h2, if_false, Bool.false_eq_true]
      simpa [tkeys] using this

theorem length_tput_of_mem (ht : StrictTotal lt) {m : List (K × V)} (h : tsorted lt m) {k : K} (hk : k ∈ tkeys m)
    (v : V) : (tput lt m k v).length = m.length := by
  have := congrArg List.length (tkeys_tput_of_mem ht h hk v)
  simpa [tkeys] using this

theorem length_tput_le (m : List (K × V)) (k : K) (v : V) : (tput lt m k v).length ≤ m.length + 1 := by
  induction m with
  | nil => simp [tput]
  | cons kv m ih =>
    by_cases h1 : kv.1 = k
    · simp [tput, h1]
    · by_cases h2 : lt k kv.1 <;> simp [tput, h1, h2]; omega

theorem length_tdel_le (m : List (K × V)) (k : K) : (tdel m k).length ≤ m.length := List.length_filter_le _ _

/-- Two canonical tables with the same values at every key are the same list. -/
theorem eq_of_tget_eq (ht : StrictTotal lt) {m n : List (K × V)} (hm : tsorted lt m) (hn : tsorted lt n)
    (h : ∀ k, tget m k = tget n k) : m = n := by
  induction m generalizing n with
  | nil =>
    cases n with
    | nil => rfl
    | cons kw n => exact absurd (h kw.1) (by simp [tget])
  | cons kv m ih =>
    cases n with
    | nil => exact absurd (h kv.1) (by simp [tget])
    | cons kw n =>
      obtain ⟨hkv, hm'⟩ := List.pairwise_cons.mp hm
      obtain ⟨hkw, hn'⟩ := List.pairwise_cons.mp hn
      have key : kv.1 = kw.1 := by
        by_contra hne
        have h1 : (tget (kw :: n) kv.1).isSome = true := by rw [← h]; simp [tget]
        have h2 : (tget (kv :: m) kw.1).isSome = true := by rw [h]; simp [tget]
        rw [tget_isSome] at h1 h2
        simp only [tkeys, List.map_cons, List.mem_cons, hne, false_or, Ne.symm hne, List.mem_map] at h1 h2
        obtain ⟨x, hx, ex⟩ := h1
        obtain ⟨y, hy, ey⟩ := h2
        have below := hkw x hx
        have above := hkv y hy
        rw [ex] at below
        rw [ey, ht.asymm below] at above
        exact Bool.noConfusion above
      have val : kv.2 = kw.2 := by simpa [tget, key] using h kv.1
      have tail : m = n := by
        refine ih hm' hn' fun k => ?_
        by_cases hk : kv.1 = k
        · have nm : k ∉ tkeys m := by
            intro e
            obtain ⟨x, hx, ex⟩ := List.mem_map.mp e
            have := hkv x hx
            rw [ex, hk, ht.irrefl] at this
            exact Bool.noConfusion this
          have nn : k ∉ tkeys n := by
            intro e
            obtain ⟨x, hx, ex⟩ := List.mem_map.mp e
            have := hkw x hx
            rw [ex, ← key, hk, ht.irrefl] at this
            exact Bool.noConfusion this
          rw [← tget_isSome] at nm nn
          simp only [Bool.not_eq_true, Option.isSome_eq_false_iff, Option.isNone_iff_eq_none] at nm nn
          rw [nm, nn]
        · have := h k
          simpa [tget, hk, ← key] using this
      rw [tail, Prod.ext key val]

end Tables

/-! ### Bags -/

section Bags
variable {A : Type} {lt : A → A → Bool}

theorem mem_bput {m : List A} {x y : A} : y ∈ bput lt m x ↔ y = x ∨ y ∈ m := by
  induction m with
  | nil => simp [bput]
  | cons z m ih =>
    by_cases h : lt z x
    · simp only [bput, h, if_true, List.mem_cons, ih]
      tauto
    · simp [bput, h]

theorem count_bput [BEq A] [LawfulBEq A] [DecidableEq A] (m : List A) (x y : A) :
    (bput lt m x).count y = m.count y + (if x = y then 1 else 0) := by
  induction m with
  | nil => by_cases h : x = y <;> simp [bput, h]
  | cons z m ih =>
    by_cases h : lt z x
    · simp only [bput, h, if_true, List.count_cons, ih]
      omega
    · simp only [bput, h, List.count_cons, Bool.false_eq_true, if_false, beq_iff_eq]

theorem bsorted_bput (ht : StrictTotal lt) {m : List A} (h : bsorted lt m) (x : A) : bsorted lt (bput lt m x) := by
  induction m with
  | nil => simp [bput, bsorted]
  | cons z m ih =>
    obtain ⟨hz, hm⟩ := List.pairwise_cons.mp h
    by_cases h1 : lt z x
    · simp only [bput, h1, if_true]
      refine List.pairwise_cons.mpr ⟨fun y hy => ?_, ih hm⟩
      rcases mem_bput.mp hy with rfl | hy
      · exact ht.asymm h1
      · exact hz y hy
    · simp only [bput, h1, Bool.false_eq_true, if_false]
      refine List.pairwise_cons.mpr ⟨fun y hy => ?_, h⟩
      rcases List.mem_cons.mp hy with rfl | hy
      · simpa using h1
      · cases hyx : lt y x
        · rfl
        · have hzy := hz y hy
          by_cases e : z = y
          · subst e; exact absurd hyx h1
          · have := ht.total (Ne.symm e) hzy
            rw [ht.trans this hyx] at h1
            exact absurd rfl h1

theorem bsorted_erase [BEq A] {m : List A} (h : bsorted lt m) (x : A) : bsorted lt (m.erase x) :=
  List.Pairwise.sublist List.erase_sublist h

end Bags

end Sys2Proof.Machine
end

