-- ==== Sys2Proof/Laws/Ops.lean ====
section
/-!
SUPPORT. One lemma per shared operation that says once what it can do: reads after writes, operations on a connection,
requests, confirmations, and the effect of a frame and of a delivery; and that every operation on the receive memory
keeps its canonical form.
-/

namespace Sys2Proof.Machine

/-! ### Operations on a connection -/

theorem State.connected_of_session {s : State} {c : Cid} {r : Session} (h : s.session? c = some r) :
    s.connected c = true := by simp [State.connected, h]

theorem State.onConnection_of_session {s : State} {c : Cid} {r : Session} (h : s.session? c = some r)
    (k : Host.Outcome State Fault Refusal) : s.onConnection c k = k := by
  simp [State.onConnection, State.connected_of_session h]

theorem State.onConnection_of_none {s : State} {c : Cid} (h : s.session? c = none)
    (k : Host.Outcome State Fault Refusal) : s.onConnection c k = .refused .unknownConnection := by
  simp [State.onConnection, State.connected, h]

/-- An operation on a connection that answers a next state ran on a connection that exists. -/
theorem State.onConnection_next {s t : State} {c : Cid} {k : Host.Outcome State Fault Refusal}
    (h : s.onConnection c k = .next t) : (∃ r, s.session? c = some r) ∧ k = .next t := by
  unfold State.onConnection at h
  split at h
  · rename_i hc
    exact ⟨Option.isSome_iff_exists.mp hc, h⟩
  · cases h

theorem State.onConnection_next' {s t u : State} {c : Cid} (h : s.onConnection c (.next u) = .next t) :
    (∃ r, s.session? c = some r) ∧ t = u := by
  obtain ⟨h1, h2⟩ := State.onConnection_next h
  exact ⟨h1, (Host.Outcome.next.inj h2).symm⟩

/-! ### Sessions -/

theorem State.session?_modSession_same (s : State) (c : Cid) (f : Session → Session) :
    (s.modSession c f).session? c = (s.session? c).map f := tget_tmod_same ..

theorem State.session?_modSession_other (s : State) {c d : Cid} (f : Session → Session) (h : d ≠ c) :
    (s.modSession c f).session? d = s.session? d := tget_tmod_other _ _ h

/-- What each register write leaves in the session it writes, and that it leaves the others. -/
theorem State.session?_login {s : State} {c : Cid} {r : Session} (h : s.session? c = some r) (d : Digits) :
    (s.login c d).session? c = some { r with imei := some d } := by
  rw [State.login, State.session?_modSession_same, h]
  rfl

theorem State.session?_login_other (s : State) {c e : Cid} (d : Digits) (h : e ≠ c) :
    (s.login c d).session? e = s.session? e := s.session?_modSession_other _ h

theorem State.session?_refresh {s : State} {c : Cid} {r : Session} (h : s.session? c = some r) (u : StatusUpdate)
    (now : Time) :
    (s.refresh c u now).session? c = some { r with st := refreshedCache s.cfg.lowBattFn u now r.st } := by
  rw [State.refresh, State.session?_modSession_same, h]
  rfl

theorem State.session?_refresh_other (s : State) {c e : Cid} (u : StatusUpdate) (now : Time) (h : e ≠ c) :
    (s.refresh c u now).session? e = s.session? e := s.session?_modSession_other _ h

theorem State.session?_touch {s : State} {c : Cid} {r : Session} (h : s.session? c = some r) (now : Time) :
    (s.touch c now).session? c = some { r with st := { r.st with upd := some now } } := by
  rw [State.touch, State.session?_modSession_same, h]
  rfl

theorem State.session?_touch_other (s : State) {c e : Cid} (now : Time) (h : e ≠ c) :
    (s.touch c now).session? e = s.session? e := s.session?_modSession_other _ h

theorem State.session?_bumpSeq {s : State} {c : Cid} {r : Session} (h : s.session? c = some r) :
    (s.bumpSeq c).session? c = some { r with seq := nextSeq r.seq } := by
  rw [State.bumpSeq, State.session?_modSession_same, h]
  rfl

theorem State.session?_bumpSeq_other (s : State) {c e : Cid} (h : e ≠ c) :
    (s.bumpSeq c).session? e = s.session? e := s.session?_modSession_other _ h

/-- The serial after `v`, on numbers (R235). -/
theorem nextSeq_toNat (v : U16) :
    (nextSeq v).toNat = if (v.toNat + 1) % 65536 = 0 then 1 else (v.toNat + 1) % 65536 := by
  have h : (v + 1).toNat = (v.toNat + 1) % 65536 := by simp [BitVec.toNat_add]
  unfold nextSeq
  by_cases h0 : v + 1 = 0
  · rw [if_pos h0, ← h, h0]
    rfl
  · have : (v + 1).toNat ≠ 0 := fun e => h0 (BitVec.eq_of_toNat_eq e)
    rw [if_neg h0, if_neg (by rwa [← h]), h]

/-- 0 is never issued (R235). -/
theorem nextSeq_ne_zero (v : U16) : nextSeq v ≠ 0 := by
  unfold nextSeq
  split
  · decide
  · assumption

theorem State.imeiOf_of_session {s : State} {c : Cid} {r : Session} (h : s.session? c = some r) :
    s.imeiOf c = r.imei := by simp [State.imeiOf, h]

theorem State.cacheOf_of_session {s : State} {c : Cid} {r : Session} (h : s.session? c = some r) :
    s.cacheOf c = r.st := by simp [State.cacheOf, h]

theorem State.seqOf_of_session {s : State} {c : Cid} {r : Session} (h : s.session? c = some r) :
    s.seqOf c = r.seq := by simp [State.seqOf, h]

/-- In a canonical table a session is found under its key. -/
theorem session?_of_mem {s : State} (h : tsorted cidLt s.sess) {c : Cid} {r : Session} (hm : (c, r) ∈ s.sess) :
    s.session? c = some r := by
  unfold State.session?
  revert h hm
  generalize s.sess = m
  intro h hm
  induction m with
  | nil => cases hm
  | cons kv m ih =>
    obtain ⟨hkv, hm'⟩ := List.pairwise_cons.mp h
    rcases List.mem_cons.mp hm with rfl | hm
    · simp [tget]
    · have hne : kv.1 ≠ c := fun e => by
        have := hkv _ hm
        rw [← e, cidLt_strictTotal.irrefl] at this
        cases this
      simpa [tget, hne] using ih hm' hm

/-! ### Receive memory -/

theorem State.rxbuf?_setRx_same (s : State) (c : Cid) (b : Bytes) : (s.setRx c b).rxbuf? c = some b :=
  tget_tput_same ..

theorem State.rxbuf?_setRx_other (s : State) {c d : Cid} (b : Bytes) (h : d ≠ c) :
    (s.setRx c b).rxbuf? d = s.rxbuf? d := tget_tput_other _ _ h

theorem State.rxOf_setRx_same (s : State) (c : Cid) (b : Bytes) : (s.setRx c b).rxOf c = b := by
  simp [State.rxOf, State.rxbuf?_setRx_same]

theorem State.rxOf_setRx_other (s : State) {c d : Cid} (b : Bytes) (h : d ≠ c) :
    (s.setRx c b).rxOf d = s.rxOf d := by
  simp [State.rxOf, State.rxbuf?_setRx_other _ _ h]

/-- The receive memory after reset is in canonical form. -/
theorem reset_memory_wf (cfg : Config.Params) : Memory.wf (State.resetWith cfg).rxbuf := List.Pairwise.nil

/-- Storing a buffer keeps the canonical form. -/
theorem setRx_memory_wf {s : State} (h : Memory.wf s.rxbuf) (c : Cid) (b : Bytes) :
    Memory.wf (s.setRx c b).rxbuf := tsorted_tput cidLt_strictTotal h c b

/-- Creating a connection's buffer keeps the canonical form. -/
theorem connect_memory_wf {s : State} (h : Memory.wf s.rxbuf) (c : Cid) (p : Peer) :
    Memory.wf (s.connect c p).rxbuf := tsorted_tput cidLt_strictTotal h c []

/-- Removing a connection's buffer keeps the canonical form. -/
theorem disconnect_memory_wf {s : State} (h : Memory.wf s.rxbuf) (c : Cid) :
    Memory.wf (s.disconnect c).rxbuf := tsorted_tdel h c

/-! ### Pending records -/

theorem State.pend?_putPend_same (s : State) (d : Digits) (r : PendRec) : (s.putPend d r).pend? d = some r :=
  tget_tput_same ..

theorem State.pend?_putPend_other (s : State) {d e : Digits} (r : PendRec) (h : e ≠ d) :
    (s.putPend d r).pend? e = s.pend? e := tget_tput_other _ _ h

theorem State.pend?_delPend_same (s : State) (d : Digits) : (s.delPend d).pend? d = none := tget_tdel_same ..

theorem State.pend?_delPend_other (s : State) {d e : Digits} (h : e ≠ d) :
    (s.delPend d).pend? e = s.pend? e := tget_tdel_other _ h

/-! ### Requests (R255, R256, R263) -/

theorem State.mem_holders {s : State} {d : Digits} {c : Cid} :
    c ∈ s.holders d ↔ ∃ r, (c, r) ∈ s.sess ∧ r.imei = some d := by
  simp [State.holders]

theorem State.holders_eq_nil {s : State} {d : Digits} :
    s.holders d = [] ↔ ∀ c r, (c, r) ∈ s.sess → r.imei ≠ some d := by
  rw [List.eq_nil_iff_forall_not_mem]
  simp only [State.mem_holders, not_exists, not_and]

/-- The free choice falls on one of the candidates. -/
theorem State.chosen_mem (s : State) (c : Cid) (cs : List Cid) : s.chosen c cs ∈ c :: cs := by
  cases cs with
  | nil => simp [State.chosen]
  | cons d ds =>
    have hlt : Config.freeChoice s.choice % (ds.length + 2) < (c :: d :: ds).length := by
      exact Nat.mod_lt _ (Nat.succ_pos _)
    simp only [State.chosen, List.getD_eq_getElem?_getD, List.getElem?_eq_getElem hlt, Option.getD_some]
    exact List.getElem_mem _

/-- A request that answers a next state was rejected for want of a connection, or sent its command on a session of the
device and recorded it. -/
theorem request_cases {id : Digits} {k : CmdKind} {ref : Option Ref} {now : Time} {s t : State}
    (h : request id k ref now s = .next t) :
    (s.holders id = [] ∧ t = s.rejectRequest ref .eNotConn) ∨
    (∃ c n, c ∈ s.holders id ∧ s.pendFull id = false ∧
      t = { s with choice := n }.sendCommand c id k ref now) := by
  unfold request at h
  split at h
  · exact .inl ⟨‹_›, (Host.Outcome.next.inj h).symm⟩
  · rename_i c cs hc
    split at h
    · cases h
    · rename_i hp
      exact .inr ⟨_, _, hc ▸ s.chosen_mem c cs, by simpa using hp, (Host.Outcome.next.inj h).symm⟩

theorem request_not_connected {id : Digits} (k : CmdKind) (ref : Option Ref) (now : Time) {s : State}
    (h : s.holders id = []) : request id k ref now s = .next (s.rejectRequest ref .eNotConn) := by
  simp [request, h]

/-- A request for a connected device is sent where `PEND` has room. -/
theorem request_sends {id : Digits} (k : CmdKind) (ref : Option Ref) (now : Time) {s : State} {c0 : Cid}
    (h : c0 ∈ s.holders id) (hp : s.pendFull id = false) :
    ∃ c n, c ∈ s.holders id ∧ request id k ref now s = .next ({ s with choice := n }.sendCommand c id k ref now) := by
  unfold request
  split
  · rename_i hc
    rw [hc] at h
    cases h
  · rename_i c cs hc
    exact ⟨s.chosen c cs, s.choiceAfter cs, hc ▸ s.chosen_mem c cs, by simp [hp]⟩

theorem State.pendFull_eq_false {s : State} {id : Digits} :
    s.pendFull id = false ↔ ∀ n, s.cfg.maxPend = some n → s.pend? id = none → s.pend.length < n := by
  unfold State.pendFull atCapacity
  cases h : s.cfg.maxPend with
  | none => simp
  | some m =>
    cases h' : s.pend? id <;> simp

/-- What C.FIRE can do (R260). -/
theorem fire_cases {id : Digits} {now : Time} {s t : State} (h : fire id now s = .next t) :
    (id, CmdKind.lock) ∈ s.deferred ∧ request id .lock none now (s.undefer id .lock) = .next t := by
  unfold fire at h
  split at h
  · exact ⟨‹_›, h⟩
  · cases h

/-! ### Confirmations (R257 to R259) -/

/-- What confirming a record changes. -/
theorem State.confirmed_frame (s : State) (id : Digits) (r : PendRec) :
    (s.confirmed id r).sess = s.sess ∧ (s.confirmed id r).rxbuf = s.rxbuf ∧
    (s.confirmed id r).pend = tdel s.pend id ∧
    (s.confirmed id r).deferred =
      (if r.kind = .batteryCheck then bput deferLt s.deferred (id, .lock) else s.deferred) ∧
    (s.confirmed id r).cfg = s.cfg ∧ (s.confirmed id r).crcR = s.crcR ∧ (s.confirmed id r).pos = s.pos ∧
    (s.confirmed id r).msg = s.msg ∧ (s.confirmed id r).result = s.result ∧ (s.confirmed id r).choice = s.choice ∧
    (s.confirmed id r).inbox = s.inbox ∧
    (s.confirmed id r).outs = s.outs ++ (match r.ref with | some ref => [.done ref] | none => [])
      ++ (if r.kind = .batteryCheck then [.sched id s.cfg.autoLockDelay] else []) := by
  obtain ⟨k, ref, sent⟩ := r
  cases k <;> cases ref <;> simp [State.confirmed]

/-- C.CONFIRM leaves the state, or confirms the record of the connection's identity. -/
theorem State.confirm_cases (s : State) (c : Cid) (t : Bytes) :
    s.confirm c t = s ∨
    ∃ id r, s.imeiOf c = some id ∧ s.pend? id = some r ∧ confirms t = true ∧ s.confirm c t = s.confirmed id r := by
  unfold State.confirm
  split
  · exact .inl rfl
  · rename_i id hid
    split
    · exact .inl rfl
    · rename_i r hr
      split
      · exact .inr ⟨id, r, hid, hr, ‹_›, rfl⟩
      · exact .inl rfl

/-! ### Frames and deliveries -/

/-- What the bytes of connection `cid` can do to a state: write its own session, but not the counter of it; remove
pending records; schedule follow-ups; append outputs, and send on no other connection (R321). -/
structure DeviceEffect (cid : Cid) (s t : State) : Prop where
  sess     : ∃ f : Session → Session, t.sess = tmod s.sess cid f ∧ ∀ r, (f r).cid = r.cid ∧ (f r).peer = r.peer ∧
    (f r).seq = r.seq ∧ ((f r).imei = r.imei ∨ ∃ d, (f r).imei = some d ∧ Digits.wf d = true)
  rxbuf    : t.rxbuf = s.rxbuf
  cfg      : t.cfg = s.cfg
  choice   : t.choice = s.choice
  inbox    : t.inbox = s.inbox
  outs     : ∃ o, t.outs = s.outs ++ o ∧ ∀ c b, Output.tx c b ∈ o → c = cid
  pendSub  : t.pend.Sublist s.pend
  pend     : ∀ id, t.pend? id = s.pend? id ∨ t.pend? id = none
  deferred : ∃ l : List Digits, t.deferred = l.foldl (fun m d => bput deferLt m (d, .lock)) s.deferred ∧
    ∀ d, d ∈ l → (∃ r, s.session? cid = some r ∧ r.imei = some d) ∨ Digits.wf d = true

theorem tmod_id {K V : Type} [DecidableEq K] (m : List (K × V)) (k : K) : tmod m k (fun v => v) = m := by
  have : (fun kv : K × V => if kv.1 = k then (kv.1, kv.2) else kv) = id := by
    funext kv
    split <;> rfl
  rw [tmod, this, List.map_id]

theorem tmod_tmod {K V : Type} [DecidableEq K] (m : List (K × V)) (k : K) (f g : V → V) :
    tmod (tmod m k f) k g = tmod m k (fun v => g (f v)) := by
  rw [tmod, tmod, tmod, List.map_map]
  refine List.map_congr_left fun kv _ => ?_
  by_cases h : kv.1 = k <;> simp [h]

theorem DeviceEffect.refl (cid : Cid) (s : State) : DeviceEffect cid s s :=
  { sess := ⟨fun r => r, (tmod_id ..).symm, fun _ => ⟨rfl, rfl, rfl, .inl rfl⟩⟩
    rxbuf := rfl, cfg := rfl, choice := rfl, inbox := rfl
    outs := ⟨[], by simp⟩, pendSub := List.Sublist.refl _, pend := fun _ => .inl rfl
    deferred := ⟨[], rfl, fun _ h => by cases h⟩ }

theorem DeviceEffect.trans {cid : Cid} {s t u : State} (h : DeviceEffect cid s t) (g : DeviceEffect cid t u) :
    DeviceEffect cid s u := by
  obtain ⟨f1, hf1, p1⟩ := h.sess
  obtain ⟨f2, hf2, p2⟩ := g.sess
  obtain ⟨o1, ho1, q1⟩ := h.outs
  obtain ⟨o2, ho2, q2⟩ := g.outs
  obtain ⟨l1, hl1, r1⟩ := h.deferred
  obtain ⟨l2, hl2, r2⟩ := g.deferred
  refine
    { sess := ⟨fun r => f2 (f1 r), by rw [hf2, hf1, tmod_tmod], fun r => ?_⟩
      rxbuf := g.rxbuf.trans h.rxbuf, cfg := g.cfg.trans h.cfg, choice := g.choice.trans h.choice
      inbox := g.inbox.trans h.inbox
      outs := ⟨o1 ++ o2, by rw [ho2, ho1, List.append_assoc], fun c b hm => ?_⟩
      pendSub := g.pendSub.trans h.pendSub
      pend := fun id => ?_
      deferred := ⟨l1 ++ l2, by rw [hl2, hl1, List.foldl_append], fun d hd => ?_⟩ }
  · obtain ⟨a1, a2, a3, a4⟩ := p1 r
    obtain ⟨b1, b2, b3, b4⟩ := p2 (f1 r)
    refine ⟨b1.trans a1, b2.trans a2, b3.trans a3, ?_⟩
    rcases b4 with b4 | b4
    · rcases a4 with a4 | ⟨d, a4, a5⟩
      · exact .inl (b4.trans a4)
      · exact .inr ⟨d, b4.trans a4, a5⟩
    · exact .inr b4
  · rcases List.mem_append.mp hm with hm | hm
    · exact q1 c b hm
    · exact q2 c b hm
  · rcases g.pend id with e | e
    · rcases h.pend id with e' | e'
      · exact .inl (e.trans e')
      · exact .inr (e.trans e')
    · exact .inr e
  · rcases List.mem_append.mp hd with hd | hd
    · exact r1 d hd
    · rcases r2 d hd with ⟨r, hr, hi⟩ | hw
      · have : t.session? cid = (s.session? cid).map f1 := by
          rw [State.session?, hf1, tget_tmod_same]
          rfl
        rw [this] at hr
        obtain ⟨r0, hr0, rfl⟩ := Option.map_eq_some_iff.mp hr
        rcases (p1 r0).2.2.2 with e | ⟨d', e, hw⟩
        · exact .inl ⟨r0, hr0, e.symm.trans hi⟩
        · rw [hi] at e
          obtain rfl := Option.some.inj e
          exact .inr hw
      · exact .inr hw

/-- An update of transient registers, with outputs that send on no other connection. -/
theorem DeviceEffect.of_outs {cid : Cid} {s t : State} (h1 : t.sess = s.sess) (h2 : t.rxbuf = s.rxbuf)
    (h3 : t.pend = s.pend) (h4 : t.deferred = s.deferred) (h5 : t.cfg = s.cfg) (h6 : t.choice = s.choice)
    (h7 : t.inbox = s.inbox) (o : List Output) (h8 : t.outs = s.outs ++ o)
    (h9 : ∀ c b, Output.tx c b ∈ o → c = cid) : DeviceEffect cid s t :=
  { sess := ⟨fun r => r, by rw [tmod_id, h1], fun _ => ⟨rfl, rfl, rfl, .inl rfl⟩⟩
    rxbuf := h2, cfg := h5, choice := h6, inbox := h7, outs := ⟨o, h8, h9⟩
    pendSub := by rw [h3], pend := fun id => .inl (State.pend?_congr h3 id)
    deferred := ⟨[], h4, fun _ h => by cases h⟩ }

/-- A write of the connection's session that leaves its key, peer and counter. -/
theorem DeviceEffect.of_modSession (cid : Cid) (s : State) (f : Session → Session)
    (hf : ∀ r, (f r).cid = r.cid ∧ (f r).peer = r.peer ∧ (f r).seq = r.seq ∧
      ((f r).imei = r.imei ∨ ∃ d, (f r).imei = some d ∧ Digits.wf d = true)) :
    DeviceEffect cid s (s.modSession cid f) :=
  { sess := ⟨f, rfl, hf⟩, rxbuf := rfl, cfg := rfl, choice := rfl, inbox := rfl, outs := ⟨[], by simp⟩
    pendSub := List.Sublist.refl _, pend := fun _ => .inl rfl
    deferred := ⟨[], rfl, fun _ h => by cases h⟩ }

theorem DeviceEffect.login (cid : Cid) (s : State) {d : Digits} (h : d.wf = true) :
    DeviceEffect cid s (s.login cid d) :=
  .of_modSession cid s (fun r => { r with imei := some d }) fun _ => ⟨rfl, rfl, rfl, .inr ⟨d, rfl, h⟩⟩

theorem DeviceEffect.refresh (cid : Cid) (u : StatusUpdate) (now : Time) (s : State) :
    DeviceEffect cid s (s.refresh cid u now) :=
  .of_modSession cid s (fun r => { r with st := refreshedCache s.cfg.lowBattFn u now r.st })
    fun _ => ⟨rfl, rfl, rfl, .inl rfl⟩

theorem DeviceEffect.touch (cid : Cid) (now : Time) (s : State) : DeviceEffect cid s (s.touch cid now) :=
  .of_modSession cid s (fun r => { r with st := { r.st with upd := some now } }) fun _ => ⟨rfl, rfl, rfl, .inl rfl⟩

theorem DeviceEffect.sendAck (cid : Cid) (pp : AckProto) (n : U16) (s : State) :
    DeviceEffect cid s (s.sendAck cid pp n) :=
  .of_outs rfl rfl rfl rfl rfl rfl rfl [.tx cid (ackBytes pp n)] rfl (fun c b h => by simp at h; exact h.1)

theorem DeviceEffect.confirm (cid : Cid) (text : Bytes) (s : State) : DeviceEffect cid s (s.confirm cid text) := by
  rcases s.confirm_cases cid text with e | ⟨id, r, hi, hr, -, e⟩
  · rw [e]
    exact .refl cid s
  · rw [e]
    obtain ⟨h1, h2, h3, h4, h5, -, -, -, -, h6, h7, h8⟩ := s.confirmed_frame id r
    refine
      { sess := ⟨fun r => r, by rw [tmod_id, h1], fun _ => ⟨rfl, rfl, rfl, .inl rfl⟩⟩
        rxbuf := h2, cfg := h5, choice := h6, inbox := h7
        outs := ⟨_, by rw [h8, List.append_assoc], fun c b hm => ?_⟩
        pendSub := by rw [h3]; exact List.filter_sublist
        pend := fun d => ?_
        deferred := ⟨if r.kind = .batteryCheck then [id] else [], by rw [h4]; split <;> rfl, fun d hd => ?_⟩ }
    · exfalso
      cases hr : r.ref <;> by_cases hk : r.kind = .batteryCheck <;> simp [hr, hk] at hm
    · by_cases hd : d = id
      · subst hd
        exact .inr (by rw [State.pend?, h3, tget_tdel_same])
      · exact .inl (by rw [State.pend?, h3, tget_tdel_other _ hd]; rfl)
    · have : d = id := by
        split at hd
        · simpa using hd
        · cases hd
      subst this
      obtain ⟨r', hr', hi'⟩ := Option.bind_eq_some_iff.mp hi
      exact .inl ⟨r', hr', hi'⟩

/-- What an RX.* rule can do. -/
theorem recvRule_effect (rule : RxRule) (cid : Cid) (now : Time) (p : Bytes) (n : U16) (s : State) :
    DeviceEffect cid s (recvRule rule cid now p n s).2 := by
  cases rule <;> simp only [recvRule]
  · unfold recvLogin
    cases h : loginIdentity p with
    | none => exact .sendAck ..
    | some d => exact .trans (.login cid s (loginIdentity_wf h)) (.sendAck ..)
  · unfold recvHeartbeat
    split
    · exact .sendAck ..
    · exact .trans (.refresh ..) (.sendAck ..)
  · unfold recvLocBasic
    split
    · exact .sendAck ..
    · exact .trans (.touch ..) (.sendAck ..)
  · unfold recvLocExt
    split
    · exact .sendAck ..
    · exact .trans (.refresh ..) (.sendAck ..)
  · exact .confirm ..
  · exact .confirm ..
  · exact .refl cid s

theorem DeviceEffect.afterCheck (cid : Cid) (f : Bytes) (s : State) : DeviceEffect cid s (s.afterCheck f) := by
  unfold State.afterCheck
  split
  · exact .of_outs rfl rfl rfl rfl rfl rfl rfl [] (by simp) (by simp)
  · exact .refl cid s

/-- What one frame can do (R284). -/
theorem processed_effect (cid : Cid) (f : Bytes) (now : Time) (s : State) :
    DeviceEffect cid s (s.processed cid f now) := by
  unfold State.processed
  refine .trans (.afterCheck cid f s) ?_
  split
  · exact .of_outs rfl rfl rfl rfl rfl rfl rfl [.log _] rfl (by simp)
  · exact .trans (recvRule_effect ..) (.of_outs rfl rfl rfl rfl rfl rfl rfl [.log _] rfl (by simp))

/-- What the frames of one delivery can do (R283). -/
theorem processAll_effect (cid : Cid) (fs : List Bytes) (now : Time) (s : State) :
    DeviceEffect cid s (s.processAll cid fs now) := by
  induction fs generalizing s with
  | nil => exact .refl cid s
  | cons f fs ih => exact .trans (processed_effect cid f now s) (ih _)

theorem DeviceEffect.otherSessions {cid : Cid} {s t : State} (h : DeviceEffect cid s t) :
    OtherSessionsKept cid s t := by
  obtain ⟨f, hf, -⟩ := h.sess
  intro c hc
  rw [State.session?, hf, tget_tmod_other _ _ hc]
  rfl

theorem DeviceEffect.keys {cid : Cid} {s t : State} (h : DeviceEffect cid s t) : tkeys t.sess = tkeys s.sess := by
  obtain ⟨f, hf, -⟩ := h.sess
  rw [hf, tkeys_tmod]

theorem DeviceEffect.connected {cid : Cid} {s t : State} (h : DeviceEffect cid s t) (c : Cid) :
    t.connected c = s.connected c := by
  rw [Bool.eq_iff_iff, State.connected, State.connected, State.session?, State.session?, tget_isSome, tget_isSome,
    h.keys]

end Sys2Proof.Machine
end

