-- ==== Sys2Proof/Tests/Slice0.lean ====
section
/-!
SUPPORT. Tests: the checks of WellFormed refuse ill-formed operands; words written out from the spec's encodings decode
to what they stand for; the vectors of `95_test_vectors.md`, one step each on a small state; and, for every statement
that has hypotheses, a state and operands that meet them all.
-/

namespace Sys2Proof.Tests

open Sys2Proof Sys2Proof.Machine

-- each `decide +kernel` waits for the theorems before it, and a thread for each would exhaust the memory limit
set_option Elab.async false

/-! ### Frames and states -/

/-- `A` of `95_test_vectors.md`. -/
def frameA : Bytes := [0x78, 0x78, 0x05, 0x01, 0x00, 0x01, 0xD9, 0xDC, 0x0D, 0x0A]

/-- `B` of `95_test_vectors.md`. -/
def frameB : Bytes := [0x78, 0x78, 0x09, 0x13, 0x46, 0x06, 0x04, 0x01, 0x00, 0x02, 0x18, 0x46, 0x0D, 0x0A]

/-- `LOGIN` of `95_test_vectors.md`. -/
def frameLogin : Bytes := [0x78, 0x78, 0x0D, 0x01, 0x08, 0x67, 0x13, 0x45, 0x09, 0x02, 0x01, 0x5F, 0x00, 0x01, 0x3F,
    0xF1, 0x0D, 0x0A]

/-- `SAMPLE` of `95_test_vectors.md`, the source's own sample frame. -/
def frameSample : Bytes := [0x78, 0x78, 0x1F, 0x12, 0x19, 0x0C, 0x04, 0x0E, 0x21, 0x1D, 0xC9, 0x02, 0xBD, 0xD9, 0x78,
    0x05, 0x46, 0x73, 0xD8, 0x00, 0x98, 0x00, 0x02, 0xD4, 0x06, 0xC5, 0x6D, 0x00, 0xAA, 0x33, 0x00, 0x50, 0x23, 0xC3,
    0x0D, 0x0A]

/-- The response `OK` of V-CMD-8, serial 1. -/
def okFrame : Bytes := [0x78, 0x78, 0x07, 0x21, 0x4F, 0x4B, 0x00, 0x01, 0x1A, 0x9C, 0x0D, 0x0A]

/-- `ID`, the digits 86713450902015. -/
def idBytes : Bytes := [0x38, 0x36, 0x37, 0x31, 0x33, 0x34, 0x35, 0x30, 0x39, 0x30, 0x32, 0x30, 0x31, 0x35]

/-- V-TXC-1. -/
def lockFrame : Bytes := [0x78, 0x78, 0x12, 0x80, 0x0C, 0x00, 0x00, 0x00, 0x00, 0x52, 0x65, 0x6C, 0x61, 0x79, 0x2C,
    0x31, 0x23, 0x00, 0x01, 0x8C, 0x67, 0x0D, 0x0A]

/-- V-TXC-2. -/
def unlockFrame : Bytes := [0x78, 0x78, 0x12, 0x80, 0x0C, 0x00, 0x00, 0x00, 0x00, 0x52, 0x65, 0x6C, 0x61, 0x79, 0x2C,
    0x30, 0x23, 0x00, 0x01, 0x90, 0xDC, 0x0D, 0x0A]

/-- The configuration of the vectors: VERIFY_RX_CRC true, the default LOW_BATT_FN, capacities the tests do not reach. -/
def cfg : Config.Params :=
  { verifyRxCrc := true, lowBattFn := Config.defaultLowBatt, autoLockDelay := ⟨5⟩, rxBufCap := some 64
    maxConn := some 2, maxPend := some 1 }

/-- The same, checksums not verified. -/
def cfgLax : Config.Params := { cfg with verifyRxCrc := false }

/-- Connection 7, just made. -/
def fresh : State := (State.resetWith cfg).connect ⟨7⟩ ⟨[0x70]⟩

/-- Connection 7, its session as made. -/
def freshSession : Session := Session.fresh ⟨7⟩ ⟨[0x70]⟩

/-- Connection 7, logged in as `ID`. -/
def logged : State := fresh.login ⟨7⟩ idBytes

/-- The session of `logged`. -/
def loggedSession : Session := { freshSession with imei := some idBytes }

/-- `logged`, with a pending battery check of reference 3. -/
def sent : State := logged.putPend idBytes { kind := .batteryCheck, ref := some ⟨3⟩, sent := ⟨1⟩ }

/-- `logged`, with a scheduled follow-up. -/
def due : State := logged.defer idBytes .lock

/-- The outcome is a next state with a property. -/
def nextIs (o : Host.Outcome State Fault Refusal) (p : State → Bool) : Bool :=
  match o with
  | .next t => p t
  | _ => false

/-- The outcome is a refusal for this reason. -/
def refusedAs (o : Host.Outcome State Fault Refusal) (r : Refusal) : Bool :=
  match o with
  | .refused r' => r' = r
  | _ => false

/-- What a decoder answered, as an option. -/
def decoded (o : Except Cond Instr) : Option Instr :=
  match o with
  | .ok i => some i
  | .error _ => none

/-- What `decoded` says of the answer. -/
theorem ok_of_decoded {o : Except Cond Instr} {i : Instr} (h : decoded o = some i) : o = .ok i := by
  cases o <;> simp_all [decoded]

/-! ### WellFormed: an ill-formed term for each check, refused -/

/-- R90: a payload of 251 bytes does not fit its length byte. -/
theorem test_wf_payload_too_long :
    (Instr.rxHeartbeat ⟨7⟩ ⟨1⟩ (List.replicate 251 0) 1).wf = false ∧
      (Instr.rxHeartbeat ⟨7⟩ ⟨1⟩ (List.replicate 250 0) 1).wf = true := by decide +kernel

/-- R90, for the unknown form. -/
theorem test_wf_unknown_payload_too_long :
    (Instr.rxUnknown ⟨7⟩ ⟨1⟩ 0x99 (List.replicate 251 0) 1).wf = false := by decide +kernel

/-- R107: RX.UNKNOWN does not take the six known protocol-ids. -/
theorem test_wf_unknown_known_proto :
    ([0x01, 0x13, 0x12, 0x22, 0x21, 0x15].map fun b => (Instr.rxUnknown ⟨7⟩ ⟨1⟩ b [] 1).wf) =
      [false, false, false, false, false, false] ∧ (Instr.rxUnknown ⟨7⟩ ⟨1⟩ 0x80 [] 1).wf = true := by decide +kernel

/-- R217: a command text of 246 bytes does not fit. -/
theorem test_wf_command_too_long :
    (Instr.txCmd (List.replicate 246 0x41) 1).wf = false ∧ (Instr.txCmd (List.replicate 245 0x41) 1).wf = true
    := by decide +kernel

/-- R12: an identity is not empty, has no leading zero, only digits, at most 16 of them. -/
theorem test_wf_identity :
    (Instr.sLogin ⟨7⟩ []).wf = false ∧ (Instr.sLogin ⟨7⟩ [0x30, 0x31]).wf = false ∧
      (Instr.sLogin ⟨7⟩ [0x31, 0x41]).wf = false ∧ (Instr.sLogin ⟨7⟩ (List.replicate 17 0x31)).wf = false ∧
      (Instr.sLogin ⟨7⟩ (List.replicate 16 0x31)).wf = true := by decide +kernel

/-! ### Decoding: words written out from the encodings of R90 to R97, R107, R114 -/

/-- V-LOG-1. -/
theorem test_decode_rx_login :
    decoded (decodeSpan true ⟨7⟩ ⟨1⟩ [0x78, 0x78, 0x0D, 0x01, 0x08, 0x67, 0x13, 0x45, 0x09, 0x02, 0x01, 0x5F, 0x00,
    0x01, 0x3F, 0xF1, 0x0D, 0x0A]) =
      some (.rxLogin ⟨7⟩ ⟨1⟩ [0x08, 0x67, 0x13, 0x45, 0x09, 0x02, 0x01, 0x5F] 1) := by decide +kernel

/-- V-HB-6. -/
theorem test_decode_rx_heartbeat :
    decoded (decodeSpan true ⟨7⟩ ⟨1⟩ [0x78, 0x78, 0x09, 0x13, 0x9C, 0x02, 0x03, 0x00, 0x00, 0x01, 0x66, 0xFD, 0x0D,
    0x0A]) =
      some (.rxHeartbeat ⟨7⟩ ⟨1⟩ [0x9C, 0x02, 0x03, 0x00] 1) := by decide +kernel

/-- V-L12-2: serial 0x0102. -/
theorem test_decode_rx_loc_basic :
    decoded (decodeSpan true ⟨7⟩ ⟨1⟩ [0x78, 0x78, 0x17, 0x12, 0x21, 0x06, 0x15, 0x08, 0x30, 0x45, 0xA7, 0x02, 0x69,
    0xFB, 0x20, 0x0C, 0x3B, 0x1A, 0x80, 0x58, 0x15, 0x2C, 0x01, 0x02, 0x6E, 0xE1, 0x0D, 0x0A]) =
      some (.rxLocBasic ⟨7⟩ ⟨1⟩ [0x21, 0x06, 0x15, 0x08, 0x30, 0x45, 0xA7, 0x02, 0x69, 0xFB, 0x20, 0x0C, 0x3B, 0x1A,
      0x80, 0x58, 0x15, 0x2C] 0x0102) := by decide +kernel

/-- V-L22-2: serial 0x0010. -/
theorem test_decode_rx_loc_ext :
    decoded (decodeSpan true ⟨7⟩ ⟨1⟩ [0x78, 0x78, 0x18, 0x22, 0x0B, 0x03, 0x1A, 0x0B, 0x1E, 0x2D, 0xC5, 0x82, 0x00,
    0x00, 0x00, 0x00, 0x00, 0x00, 0x00, 0x01, 0xFF, 0x03, 0xFF, 0x00, 0x10, 0x82, 0x85, 0x0D, 0x0A]) =
      some (.rxLocExt ⟨7⟩ ⟨1⟩ [0x0B, 0x03, 0x1A, 0x0B, 0x1E, 0x2D, 0xC5, 0x82, 0x00, 0x00, 0x00, 0x00, 0x00, 0x00,
      0x00, 0x01, 0xFF, 0x03, 0xFF] 0x0010) := by decide +kernel

/-- V-RSP-2. -/
theorem test_decode_rx_cmdresp21 :
    decoded (decodeSpan true ⟨7⟩ ⟨1⟩ [0x78, 0x78, 0x0E, 0x21, 0x4C, 0x4F, 0x43, 0x4B, 0x3A, 0x66, 0x61, 0x69, 0x6C,
    0x00, 0x07, 0xCE, 0x5B, 0x0D, 0x0A]) =
      some (.rxCmdResp21 ⟨7⟩ ⟨1⟩ [0x4C, 0x4F, 0x43, 0x4B, 0x3A, 0x66, 0x61, 0x69, 0x6C] 7) := by decide +kernel

/-- V-RSP-8: serial 9. -/
theorem test_decode_rx_cmdresp15 :
    decoded (decodeSpan true ⟨7⟩ ⟨1⟩ [0x78, 0x78, 0x11, 0x15, 0x4C, 0x4F, 0x43, 0x4B, 0x3A, 0x73, 0x75, 0x63, 0x63,
    0x65, 0x73, 0x73, 0x00, 0x09, 0xF1, 0x7F, 0x0D, 0x0A]) =
      some (.rxCmdResp15 ⟨7⟩ ⟨1⟩ [0x4C, 0x4F, 0x43, 0x4B, 0x3A, 0x73, 0x75, 0x63, 0x63, 0x65, 0x73, 0x73] 9)
      := by decide +kernel

/-- V-UNK-1. -/
theorem test_decode_rx_unknown :
    decoded (decodeSpan true ⟨7⟩ ⟨1⟩ [0x78, 0x78, 0x05, 0x99, 0x00, 0x01, 0x96, 0x67, 0x0D, 0x0A]) =
      some (.rxUnknown ⟨7⟩ ⟨1⟩ 0x99 [] 1) := by decide +kernel

/-- V-UNK-2: the block's own command protocol-id, received. -/
theorem test_decode_rx_unknown_own_command :
    decoded (decodeSpan true ⟨7⟩ ⟨1⟩ [0x78, 0x78, 0x05, 0x80, 0x00, 0x01, 0x8F, 0xEC, 0x0D, 0x0A]) =
      some (.rxUnknown ⟨7⟩ ⟨1⟩ 0x80 [] 1) := by decide +kernel

/-- V-ACK-2, V-ACK-5, V-ACK-6, V-ACK-7. -/
theorem test_decode_acks :
    decoded (decodeOutbound [0x78, 0x78, 0x05, 0x01, 0x00, 0x00, 0xC8, 0x55, 0x0D, 0x0A]) = some (.txAck01 0) ∧
      decoded (decodeOutbound [0x78, 0x78, 0x05, 0x13, 0xFF, 0xFF, 0x08, 0xC0, 0x0D, 0x0A]) = some (.txAck13 0xFFFF) ∧
      decoded (decodeOutbound [0x78, 0x78, 0x05, 0x12, 0x00, 0x50, 0xF0, 0x21, 0x0D, 0x0A]) = some (.txAck12 0x50) ∧
      decoded (decodeOutbound [0x78, 0x78, 0x05, 0x22, 0x00, 0x03, 0x16, 0x91, 0x0D, 0x0A]) = some (.txAck22 3)
      := by decide +kernel

/-- V-TXC-1 and V-TXC-7. -/
theorem test_decode_command :
    decoded (decodeOutbound lockFrame) = some (.txCmd [0x52, 0x65, 0x6C, 0x61, 0x79, 0x2C, 0x31, 0x23] 1) ∧
      decoded (decodeOutbound [0x78, 0x78, 0x0A, 0x80, 0x04, 0x00, 0x00, 0x00, 0x00, 0x00, 0x01, 0xE0, 0xCA, 0x0D,
      0x0A]) = some (.txCmd [] 1) := by decide +kernel

/-- R114: the three tokens. -/
theorem test_decode_tokens :
    decoded (decodeToken idBytes ⟨1⟩ ⟨2⟩ [0x42, 0x4C, 0x4F, 0x51, 0x55, 0x45, 0x41, 0x52]) = some (.cmdBloquear
    idBytes ⟨1⟩ ⟨2⟩) ∧
      decoded (decodeToken idBytes ⟨1⟩ ⟨2⟩ [0x4C, 0x49, 0x42, 0x45, 0x52, 0x41, 0x52]) = some (.cmdLiberar idBytes
      ⟨1⟩ ⟨2⟩) ∧
      decoded (decodeToken idBytes ⟨1⟩ ⟨2⟩ [0x42, 0x41, 0x54, 0x45, 0x52, 0x49, 0x41]) = some (.cmdBateria idBytes
      ⟨1⟩ ⟨2⟩) := by decide +kernel

/-- V-CMD-5: lower case, a trailing space, the empty token are no tokens. -/
theorem test_decode_tokens_exact :
    decoded (decodeToken idBytes ⟨1⟩ ⟨2⟩ [0x62, 0x6C, 0x6F, 0x71, 0x75, 0x65, 0x61, 0x72]) = none ∧
      decoded (decodeToken idBytes ⟨1⟩ ⟨2⟩ [0x42, 0x4C, 0x4F, 0x51, 0x55, 0x45, 0x41, 0x52, 0x20]) = none ∧ decoded
      (decodeToken idBytes ⟨1⟩ ⟨2⟩ []) = none := by decide +kernel

/-- The fixed bits of the opcode table's rows, free bits zero: each gives its row's operation. -/
theorem test_table_words :
    ([0x78780001, 0x78780013, 0x78780012, 0x78780022, 0x78780021, 0x78780015, 0x78780000].map
      (decodeTableWord 32)) =
      [some (.rxLogin ⟨0⟩ ⟨0⟩ [] 0), some (.rxHeartbeat ⟨0⟩ ⟨0⟩ [] 0), some (.rxLocBasic ⟨0⟩ ⟨0⟩ [] 0),
        some (.rxLocExt ⟨0⟩ ⟨0⟩ [] 0), some (.rxCmdResp21 ⟨0⟩ ⟨0⟩ [] 0), some (.rxCmdResp15 ⟨0⟩ ⟨0⟩ [] 0),
        some (.rxUnknown ⟨0⟩ ⟨0⟩ 0 [] 0)] := by decide +kernel

/-- The outbound rows and the tokens. -/
theorem test_table_words_outbound :
    ([0x78780501, 0x78780513, 0x78780512, 0x78780522, 0x78780080].map (decodeTableWord 32)) =
      [some (.txAck01 0), some (.txAck13 0), some (.txAck12 0), some (.txAck22 0), some (.txCmd [] 0)] ∧
      decodeTableWord 56 0x4C494245524152 = some (.cmdLiberar [0x31] ⟨0⟩ ⟨0⟩) ∧
      decodeTableWord 56 0x42415445524941 = some (.cmdBateria [0x31] ⟨0⟩ ⟨0⟩) := by decide +kernel

/-- The step after `withFetchWord` runs the word's operation first, from reset. -/
theorem test_fetch_word_runs :
    nextIs (step (State.reset.withFetchWord 32 0x78780013)) (fun t => t.msg = some (.heartbeat none)) = true ∧
      nextIs (step (State.reset.withFetchWord 32 0x78780512))
        (fun t => t.result = .frame (ackFrame 0x12 0)) = true ∧
      nextIs (step (State.reset.withFetchWord 64 0x424C4F5155454152))
        (fun t => t.outs = [.reject (some ⟨0⟩) .eNotConn]) = true := by decide +kernel

/-! ### The Checksum Engine -/

/-- R130. -/
theorem test_crc_init :
    nextIs (exec .crcInit fresh) (fun t => t.crcR = 0xFFFF) = true := by decide +kernel

/-- V-CRC-19: 0xFFFF, 0x05 gives 0x541A; the next step of V-CRC-5 gives 0x91F9. -/
theorem test_crc_byte :
    nextIs (exec (.crcByte 0x05) (fresh.setCrc 0xFFFF)) (fun t => t.crcR = 0x541A) = true ∧
      nextIs (exec (.crcByte 0x01) (fresh.setCrc 0x541A)) (fun t => t.crcR = 0x91F9) = true := by decide +kernel

/-- R132's example. -/
theorem test_crc_final :
    nextIs (exec .crcFinal (fresh.setCrc 0xC464)) (fun t => t.result = .word 0xD9DC && t.crcR = 0xC464) = true
    := by decide +kernel

/-- V-CRC-4, V-CRC-1, V-CRC-18. -/
theorem test_crc_sum :
    nextIs (exec (.crcSum [0x31, 0x32, 0x33, 0x34, 0x35, 0x36, 0x37, 0x38, 0x39]) fresh)
        (fun t => t.result = .word 0x906E && t.crcR = 0x89F6) = true ∧
      crcSumOf [] = 0x0000 ∧ crcSumOf [0x00, 0x00] = 0x0F47 := by decide +kernel

/-- V-CRC-7: the stored checksum of the source's sample frame. -/
theorem test_crc_sum_sample :
    crcSumOf (slice frameSample 2 32) = 0x23C3 := by decide +kernel

/-- V-CRC-21. -/
theorem test_crc_verify :
    nextIs (exec (.crcVerify [0x05, 0x01, 0x00, 0x01] 0xD9DC) fresh) (fun t => t.result = .truth true) = true ∧
      nextIs (exec (.crcVerify [0x05, 0x01, 0x00, 0x01] 0xDCD9) fresh) (fun t => t.result = .truth false) = true
      := by decide +kernel

/-- V-CRC-20. -/
theorem test_reflections :
    reflect8 0x05 = 0xA0 ∧ reflect8 0x78 = 0x1E ∧ reflect16 0xC464 = 0x2623 ∧ reflect16 0x1021 = 0x8408
    := by decide +kernel

/-! ### The Frame Reassembler -/

/-- V-FR-11: a stop marker inside a frame cuts it; what follows it is skipped. -/
theorem test_scan_stop_inside :
    nextIs (exec (.frScan ([0x78, 0x78, 0x09, 0x13, 0x46, 0x06, 0x04, 0x01, 0x0D, 0x0A, 0x24, 0x76, 0x0D, 0x0A] ++
    frameA))
        fresh) (fun t => t.result = .frames [[0x78, 0x78, 0x09, 0x13, 0x46, 0x06, 0x04, 0x01, 0x0D, 0x0A], frameA]
        24) = true := by decide +kernel

/-- V-FR-8, V-FR-6, V-FR-10: what is retained, what is lost, a start marker inside a span. -/
theorem test_scan_retained :
    nextIs (exec (.frScan [0xAA, 0x78, 0x78, 0x09, 0x13, 0x46]) fresh)
        (fun t => t.result = .frames [] 0 && t.pos = 0) = true ∧
      nextIs (exec (.frScan [0x01, 0x02, 0x78]) fresh) (fun t => t.result = .frames [] 3 && t.pos = 3) = true ∧
      scan ([0x78, 0x78] ++ frameA) = ([[0x78, 0x78] ++ frameA], 12) := by decide +kernel

/-! ### Structural checks and the header -/

/-- V-CHK-1, V-CHK-9, V-CHK-2, V-CHK-3, V-CHK-7 and V-CHK-12 with VERIFY_RX_CRC. -/
theorem test_dec_check_order :
    ([[0x78, 0x78, 0x0D, 0x0A], [0x79, 0x78, 0x05, 0x01, 0x00, 0x01, 0xD9, 0xDC, 0x0D, 0x0A],
      [0x78, 0x78, 0x09, 0x13, 0x46, 0x06, 0x04, 0x01, 0x0D, 0x0A], [0x78, 0x78, 0x03, 0x01, 0x00, 0x01, 0xD9, 0xDC,
      0x0D, 0x0A],
      [0x78, 0x78, 0x05, 0x99, 0x00, 0x01, 0xCC, 0xCC, 0x0D, 0x0A], [0x78, 0x78, 0xFF, 0x01, 0x0D, 0x0A],
      frameA].map (checkFrame true)) =
      [some .eShort, some .eStart, some .eTrunc, some .eLen, some .eCrc, some .eShort, none] := by decide +kernel

/-- V-CHK-7 and V-CHK-6: checksum not looked at; a span longer than declared passes. -/
theorem test_dec_check_lax :
    nextIs (exec (.decCheck [0x78, 0x78, 0x05, 0x99, 0x00, 0x01, 0xCC, 0xCC, 0x0D, 0x0A]) ((State.resetWith cfgLax)))
        (fun t => t.result = .passed) = true ∧
      nextIs (exec (.decCheck [0x78, 0x78, 0x05, 0x01, 0x00, 0x01, 0xD9, 0xDC, 0xFF, 0xFF, 0x0D, 0x0A]) fresh) (fun t
      => t.result = .passed) = true := by decide +kernel

/-- V-CHK-11. -/
theorem test_dec_header :
    nextIs (exec (.decHeader frameSample) fresh) (fun t => t.result = .header
        { len := 31, proto := 0x12, serial := 0x0050, cksum := 0x23C3,
          payload := [0x19, 0x0C, 0x04, 0x0E, 0x21, 0x1D, 0xC9, 0x02, 0xBD, 0xD9, 0x78, 0x05, 0x46, 0x73, 0xD8, 0x00,
          0x98, 0x00, 0x02, 0xD4, 0x06, 0xC5, 0x6D, 0x00, 0xAA, 0x33] }) = true := by decide +kernel

/-- R107. -/
theorem test_dec_dispatch :
    ([0x01, 0x13, 0x12, 0x22, 0x21, 0x15, 0x80, 0x00].map dispatchOf) =
      [.login, .heartbeat, .locBasic, .locExt, .cmdResp21, .cmdResp15, .unknown, .unknown] ∧
      nextIs (exec (.decDispatch 0x22) fresh) (fun t => t.result = .rule .locExt) = true := by decide +kernel

/-! ### The messages -/

/-- V-LOG-1. -/
theorem test_rx_login :
    nextIs (exec (.rxLogin ⟨7⟩ ⟨1⟩ [0x08, 0x67, 0x13, 0x45, 0x09, 0x02, 0x01, 0x5F] 1) fresh) (fun t =>
      t.msg = some (.login (some idBytes)) && t.imeiOf ⟨7⟩ = some idBytes && t.outs = [.tx ⟨7⟩ frameA]) = true
      := by decide +kernel

/-- V-LOG-4, V-LOG-3: a nibble 0xA, no digit left; the identity stays, the acknowledgement goes. -/
theorem test_rx_login_fails :
    nextIs (exec (.rxLogin ⟨7⟩ ⟨1⟩ [0x1A, 0x34, 0x56, 0x78, 0x90, 0x12, 0x34, 0x56] 1) logged) (fun t =>
      t.msg = some (.login none) && t.imeiOf ⟨7⟩ = some idBytes && t.outs = [.tx ⟨7⟩ frameA]) = true ∧
      identityOf (List.replicate 8 0xFF) = none ∧ identityOf (List.replicate 8 0x00) = none ∧
      identityOf [0x00, 0x00, 0x00, 0x00, 0x00, 0x00, 0x00, 0xF7] = some [0x37] := by decide +kernel

/-- V-HB-6. -/
theorem test_rx_heartbeat :
    nextIs (exec (.rxHeartbeat ⟨7⟩ ⟨1⟩ [0x9C, 0x02, 0x03, 0x00] 1) fresh) (fun t =>
      t.msg = some (.heartbeat (some
        { relay := true, gpsOn := false, alarm := .lowBatt, chg := true, ign := false,
          armed := false, volt := 2, gsm := 3, lang := 0 })) &&
      t.cacheOf ⟨7⟩ =
        { ign := some false, relay := some true, alarm := some .lowBatt, chg := some true,
          lowbatt := some true, volt := some 2, gsm := some 3, upd := some ⟨1⟩ }) = true := by decide +kernel

/-- V-HB-4: three bytes; acknowledged, cache unchanged. -/
theorem test_rx_heartbeat_short :
    nextIs (exec (.rxHeartbeat ⟨7⟩ ⟨1⟩ [0x1F, 0x06, 0x04] 4) fresh) (fun t =>
      t.msg = some (.heartbeat none) && t.cacheOf ⟨7⟩ = StatusCache.never &&
      t.outs = [.tx ⟨7⟩ [0x78, 0x78, 0x05, 0x13, 0x00, 0x04, 0xBE, 0x5C, 0x0D, 0x0A]]) = true := by decide +kernel

/-- V-SRC-4, V-L12-6: the source's sample frame on a fresh session. -/
theorem test_rx_loc_basic :
    nextIs (exec (.rxLocBasic ⟨7⟩ ⟨1⟩ [0x19, 0x0C, 0x04, 0x0E, 0x21, 0x1D, 0xC9, 0x02, 0xBD, 0xD9, 0x78, 0x05, 0x46,
    0x73, 0xD8, 0x00, 0x98, 0x00, 0x02, 0xD4] 0x50) fresh) (fun t =>
      t.msg = some (.locBasic (some
        { time := { year := 2019, month := 12, day := 4, hour := 14, minute := 21, second := 23 },
          sats := 9, lat := ⟨-45996408⟩, lon := ⟨-88503256⟩, speed := 0, course := 0, fix := true,
          ign := none, relay := none, alarm := none, chg := none, lowbatt := none, volt := none, gsm := none })) &&
      t.cacheOf ⟨7⟩ = { StatusCache.never with upd := some ⟨1⟩ } &&
      t.outs = [.tx ⟨7⟩ [0x78, 0x78, 0x05, 0x12, 0x00, 0x50, 0xF0, 0x21, 0x0D, 0x0A]]) = true := by decide +kernel

/-- V-L12-2: north and east, course 300. -/
theorem test_rx_loc_basic_fields :
    let f := basicFix [0x21, 0x06, 0x15, 0x08, 0x30, 0x45, 0xA7, 0x02, 0x69, 0xFB, 0x20, 0x0C, 0x3B, 0x1A, 0x80,
    0x58, 0x15, 0x2C] StatusCache.never
    f.lat = ⟨40500000⟩ ∧ f.lon = ⟨205200000⟩ ∧ f.course = 300 ∧ f.sats = 7 ∧ f.speed = 88 ∧ f.fix = true ∧
      f.time = { year := 2021, month := 6, day := 15, hour := 8, minute := 30, second := 45 } := by decide +kernel

/-- V-SRC-4: the exact coordinates. -/
theorem test_degrees :
    (⟨-45996408⟩ : Degrees).toRat = -638839 / 25000 ∧ (⟨-88503256⟩ : Degrees).toRat = -11062907 / 225000 := by
  constructor <;> norm_num [Degrees.toRat, Config.coordDiv]

/-- V-L22-4: V-L22-1 after V-HB-6. -/
theorem test_rx_loc_ext :
    nextIs (exec (.rxLocExt ⟨7⟩ ⟨2⟩ [0x19, 0x0C, 0x04, 0x0E, 0x21, 0x1D, 0xC9, 0x46, 0x02, 0xBD, 0xD9, 0x78, 0x05,
    0x46, 0x73, 0xD8, 0x3C, 0x0C, 0x30] 3)
      (fresh.refresh ⟨7⟩ (heartbeatUpdate [0x9C, 0x02, 0x03, 0x00]) ⟨1⟩)) (fun t =>
      t.msg = some (.locExt (some (
        { time := { year := 2019, month := 12, day := 4, hour := 14, minute := 21, second := 23 },
          sats := 9, lat := ⟨-45996408⟩, lon := ⟨-88503256⟩, speed := 60, course := 48, fix := true,
          ign := some true, relay := some false, alarm := some .normal, chg := some true,
          lowbatt := some false, volt := some 2, gsm := some 3 },
        { relay := false, gpsOn := true, alarm := .normal, chg := true, ign := true, armed := false }))) &&
      t.cacheOf ⟨7⟩ =
        { ign := some true, relay := some false, alarm := some .normal, chg := some true,
          lowbatt := some false, volt := some 2, gsm := some 3, upd := some ⟨2⟩ } &&
      t.outs = [.tx ⟨7⟩ [0x78, 0x78, 0x05, 0x22, 0x00, 0x03, 0x16, 0x91, 0x0D, 0x0A]]) = true := by decide +kernel

/-- V-L22-3: 18 bytes; no refresh, acknowledged. -/
theorem test_rx_loc_ext_short :
    nextIs (exec (.rxLocExt ⟨7⟩ ⟨2⟩ (List.replicate 18 0) 4) fresh) (fun t => t.msg = some (.locExt none) &&
      t.cacheOf ⟨7⟩ = StatusCache.never && t.outs = [.tx ⟨7⟩ [0x78, 0x78, 0x05, 0x22, 0x00, 0x04, 0x62, 0x2E, 0x0D,
      0x0A]]) = true := by decide +kernel

/-- V-RSP-3's payload confirms the pending battery check of `sent` (V-CMD-1, P2 step 3). -/
theorem test_rx_cmdresp21 :
    nextIs (exec (.rxCmdResp21 ⟨7⟩ ⟨2⟩ [0x0B, 0x00, 0x00, 0x00, 0x01, 0x52, 0x65, 0x6C, 0x61, 0x79, 0x2C, 0x31, 0x23,
    0x20, 0x4F, 0x4B, 0x00, 0x01] 7) sent) (fun t =>
      t.msg = some (.cmdResp [0x52, 0x65, 0x6C, 0x61, 0x79, 0x2C, 0x31, 0x23, 0x20, 0x4F, 0x4B]) && t.pend = [] &&
      t.deferred = [(idBytes, .lock)] &&
      t.outs = [.done ⟨3⟩, .sched idBytes ⟨5⟩]) = true := by decide +kernel

/-- V-CMD-2's text, `LOCK:fail`, on protocol-id 0x15: nothing is confirmed. -/
theorem test_rx_cmdresp15 :
    nextIs (exec (.rxCmdResp15 ⟨7⟩ ⟨2⟩ [0x4C, 0x4F, 0x43, 0x4B, 0x3A, 0x66, 0x61, 0x69, 0x6C] 7) sent) (fun t =>
    t.pend = sent.pend && t.outs = []) = true := by decide +kernel

/-- The text and confirms examples of section 5. -/
theorem test_confirms :
    textOf [0x00, 0x1F, 0x41, 0x7F, 0x42, 0x20, 0x80] = [0x41, 0x42, 0x20, 0x80] ∧
      ([[0x4F, 0x4B], [0x4C, 0x4F, 0x4F, 0x4B], [0x53, 0x55, 0x43, 0x43, 0x45, 0x53, 0x53, 0x46, 0x55, 0x4C], [0x54,
      0x6F, 0x6B, 0x65, 0x6E]].map confirms) = [true, true, true, true] ∧
      ([[0x75, 0x6E, 0x6C, 0x6F, 0x63, 0x6B], [0x6F, 0x20, 0x6B], [0x53, 0x75, 0x63, 0x20, 0x63, 0x65, 0x73, 0x73],
      [0x4B], []].map confirms) =
        [false, false, false, false, false] := by decide +kernel

/-- V-UNK-1. -/
theorem test_rx_unknown :
    nextIs (exec (.rxUnknown ⟨7⟩ ⟨1⟩ 0x99 [] 1) sent) (fun t => t.msg = some .unknown && t.outs = [] &&
      t.pend = sent.pend && t.sess = sent.sess) = true := by decide +kernel

/-! ### Encoding -/

/-- V-ACK-1, V-ACK-5, V-ACK-6, V-ACK-7. -/
theorem test_tx_acks :
    nextIs (exec (.txAck01 1) fresh) (fun t => t.result = .frame frameA && t.outs = []) = true ∧
      nextIs (exec (.txAck13 0xFFFF) fresh) (fun t => t.result = .frame [0x78, 0x78, 0x05, 0x13, 0xFF, 0xFF, 0x08,
      0xC0, 0x0D, 0x0A]) = true ∧
      nextIs (exec (.txAck12 0x50) fresh) (fun t => t.result = .frame [0x78, 0x78, 0x05, 0x12, 0x00, 0x50, 0xF0,
      0x21, 0x0D, 0x0A]) = true ∧
      nextIs (exec (.txAck22 3) fresh) (fun t => t.result = .frame [0x78, 0x78, 0x05, 0x22, 0x00, 0x03, 0x16, 0x91,
      0x0D, 0x0A]) = true := by decide +kernel

/-- V-ACK-4 by the common form. -/
theorem test_tx_ack :
    nextIs (exec (.txAck .p13 2) fresh) (fun t => t.result = .frame [0x78, 0x78, 0x05, 0x13, 0x00, 0x02, 0xDB, 0x6A,
    0x0D, 0x0A]) = true := by decide +kernel

/-- V-TXC-1 and V-TXC-6. -/
theorem test_tx_cmd :
    nextIs (exec (.txCmd [0x52, 0x65, 0x6C, 0x61, 0x79, 0x2C, 0x31, 0x23] 1) fresh) (fun t => t.result = .frame
    lockFrame) = true ∧
      nextIs (exec (.txCmd [0x52, 0x65, 0x6C, 0x61, 0x79, 0x2C, 0x31, 0x23] 0xFFFF) fresh) (fun t => t.result = .frame
        [0x78, 0x78, 0x12, 0x80, 0x0C, 0x00, 0x00, 0x00, 0x00, 0x52, 0x65, 0x6C, 0x61, 0x79, 0x2C, 0x31, 0x23, 0xFF,
        0xFF, 0x6D, 0x56, 0x0D, 0x0A]) = true := by decide +kernel

/-- V-TXC-8. -/
theorem test_tx_cmd_limit :
    nextIs (exec (.txCmd (List.replicate 246 0x41) 1) fresh) (fun t => t.result = .raised .eCmdLen) = true ∧
      slice (cmdBody (List.replicate 245 0x41) 1) 0 3 = [0xFF, 0x80, 0xF9] := by decide +kernel

/-! ### Sessions -/

/-- V-SES-1. -/
theorem test_s_connect :
    nextIs (exec (.sConnect ⟨9⟩ ⟨[]⟩) sent) (fun t => t.imeiOf ⟨9⟩ = none && t.seqOf ⟨9⟩ = 1 &&
      t.cacheOf ⟨9⟩ = StatusCache.never && t.rxbuf? ⟨9⟩ = some [] && t.pend = sent.pend) = true := by decide +kernel

/-- R231's example. -/
theorem test_s_login :
    nextIs (exec (.sLogin ⟨7⟩ idBytes) fresh) (fun t => t.session? ⟨7⟩ = some loggedSession) = true
    := by decide +kernel

/-- R232's example, and that absent voltage and GSM stay. -/
theorem test_s_refresh :
    nextIs (exec (.sRefresh ⟨7⟩
      { ign := true, relay := false, alarm := .normal, chg := true, volt := some 6, gsm := some 4 } ⟨1⟩) fresh)
      (fun t => t.cacheOf ⟨7⟩ =
        { ign := some true, relay := some false, alarm := some .normal, chg := some true,
          lowbatt := some false, volt := some 6, gsm := some 4, upd := some ⟨1⟩ }) = true := by decide +kernel

/-- R233's example. -/
theorem test_s_touch :
    nextIs (exec (.sTouch ⟨7⟩ ⟨2⟩) fresh) (fun t => t.cacheOf ⟨7⟩ = { StatusCache.never with upd := some ⟨2⟩ }) =
    true := by decide +kernel

/-- R234's example. -/
theorem test_s_status :
    nextIs (exec (.sStatus ⟨7⟩) fresh) (fun t => t.result = .snapshot StatusCache.never) = true := by decide +kernel

/-- V-SES-3: after 0xFFFF comes 1. -/
theorem test_s_nextserial :
    nextIs (exec (.sNextSerial ⟨7⟩) (fresh.modSession ⟨7⟩ fun r => { r with seq := 0xFFFF }))
      (fun t => t.result = .word 0xFFFF && t.seqOf ⟨7⟩ = 1) = true := by decide +kernel

/-- R236's example: the pending record stays. -/
theorem test_s_disconnect :
    nextIs (exec (.sDisconnect ⟨7⟩) sent) (fun t => t.sess = [] && t.rxbuf = [] && t.pend = sent.pend) = true
    := by decide +kernel

/-! ### Commands -/

/-- V-CMD-1. -/
theorem test_cmd_bloquear :
    nextIs (exec (.cmdBloquear idBytes ⟨1⟩ ⟨1⟩) logged) (fun t => t.outs = [.tx ⟨7⟩ lockFrame] &&
      t.pend = [(idBytes, { kind := .lock, ref := some ⟨1⟩, sent := ⟨1⟩ })] && t.seqOf ⟨7⟩ = 2) = true
      := by decide +kernel

/-- V-CMD-3: an UNLOCK replaces the pending record. -/
theorem test_cmd_liberar :
    nextIs (exec (.cmdLiberar idBytes ⟨2⟩ ⟨2⟩) sent) (fun t => t.outs = [.tx ⟨7⟩ unlockFrame] &&
      t.pend = [(idBytes, { kind := .unlock, ref := some ⟨2⟩, sent := ⟨2⟩ })]) = true := by decide +kernel

/-- V-CMD-4, serial 1: the same bytes as UNLOCK. -/
theorem test_cmd_bateria :
    nextIs (exec (.cmdBateria idBytes ⟨3⟩ ⟨3⟩) logged) (fun t => t.outs = [.tx ⟨7⟩ unlockFrame] &&
      t.pend = [(idBytes, { kind := .batteryCheck, ref := some ⟨3⟩, sent := ⟨3⟩ })]) = true := by decide +kernel

/-- V-CMD-6: no session holds `111`. -/
theorem test_c_request :
    nextIs (exec (.cRequest [0x31, 0x31, 0x31] .lock (some ⟨5⟩) ⟨1⟩) sent) (fun t =>
      t.outs = [.reject (some ⟨5⟩) .eNotConn] && t.pend = sent.pend && t.sess = sent.sess) = true := by decide +kernel

/-- V-CMD-8: a response on a connection without identity confirms nothing. -/
theorem test_c_confirm :
    nextIs (exec (.cConfirm ⟨7⟩ [0x4F, 0x4B] ⟨2⟩) (sent.modSession ⟨7⟩ fun r => { r with imei := none }))
      (fun t => t.pend = sent.pend && t.outs = []) = true := by decide +kernel

/-- R260's example. -/
theorem test_c_fire :
    nextIs (exec (.cFire idBytes ⟨4⟩) due) (fun t => t.outs = [.tx ⟨7⟩ lockFrame] && t.deferred = [] &&
      t.pend = [(idBytes, { kind := .lock, ref := none, sent := ⟨4⟩ })]) = true := by decide +kernel

/-! ### Events -/

/-- R281; the third connection is refused where MAX_CONN is 2 (R296). -/
theorem test_ev_connect :
    nextIs (exec (.evConnect ⟨9⟩ ⟨[]⟩) fresh) (fun t => tkeys t.sess = [⟨7⟩, ⟨9⟩] && tkeys t.rxbuf = [⟨7⟩, ⟨9⟩]) =
    true ∧
      refusedAs (exec (.evConnect ⟨8⟩ ⟨[]⟩) (fresh.connect ⟨9⟩ ⟨[]⟩)) .connectionsFull = true := by decide +kernel

/-- V-SES-4, first half. -/
theorem test_ev_disconnect :
    nextIs (exec (.evDisconnect ⟨7⟩) sent) (fun t => t.session? ⟨7⟩ = none && t.pend = sent.pend && t.outs = []) =
    true := by decide +kernel

/-- P1, steps 1 and 2: a frame cut over two deliveries, the start of the next retained. -/
theorem test_ev_rx :
    nextIs (exec (.evRx ⟨7⟩ [0x67, 0x13, 0x45, 0x09, 0x02, 0x01, 0x5F, 0x00, 0x01, 0x3F, 0xF1, 0x0D, 0x0A, 0x78,
    0x78, 0x09, 0x13, 0x46, 0x06, 0x04] ⟨2⟩)
      (fresh.setRx ⟨7⟩ [0x78, 0x78, 0x0D, 0x01, 0x08])) (fun t => t.outs = [.tx ⟨7⟩ frameA, .log
        { imei := some idBytes, proto := some 0x01, serial := some 1, raw := frameLogin,
          decoded := .message (.login (some idBytes)) }] &&
      t.rxOf ⟨7⟩ = [0x78, 0x78, 0x09, 0x13, 0x46, 0x06, 0x04]) = true := by decide +kernel

/-- V-FR-14: the first byte of a marker delivered alone is lost. -/
theorem test_ev_rx_bytewise :
    nextIs (exec (.evRx ⟨7⟩ [0x78] ⟨1⟩) fresh) (fun t => t.rxOf ⟨7⟩ = [] && t.outs = []) = true ∧
      nextIs (exec (.evRx ⟨7⟩ [0x78, 0x78] ⟨1⟩) fresh) (fun t => t.rxOf ⟨7⟩ = [0x78, 0x78] && t.outs = []) = true
      := by decide +kernel

/-- V-CMD-5 and V-CMD-6: E_BADREQ is tested before E_NOTCONN. -/
theorem test_ev_cmd :
    nextIs (exec (.evCmd idBytes [0x54, 0x52, 0x41, 0x56, 0x41, 0x52] ⟨4⟩ ⟨1⟩) sent) (fun t => t.outs = [.reject
    (some ⟨4⟩) .eBadReq] &&
      t.pend = sent.pend) = true ∧
      nextIs (exec (.evCmd [0x31] [0x54, 0x52, 0x41, 0x56, 0x41, 0x52] ⟨6⟩ ⟨1⟩) sent) (fun t => t.outs = [.reject
      (some ⟨6⟩) .eBadReq]) = true := by decide +kernel

/-- P2: the follow-up finds the device gone. -/
theorem test_ev_timer :
    nextIs (exec (.evTimer idBytes ⟨4⟩) (due.disconnect ⟨7⟩)) (fun t => t.outs = [.reject none .eNotConn] &&
      t.deferred = [] && t.pend = []) = true := by decide +kernel

/-- P4: a corrupt frame under VERIFY_RX_CRC true. -/
theorem test_process_corrupt :
    nextIs (exec (.process ⟨7⟩ [0x78, 0x78, 0x09, 0x13, 0x46, 0x06, 0x04, 0x01, 0x00, 0x02, 0xE7, 0x46, 0x0D, 0x0A]
    ⟨1⟩) fresh) (fun t =>
      t.outs = [.log
        { imei := none, proto := none, serial := none, decoded := .dropped .eCrc,
          raw := [0x78, 0x78, 0x09, 0x13, 0x46, 0x06, 0x04, 0x01, 0x00, 0x02, 0xE7, 0x46, 0x0D, 0x0A] }] &&
      t.sess = fresh.sess && t.result = .outcome (.dropped .eCrc)) = true := by decide +kernel

/-- P4, under VERIFY_RX_CRC false: decoded and acknowledged. -/
theorem test_process_corrupt_lax :
    nextIs (exec (.process ⟨7⟩ [0x78, 0x78, 0x09, 0x13, 0x46, 0x06, 0x04, 0x01, 0x00, 0x02, 0xE7, 0x46, 0x0D, 0x0A]
    ⟨1⟩)
      ((State.resetWith cfgLax).connect ⟨7⟩ ⟨[]⟩)) (fun t =>
      t.txFrames ⟨7⟩ = [[0x78, 0x78, 0x05, 0x13, 0x00, 0x02, 0xDB, 0x6A, 0x0D, 0x0A]] && t.result = .outcome
      .accepted) = true := by decide +kernel

/-! ### Witnesses: for every statement with hypotheses, a state and operands that meet them all

A connection with a session is `fresh` or `logged`; connection 9 has none. -/

/-- `logged`'s tables stand in canonical form. -/
theorem logged_canonical : logged.Canonical :=
  ⟨by unfold tsorted; decide +kernel, by decide +kernel, by unfold tsorted; decide +kernel,
    by unfold bsorted; decide +kernel⟩

/-- A second connection, 9, logged in with the same identity. -/
def twice : State := (logged.connect ⟨9⟩ ⟨[]⟩).login ⟨9⟩ idBytes

/-- `logged`, a lock frame's answer pending, a follow-up scheduled, half a frame in the buffer and its other half
waiting. -/
def busy : State :=
  { (sent.defer idBytes .lock).setRx ⟨7⟩ [0x78, 0x78, 0x05, 0x01] with
    inbox := [.event (.rx ⟨7⟩ [0x00, 0x01, 0xD9, 0xDC, 0x0D, 0x0A] ⟨2⟩)] }

/-- `frameA` is a frame of the form R159 speaks of. -/
theorem frameA_clean : CleanFrame frameA :=
  ⟨by unfold StandsAt; decide +kernel, find_eq_some.mp (by decide +kernel), by decide⟩

/-- So is the least such frame: the two markers. -/
theorem markers_clean : CleanFrame [0x78, 0x78, 0x0D, 0x0A] :=
  ⟨by unfold StandsAt; decide +kernel, find_eq_some.mp (by decide +kernel), by decide⟩

/-- A buffer with a frame in it. -/
theorem witness_ScanSpansAreDelimited :
    ∃ t : State, exec (.frScan (0x11 :: frameA ++ [0x78])) fresh = .next t ∧ t.result = .frames [frameA] 12 ∧
      frameA ∈ [frameA] := ⟨_, rfl, by decide +kernel, by decide +kernel⟩

/-- Two such frames. -/
theorem witness_TwoFramesAndARemainder : CleanFrame frameA ∧ CleanFrame [0x78, 0x78, 0x0D, 0x0A] :=
  ⟨frameA_clean, markers_clean⟩

/-- A buffer of 64 bytes that the whole delivery fills, cut inside a frame; an unbounded one, cut after a byte 0x78 that
a retained frame keeps. -/
theorem witness_CutOfADeliveryDoesNotMatter :
    let s := { fresh with cfg := { cfg with rxBufCap := none } }
    fresh.session? ⟨7⟩ = some freshSession ∧ fresh.cfg.rxBufCap = some 64 ∧
      (fresh.rxOf ⟨7⟩ ++ [0x78, 0x78, 0x05] ++ List.replicate 61 0).length ≤ 64 ∧
      (fresh.rxOf ⟨7⟩ ++ [0x78, 0x78, 0x05]).getLast? ≠ some 0x78 ∧
      s.session? ⟨7⟩ = some freshSession ∧ s.cfg.rxBufCap = none ∧
      (scan (s.rxOf ⟨7⟩ ++ [0x78, 0x78])).2 < (s.rxOf ⟨7⟩ ++ [0x78, 0x78]).length := by decide +kernel

/-- One span for each clause, at the edge of its range: 9 bytes; a bad start marker on 10; one byte short of declared;
length byte 4; a wrong checksum; a right one; a wrong one not looked at. -/
theorem witness_CheckRaisesFirstCondition :
    ([[0x78, 0x78, 0x05, 0x01, 0x00, 0x01, 0xD9, 0xDC, 0x0D], 0x79 :: frameA.drop 1,
      [0x78, 0x78, 0x06, 0x01, 0x00, 0x01, 0xD9, 0xDC, 0x0D, 0x0A], [0x78, 0x78, 0x04, 0x01, 0x00, 0x01, 0xD9, 0xDC,
      0x0D, 0x0A],
      [0x78, 0x78, 0x05, 0x01, 0x00, 0x01, 0xD9, 0xDD, 0x0D, 0x0A], frameA].map (checkFrame true)) =
      [some .eShort, some .eStart, some .eTrunc, some .eLen, some .eCrc, none] ∧
    checkFrame false [0x78, 0x78, 0x05, 0x01, 0x00, 0x01, 0xD9, 0xDD, 0x0D, 0x0A] = none := by decide +kernel

/-- A span that passes with the least length byte, and one with trailing bytes. -/
theorem witness_HeaderFieldsLocatedByLength :
    checkFrame fresh.cfg.verifyRxCrc frameA = none ∧ checkFrame fresh.cfg.verifyRxCrc (frameSample ++ [0x11]) = none
      := by
  decide +kernel

/-- Every class of protocol-id is inhabited, 0x00 and 0xFF among the unknown ones. -/
theorem witness_DispatchIsTotal :
    ([0x00, 0xFF, 0x14] : List Byte).all (fun b => b ≠ 0x01 ∧ b ≠ 0x13 ∧ b ≠ 0x12 ∧ b ≠ 0x22 ∧ b ≠ 0x21 ∧ b ≠ 0x15) =
      true := by decide +kernel

/-- A span that decodes. -/
theorem witness_BytesAfterDeclaredEndIgnored :
    decoded (decodeSpan true ⟨7⟩ ⟨1⟩ frameB) = some (.rxHeartbeat ⟨7⟩ ⟨1⟩ [0x46, 0x06, 0x04, 0x01] 2) := by
  decide +kernel

/-- A session; a login that carries its identity, the nibbles of V-LOG-1, and the shortest that fails. -/
theorem witness_LoginRecordsIdentityAndAcks :
    fresh.session? ⟨7⟩ = some freshSession ∧ LoginCarries (slice frameLogin 4 12) idBytes ∧ LoginFails [] :=
  ⟨by decide +kernel, ⟨by decide +kernel, [0, 8, 6, 7, 1, 3, 4, 5, 0, 9, 0, 2, 0, 1, 5, 15], 1,
    ⟨rfl, by decide +kernel, [], by decide +kernel⟩, by decide +kernel⟩, .inl (by decide)⟩

/-- A session. Nibbles that carry an identity: one padding nibble on each side of 14 digits (V-LOG-1); a padding nibble
before every digit (`f1 f2 .. f8`); 16 digits. Nibbles that fail: one 10, one 14, only zeros and padding. 7 bytes. -/
theorem witness_PackedIdentityDecodes :
    let pads : List Nat := [15, 1, 15, 2, 15, 3, 15, 4, 15, 5, 15, 6, 15, 7, 15, 8]
    let eight : Digits := [0x31, 0x32, 0x33, 0x34, 0x35, 0x36, 0x37, 0x38]
    fresh.session? ⟨7⟩ = some freshSession ∧
      (Digits.wf idBytes = true ∧ [0, 8, 6, 7, 1, 3, 4, 5, 0, 9, 0, 2, 0, 1, 5, 15].filter (fun n => n ≠ 15) =
        List.replicate 1 0 ++ idBytes.map (fun c => c.toNat - 0x30)) ∧
      (Digits.wf eight = true ∧ packNibbles pads = [0xF1, 0xF2, 0xF3, 0xF4, 0xF5, 0xF6, 0xF7, 0xF8] ∧
        pads.filter (fun n => n ≠ 15) = List.replicate 0 0 ++ eight.map (fun c => c.toNat - 0x30)) ∧
      (Digits.wf (List.replicate 16 0x39) = true ∧ (List.replicate 16 9).filter (fun n => n ≠ 15) =
        List.replicate 0 0 ++ (List.replicate 16 (0x39 : Byte)).map (fun c => c.toNat - 0x30)) ∧
      (∃ n ∈ 10 :: List.replicate 15 1, 10 ≤ n ∧ n ≤ 14) ∧ (∃ n ∈ List.replicate 15 1 ++ [14], 10 ≤ n ∧ n ≤ 14) ∧
      (∀ n ∈ List.replicate 8 15 ++ List.replicate 8 0, n = 0 ∨ n = 15) ∧
      (List.replicate 7 (0x12 : Byte)).length < 8 := by decide +kernel

/-- A session; three bytes are short, four are not. -/
theorem witness_HeartbeatRefreshesCache :
    fresh.session? ⟨7⟩ = some freshSession ∧ ([0x46, 0x06, 0x04] : Bytes).length < 4 ∧
      slice frameB 4 8 = 0x46 :: 0x06 :: 0x04 :: 0x01 :: [] := by decide +kernel

/-- A session. -/
theorem witness_LocBasicDecodesAndTouches : fresh.session? ⟨7⟩ = some freshSession := by decide +kernel

/-- A session. -/
theorem witness_LocExtRefreshesThenReads : logged.session? ⟨7⟩ = some loggedSession := by decide +kernel

/-- A session; for each clause the longest payload that still fails; for the login also the nibble 0xA of V-LOG-4 and
the sixteen padding nibbles of V-LOG-3. -/
theorem witness_PayloadFailureStillAcks :
    fresh.session? ⟨7⟩ = some freshSession ∧ LoginFails (List.replicate 7 0x12) ∧
      LoginFails [0x1A, 0x34, 0x56, 0x78, 0x90, 0x12, 0x34, 0x56] ∧ LoginFails (List.replicate 8 0xFF) ∧
      (List.replicate 3 (0 : Byte)).length < 4 ∧ (List.replicate 17 (0 : Byte)).length < 18 ∧
      (List.replicate 18 (0 : Byte)).length < 19 :=
  ⟨by decide +kernel, .inl (by decide),
    .inr ⟨[1, 10, 3, 4, 5, 6, 7, 8, 9, 0, 1, 2, 3, 4, 5, 6], ⟨rfl, by decide +kernel, [], by decide +kernel⟩,
      .inl (by decide +kernel)⟩,
    .inr ⟨List.replicate 16 15, ⟨rfl, by decide +kernel, [], by decide +kernel⟩, .inr (by decide +kernel)⟩,
    by decide, by decide, by decide⟩

/-- A session. -/
theorem witness_CommandResponseConfirmsByText : sent.session? ⟨7⟩ = some loggedSession := by decide +kernel

/-- A session. -/
theorem witness_UnknownMessageHasNoEffect : sent.session? ⟨7⟩ = some loggedSession := by decide +kernel

/-- A payload of each length. -/
theorem witness_TrailingPayloadBytesIgnored :
    [8, 4, 18, 19].map (fun n => (List.replicate n (0x11 : Byte)).length) = [8, 4, 18, 19] := by decide +kernel

/-- Each of the eight forms, by its place. -/
theorem witness_AckFramesAreExact :
    ((Instr.txAck .p22 7, (0x22 : Byte)) ∈ ([(.txAck01 7, 0x01), (.txAck13 7, 0x13), (.txAck12 7, 0x12),
      (.txAck22 7, 0x22), (.txAck .p01 7, 0x01), (.txAck .p13 7, 0x13), (.txAck .p12 7, 0x12),
      (.txAck .p22 7, 0x22)] : List (Instr × Byte))) := by decide +kernel

/-- The longest text that fits. -/
theorem witness_CommandFrameLayout : (List.replicate 245 (0x41 : Byte)).length ≤ 245 := by decide +kernel

/-- The shortest that does not. -/
theorem witness_LongCommandTextRaises : 245 < (List.replicate 246 (0x41 : Byte)).length := by decide +kernel

/-- The longest text that fits. -/
theorem witness_OwnFramesReadBack : (List.replicate 245 (0x41 : Byte)).length ≤ 245 := by decide +kernel

/-- Connection 9 is free, by the internal form and by the event, with room for one more connection. -/
theorem witness_ConnectCreatesFreshSession :
    fresh.session? ⟨9⟩ = none ∧ (Instr.evConnect ⟨9⟩ ⟨[]⟩ = .sConnect ⟨9⟩ ⟨[]⟩ ∨
      Instr.evConnect ⟨9⟩ ⟨[]⟩ = .evConnect ⟨9⟩ ⟨[]⟩ ∧ ∀ n, fresh.cfg.maxConn = some n → fresh.sess.length < n) :=
  ⟨by decide +kernel, .inr ⟨rfl, by rintro _ ⟨⟩; decide +kernel⟩⟩

/-- A session, by either form. -/
theorem witness_DisconnectDestroysOneSession :
    sent.session? ⟨7⟩ = some loggedSession ∧ (Instr.evDisconnect ⟨7⟩ = .sDisconnect ⟨7⟩ ∨
      Instr.evDisconnect ⟨7⟩ = .evDisconnect ⟨7⟩) := ⟨by decide +kernel, .inr rfl⟩

/-- A session. -/
theorem witness_LoginAndTouchWriteOneField : logged.session? ⟨7⟩ = some loggedSession := by decide +kernel

/-- A session; an update with a voltage and without a GSM code. -/
theorem witness_RefreshKeepsAbsentFields :
    let u : StatusUpdate :=
      { ign := true, relay := false, alarm := .normal, chg := true, volt := some 6, gsm := none }
    logged.session? ⟨7⟩ = some loggedSession ∧ u.volt = some 6 ∧ u.gsm = none := by decide +kernel

/-- A session. -/
theorem witness_StatusReturnsCopy : logged.session? ⟨7⟩ = some loggedSession := by decide +kernel

/-- A session whose counter is at its last value. -/
theorem witness_NextSerialReturnsThenAdvances :
    (fresh.modSession ⟨7⟩ fun r => { r with seq := 0xFFFF }).session? ⟨7⟩ = some { freshSession with seq := 0xFFFF }
      := by
  decide +kernel

/-- A new session's counter. -/
theorem witness_SerialsCycleWithoutZero : fresh.session? ⟨7⟩ = some freshSession ∧ freshSession.seq = 1 := by
  decide +kernel

/-- Each form of a request, with room in `PEND` (the last place), and with a record to replace where there is none. -/
theorem witness_RequestSendsAndRecords :
    RequestForm (.cRequest idBytes .lock none ⟨1⟩) idBytes .lock none ⟨1⟩ ∧
      RequestForm (.cmdBateria idBytes ⟨3⟩ ⟨1⟩) idBytes .batteryCheck (some ⟨3⟩) ⟨1⟩ ∧
      RequestForm (.evCmd idBytes [0x4C, 0x49, 0x42, 0x45, 0x52, 0x41, 0x52] ⟨3⟩ ⟨1⟩) idBytes .unlock (some ⟨3⟩) ⟨1⟩ ∧
      logged.Canonical ∧ logged.session? ⟨7⟩ = some loggedSession ∧ loggedSession.imei = some idBytes ∧
      (∀ n, logged.cfg.maxPend = some n → logged.pend? idBytes = none → logged.pend.length < n) ∧
      (∀ n, sent.cfg.maxPend = some n → sent.pend? idBytes = none → sent.pend.length < n) :=
  ⟨.request .., .bateria .., .evLiberar .., logged_canonical, by decide +kernel, by decide +kernel,
    by rintro _ ⟨⟩; decide +kernel, by rintro _ ⟨⟩; decide +kernel⟩

/-- No session holds the identity `1`. -/
theorem witness_RequestNotConnectedRejected :
    RequestForm (.cmdLiberar [0x31] ⟨5⟩ ⟨1⟩) [0x31] .unlock (some ⟨5⟩) ⟨1⟩ ∧
      ∀ c r, (c, r) ∈ logged.sess → r.imei ≠ some [0x31] := by
  refine ⟨.liberar .., fun c r h => ?_⟩
  have : (c, r) = (⟨7⟩, loggedSession) := by simpa using (show (c, r) ∈ [(⟨7⟩, loggedSession)] from h)
  cases this; decide +kernel

/-- The token in lower case. -/
theorem witness_UnknownTokenRejected :
    let t : Bytes := [0x62, 0x61, 0x74, 0x65, 0x72, 0x69, 0x61]
    t ≠ [0x42, 0x4C, 0x4F, 0x51, 0x55, 0x45, 0x41, 0x52] ∧ t ≠ [0x4C, 0x49, 0x42, 0x45, 0x52, 0x41, 0x52] ∧
      t ≠ [0x42, 0x41, 0x54, 0x45, 0x52, 0x49, 0x41] := by decide +kernel

/-- A scheduled entry, the device there with room in `PEND`; and the device gone. -/
theorem witness_TimerFiresFollowUpLock :
    (idBytes, CmdKind.lock) ∈ due.deferred ∧ due.Canonical ∧ due.session? ⟨7⟩ = some loggedSession ∧
      loggedSession.imei = some idBytes ∧
      (∀ n, due.cfg.maxPend = some n → due.pend? idBytes = none → due.pend.length < n) ∧
      (idBytes, CmdKind.lock) ∈ (due.disconnect ⟨7⟩).deferred ∧ (due.disconnect ⟨7⟩).Canonical ∧
      ∀ c r, (c, r) ∈ (due.disconnect ⟨7⟩).sess → r.imei ≠ some idBytes := by
  refine ⟨by decide +kernel, ⟨logged_canonical.sess, logged_canonical.rxbuf, logged_canonical.pend, ?_⟩,
    by decide +kernel, by decide +kernel, by rintro _ ⟨⟩; decide +kernel, by decide +kernel,
    ⟨?_, by decide +kernel, logged_canonical.pend, ?_⟩, fun c r h => ?_⟩
  · unfold bsorted; decide +kernel
  · unfold tsorted; decide +kernel
  · unfold bsorted; decide +kernel
  · exact absurd (show (c, r) ∈ [] from h) List.not_mem_nil

/-- A pending battery check and the text `OK`. -/
theorem witness_ConfirmationClearsRecord :
    sent.session? ⟨7⟩ = some loggedSession ∧ loggedSession.imei = some idBytes ∧
      sent.pend? idBytes = some { kind := .batteryCheck, ref := some ⟨3⟩, sent := ⟨1⟩ } ∧
      confirms [0x4F, 0x4B] = true := by decide +kernel

/-- Each of the three alternatives. -/
theorem witness_NoConfirmationNoTransition :
    sent.session? ⟨7⟩ = some loggedSession ∧ confirms [0x4F] = false ∧ fresh.session? ⟨7⟩ = some freshSession ∧
      freshSession.imei = none ∧ logged.session? ⟨7⟩ = some loggedSession ∧ loggedSession.imei = some idBytes ∧
      logged.pend? idBytes = none := by decide +kernel

/-- A delivery that fills the buffer to its capacity. -/
theorem witness_DeliveryProcessesFramesInOrder :
    fresh.session? ⟨7⟩ = some freshSession ∧
      ∀ n, fresh.cfg.rxBufCap = some n → (fresh.rxOf ⟨7⟩ ++ List.replicate 64 0x78).length ≤ n :=
  ⟨by decide +kernel, by rintro _ ⟨⟩; decide +kernel⟩

/-- A span that decodes, first in line. -/
theorem witness_SpanStepRunsDecodedInstruction :
    let s : State := { fresh with inbox := [.span ⟨7⟩ frameB ⟨1⟩] }
    s.inbox = .span ⟨7⟩ frameB ⟨1⟩ :: [] ∧ s.session? ⟨7⟩ = some freshSession ∧
      decodeSpan s.cfg.verifyRxCrc ⟨7⟩ ⟨1⟩ frameB = .ok (.rxHeartbeat ⟨7⟩ ⟨1⟩ [0x46, 0x06, 0x04, 0x01] 2) :=
  ⟨rfl, by decide +kernel, ok_of_decoded (by decide +kernel)⟩

/-- A span that is too short. -/
theorem witness_DroppedFrameHasNoEffect :
    fresh.session? ⟨7⟩ = some freshSession ∧ checkFrame fresh.cfg.verifyRxCrc [0x78, 0x78, 0x0D,
      0x0A] = some .eShort := by
  decide +kernel

/-- Nothing waiting; an event first in line; a span that decodes, and one that does not; an outbound form. -/
theorem witness_StepTakesOldestInput :
    State.reset.inbox = [] ∧ busy.inbox = .event (.rx ⟨7⟩ [0x00, 0x01, 0xD9, 0xDC, 0x0D, 0x0A] ⟨2⟩) :: [] ∧
      { fresh with inbox := [.span ⟨7⟩ frameB ⟨1⟩] }.inbox = .span ⟨7⟩ frameB ⟨1⟩ :: [] ∧
      { fresh with inbox := [.span ⟨7⟩ [0x78] ⟨1⟩] }.inbox = .span ⟨7⟩ [0x78] ⟨1⟩ :: [] ∧
      { fresh with inbox := [.build frameA] }.inbox = .build frameA :: [] ∧
      decodeOutbound frameA = .ok (.txAck01 1) := ⟨rfl, rfl, rfl, rfl, rfl, rfl⟩

/-- A command of no text, and one of the longest payload's kind. -/
theorem witness_DecodeOfEncode :
    (Instr.txCmd [] 1).wf = true ∧
      encode (.txCmd [] 1) = some (.outbound [0x78, 0x78, 0x0A, 0x80, 0x04, 0x00, 0x00, 0x00, 0x00, 0x00, 0x01, 0xE0,
      0xCA, 0x0D, 0x0A]) ∧
      (Instr.rxUnknown ⟨7⟩ ⟨1⟩ 0x80 (List.replicate 250 0) 1).wf = true ∧
      (Instr.rxUnknown ⟨7⟩ ⟨1⟩ 0x80 (List.replicate 250 0) 1).encodable = true := by decide +kernel

/-- Bytes of each direction that decode. -/
theorem witness_DecodedIsWellFormed :
    decode true (.inbound ⟨7⟩ ⟨1⟩ frameA) = .ok (.rxLogin ⟨7⟩ ⟨1⟩ [] 1) ∧
      decode true (.outbound frameA) = .ok (.txAck01 1) ∧
      decode true (.token idBytes ⟨1⟩ ⟨2⟩ Config.tokLiberar) = .ok (.cmdLiberar idBytes ⟨1⟩ ⟨2⟩) :=
  ⟨ok_of_decoded (by decide +kernel), ok_of_decoded (by decide +kernel), ok_of_decoded (by decide +kernel)⟩

/-- A state with every table in use, and a step that completes a frame. -/
theorem witness_StepKeepsInvariant : busy.Inv ∧ ∃ t, step busy = .next t := by
  refine ⟨⟨⟨?_, ?_, ?_, ?_⟩, ?_, fun c r h => ?_, fun d r h => ?_, fun d k h => ?_, ⟨?_, ?_, ?_⟩, fun c b h => ?_⟩,
    _, rfl⟩
  · unfold tsorted; decide +kernel
  · decide +kernel
  · unfold tsorted; decide +kernel
  · unfold bsorted; decide +kernel
  · unfold State.SameKeys; decide +kernel
  · have : (c, r) = (⟨7⟩, loggedSession) := by simpa using (show (c, r) ∈ [(⟨7⟩, loggedSession)] from h)
    cases this
    exact ⟨by decide +kernel, by decide +kernel, by rintro d ⟨⟩; decide +kernel⟩
  · have : (d, r) = (idBytes, ⟨.batteryCheck, some ⟨3⟩, ⟨1⟩⟩) := by
      simpa using (show (d, r) ∈ [(idBytes, (⟨.batteryCheck, some ⟨3⟩, ⟨1⟩⟩ : PendRec))] from h)
    cases this; decide +kernel
  · have : (d, k) = (idBytes, .lock) := by simpa using (show (d, k) ∈ [(idBytes, CmdKind.lock)] from h)
    cases this; decide +kernel
  · rintro _ ⟨⟩; decide +kernel
  · rintro _ ⟨⟩; decide +kernel
  · rintro _ ⟨⟩ c b h
    have : (c, b) = (⟨7⟩, [0x78, 0x78, 0x05, 0x01]) := by
      simpa using (show (c, b) ∈ [((⟨7⟩ : Cid), ([0x78, 0x78, 0x05, 0x01] : Bytes))] from h)
    cases this; decide +kernel
  · have : (c, b) = (⟨7⟩, [0x78, 0x78, 0x05, 0x01]) := by
      simpa using (show (c, b) ∈ [((⟨7⟩ : Cid), ([0x78, 0x78, 0x05, 0x01] : Bytes))] from h)
    cases this; decide +kernel

/-- An operation with a next state. -/
theorem witness_ConfigurationNeverChanges : ∃ t, exec (.cmdBloquear idBytes ⟨1⟩ ⟨1⟩) logged = .next t := ⟨_, rfl⟩

/-- An operation with a next state. -/
theorem witness_OutputsOnlyGrow : ∃ t, exec (.process ⟨7⟩ frameB ⟨1⟩) fresh = .next t := ⟨_, rfl⟩

/-- A delivery on a connection, another one there. -/
theorem witness_DeviceCannotReachOthers :
    DeviceOp ⟨7⟩ (.evRx ⟨7⟩ okFrame ⟨1⟩) ∧ ∃ t, exec (.evRx ⟨7⟩ okFrame ⟨1⟩) (sent.connect ⟨9⟩ ⟨[]⟩) = .next t :=
  ⟨.rx .., _, rfl⟩

/-- A response that removes a record, processed alone and as the second frame of a delivery. -/
theorem witness_PendingRemovedOnlyByResponse :
    sent.pend? idBytes ≠ none ∧
      (∃ t, exec (.process ⟨7⟩ okFrame ⟨1⟩) sent = .next t ∧ t.pend? idBytes = none) ∧
      ∃ t, exec (.evRx ⟨7⟩ (frameB ++ okFrame) ⟨1⟩) sent = .next t ∧ t.pend? idBytes = none :=
  ⟨by decide +kernel, ⟨_, rfl, by decide +kernel⟩, _, rfl, by decide +kernel⟩

/-- Two different states that agree for connection 7, and a delivery. -/
theorem witness_DeliveryIndependentOfOthers :
    sent.session? ⟨7⟩ = some loggedSession ∧
      (∀ n, sent.cfg.rxBufCap = some n → (sent.rxOf ⟨7⟩ ++ frameB).length ≤ n) ∧
      SameFor ⟨7⟩ sent (sent.connect ⟨9⟩ ⟨[]⟩) ∧ (sent.connect ⟨9⟩ ⟨[]⟩).sess ≠ sent.sess :=
  ⟨by decide +kernel, by rintro _ ⟨⟩; decide +kernel,
    ⟨by decide +kernel, by decide +kernel, rfl, rfl, rfl⟩, by decide +kernel⟩

/-- A state for each clause: no such connection; one in use; nothing scheduled; two connections of two; 65 bytes for a
buffer of 64; a full `PEND`, the record another identity's, for a request and for a timer; a span that does not pass. -/
theorem witness_HostDutiesRefused :
    (ConnectionOp ⟨9⟩ (.sStatus ⟨9⟩) ∧ fresh.session? ⟨9⟩ = none) ∧ fresh.session? ⟨7⟩ = some freshSession ∧
      (idBytes, CmdKind.lock) ∉ logged.deferred ∧
      (twice.session? ⟨8⟩ = none ∧ twice.cfg.maxConn = some 2 ∧ 2 ≤ twice.sess.length) ∧
      (fresh.cfg.rxBufCap = some 64 ∧ 64 < (fresh.rxOf ⟨7⟩ ++ List.replicate 65 0).length) ∧
      (let s := due.putPend [0x31] { kind := .lock, ref := none, sent := ⟨1⟩ }
       RequestForm (.cmdBateria idBytes ⟨3⟩ ⟨1⟩) idBytes .batteryCheck (some ⟨3⟩) ⟨1⟩ ∧
        ((idBytes, CmdKind.lock) ∈ s.deferred ∧ (⟨7⟩, loggedSession) ∈ s.sess ∧ loggedSession.imei = some idBytes ∧
          s.pend? idBytes = none ∧ s.cfg.maxPend = some 1 ∧ 1 ≤ s.pend.length)) ∧
      checkFrame fresh.cfg.verifyRxCrc [0x78, 0x78, 0x0D, 0x0A] ≠ none :=
  ⟨⟨.status, by decide +kernel⟩, by decide +kernel, by decide +kernel, by decide +kernel, by decide +kernel,
    ⟨.bateria .., by decide +kernel⟩, by decide +kernel⟩

/-- A session; the configuration of reset. -/
theorem witness_DefaultLowBatteryFlag :
    fresh.session? ⟨7⟩ = some freshSession ∧ fresh.cfg.lowBattFn = State.reset.cfg.lowBattFn :=
  ⟨by decide +kernel, rfl⟩

/-! ### Two sessions of one identity -/

/-- R263: the command goes to one of the two, whichever the free choice is; one frame, one choice used up. -/
theorem test_two_holders :
    twice.holders idBytes = [⟨7⟩, ⟨9⟩] ∧
      nextIs (exec (.cmdBloquear idBytes ⟨1⟩ ⟨1⟩) twice) (fun t => t.choice = 1 && t.outs.length = 1) = true :=
  ⟨by decide +kernel, rfl⟩

end Sys2Proof.Tests
end

section
/-!
PROOFS. The configuration and the invariant of the block (`10_state.md` R20 to R37): what each event that answers a next
state did, that no operation writes `cfg`, and that every write of the four tables keeps `State.Inv`.
-/

namespace Sys2Proof.Machine

/-! ### What an event that answers a next state did -/

/-- EV_CONNECT ran on a free key, with room below MAX_CONN (R281, R296). -/
theorem execEvConnect_cases {cid : Cid} {peer : Peer} {s t : State} (h : execEvConnect cid peer s = .next t) :
    s.connected cid = false ∧ atCapacity s.cfg.maxConn s.sess.length = false ∧
      t = (s.connect cid peer).setResult .nothing := by
  unfold execEvConnect at h
  split_ifs at h with hc hf
  exact ⟨by simpa using hc, by simpa using hf, (Host.Outcome.next.inj h).symm⟩

/-- S.CONNECT ran on a free key (R230). -/
theorem execSConnect_cases {cid : Cid} {peer : Peer} {s t : State} (h : execSConnect cid peer s = .next t) :
    s.connected cid = false ∧ t = (s.connect cid peer).setResult .nothing := by
  unfold execSConnect at h
  split_ifs at h with hc
  exact ⟨by simpa using hc, (Host.Outcome.next.inj h).symm⟩

/-- EV_RX ran on a connection that exists, with room below RX_BUF_CAP (R283, R296). -/
theorem execEvRx_cases {cid : Cid} {data : Bytes} {now : Time} {s t : State}
    (h : execEvRx cid data now s = .next t) :
    (∃ r, s.session? cid = some r) ∧ s.rxFull cid data = false ∧ t = s.rxDelivered cid data now := by
  obtain ⟨hr, h⟩ := State.onConnection_next h
  split_ifs at h with hf
  exact ⟨hr, by simpa using hf, (Host.Outcome.next.inj h).symm⟩

/-- EV_CMD made the request its token names, or rejected an unknown token (R285, R254). -/
theorem execEvCmd_cases {id : Digits} {token : Bytes} {ref : Ref} {now : Time} {s t : State}
    (h : execEvCmd id token ref now s = .next t) :
    (∃ k, request id k (some ref) now s = .next t) ∨ t = s.rejectRequest (some ref) .eBadReq := by
  unfold execEvCmd at h
  split_ifs at h
  · exact .inl ⟨.lock, h⟩
  · exact .inl ⟨.unlock, h⟩
  · exact .inl ⟨.batteryCheck, h⟩
  · exact .inr (Host.Outcome.next.inj h).symm

theorem State.rxFull_eq_false {s : State} {cid : Cid} {data : Bytes} :
    s.rxFull cid data = false ↔ ∀ n, s.cfg.rxBufCap = some n → (s.rxWith cid data).length ≤ n := by
  unfold State.rxFull
  cases s.cfg.rxBufCap <;> simp

theorem atCapacity_eq_false {cap : Option Nat} {n : Nat} :
    atCapacity cap n = false ↔ ∀ c, cap = some c → n < c := by
  cases cap <;> simp [atCapacity]

theorem OnlyTransient.build (s : State) (body : Bytes) : OnlyTransient s (s.build body) :=
  ⟨rfl, rfl, rfl, rfl, rfl, rfl, rfl, rfl⟩

/-- TX.CMD writes transient registers only, whether or not it takes the text (R216, R217). -/
theorem execTxCmd_onlyTransient {text : Bytes} {n : U16} {s t : State} (h : execTxCmd text n s = .next t) :
    OnlyTransient s t := by
  unfold execTxCmd at h
  split_ifs at h <;> cases h
  · exact .build s _
  · exact ⟨rfl, rfl, rfl, rfl, rfl, rfl, rfl, rfl⟩

/-- The outbound forms are read as five of the TX.* operations. -/
theorem decodeOutbound_cases {f : Bytes} {i : Instr} (h : decodeOutbound f = .ok i) :
    ∃ n, (∃ text, i = .txCmd text n) ∨ i = .txAck01 n ∨ i = .txAck13 n ∨ i = .txAck12 n ∨ i = .txAck22 n := by
  unfold decodeOutbound at h
  split at h
  · cases h
  · dsimp only at h
    split_ifs at h <;> cases h <;> simp

/-- What an outbound form is read as writes transient registers only (R210 to R217). -/
theorem decodeOutbound_onlyTransient {f : Bytes} {i : Instr} {s t : State} (h : decodeOutbound f = .ok i)
    (ht : exec i s = .next t) : OnlyTransient s t := by
  obtain ⟨n, ⟨text, rfl⟩ | rfl | rfl | rfl | rfl⟩ := decodeOutbound_cases h
  · exact execTxCmd_onlyTransient ht
  all_goals
    obtain rfl := Host.Outcome.next.inj ht
    exact .build s _

/-! ### The configuration (R37) -/

theorem request_cfg {id : Digits} {k : CmdKind} {ref : Option Ref} {now : Time} {s t : State}
    (h : request id k ref now s = .next t) : t.cfg = s.cfg := by
  obtain ⟨-, rfl⟩ | ⟨c, n, -, -, rfl⟩ := request_cases h <;> rfl

theorem fire_cfg {id : Digits} {now : Time} {s t : State} (h : fire id now s = .next t) : t.cfg = s.cfg :=
  (request_cfg (fire_cases h).2).trans (s.undefer_cfg id .lock)

@[simp] theorem State.afterCheck_cfg (s : State) (f : Bytes) : (s.afterCheck f).cfg = s.cfg := by
  unfold State.afterCheck
  split <;> rfl

theorem State.rxDelivered_cfg (s : State) (cid : Cid) (data : Bytes) (now : Time) :
    (s.rxDelivered cid data now).cfg = s.cfg :=
  (processAll_effect cid (scan (s.rxWith cid data)).1 now (s.setPos (scan (s.rxWith cid data)).2)).cfg

theorem execDecCheck_cfg {f : Bytes} {s t : State} (h : execDecCheck f s = .next t) : t.cfg = s.cfg := by
  unfold execDecCheck at h
  split at h <;> cases h <;> exact s.afterCheck_cfg f

theorem execDecHeader_cfg {f : Bytes} {s t : State} (h : execDecHeader f s = .next t) : t.cfg = s.cfg := by
  unfold execDecHeader at h
  split_ifs at h
  cases h
  rfl

/-- The state an operation answers has the configuration of the state it is an update of. -/
theorem cfg_of_next {s t u : State} (h : (.next u : Host.Outcome State Fault Refusal) = .next t)
    (hu : u.cfg = s.cfg) : t.cfg = s.cfg :=
  Host.Outcome.next.inj h ▸ hu

theorem cfg_of_onConnection {cid : Cid} {s t u : State} (h : s.onConnection cid (.next u) = .next t)
    (hu : u.cfg = s.cfg) : t.cfg = s.cfg :=
  cfg_of_next (State.onConnection_next h).2 hu

/-- An RX.* operation writes nothing else than its rule does, and transient registers. -/
theorem cfg_of_received {cid : Cid} {now : Time} {p : Bytes} {n : U16} {s t : State} (rule : RxRule)
    (h : s.onConnection cid (.next (State.received (recvRule rule cid now p n s))) = .next t) : t.cfg = s.cfg :=
  cfg_of_onConnection h (recvRule_effect rule cid now p n s).cfg

/-- Settles O54, by the operation: each is an update of other registers, as the lemma about its shared part says. -/
theorem configurationNeverChanges : Obligations.ConfigurationNeverChanges := by
  intro i s t h
  cases i with
  | rxLogin cid now p n => exact cfg_of_received (now := now) .login h
  | rxHeartbeat => exact cfg_of_received .heartbeat h
  | rxLocBasic => exact cfg_of_received .locBasic h
  | rxLocExt => exact cfg_of_received .locExt h
  | rxCmdResp21 cid now p n => exact cfg_of_received (now := now) (n := n) .cmdResp21 h
  | rxCmdResp15 cid now p n => exact cfg_of_received (now := now) (n := n) .cmdResp15 h
  | rxUnknown | sLogin | sRefresh | sTouch | sStatus | sNextSerial | sDisconnect | evDisconnect =>
    exact cfg_of_onConnection h rfl
  | txAck01 | txAck13 | txAck12 | txAck22 | txAck | crcInit | crcByte | crcFinal | crcSum | crcVerify | frScan
  | decDispatch => exact cfg_of_next h rfl
  | txCmd => exact (execTxCmd_onlyTransient h).cfg
  | cmdBloquear | cmdLiberar | cmdBateria | cRequest => exact request_cfg h
  | evTimer | cFire => exact fire_cfg h
  | evConnect =>
    obtain ⟨-, -, rfl⟩ := execEvConnect_cases h
    rfl
  | sConnect =>
    obtain ⟨-, rfl⟩ := execSConnect_cases h
    rfl
  | evRx =>
    obtain ⟨-, -, rfl⟩ := execEvRx_cases h
    exact s.rxDelivered_cfg ..
  | evCmd =>
    obtain ⟨k, hk⟩ | rfl := execEvCmd_cases h
    · exact request_cfg hk
    · rfl
  | decCheck => exact execDecCheck_cfg h
  | decHeader => exact execDecHeader_cfg h
  | cConfirm cid text => exact cfg_of_onConnection h (DeviceEffect.confirm cid text s).cfg
  | process cid f now => exact cfg_of_onConnection h (processed_effect cid f now s).cfg

/-! ### The invariant: parts of it under one write -/

/-- The invariant speaks of the four tables and the configuration alone. -/
theorem State.Inv.of_tables {s t : State} (h : s.Inv) (hs : t.sess = s.sess) (hr : t.rxbuf = s.rxbuf)
    (hp : t.pend = s.pend) (hd : t.deferred = s.deferred) (hc : t.cfg = s.cfg) : t.Inv where
  canonical := ⟨hs ▸ h.canonical.sess, hr ▸ h.canonical.rxbuf, hp ▸ h.canonical.pend, hd ▸ h.canonical.deferred⟩
  sameKeys := by simpa only [State.SameKeys, hs, hr] using h.sameKeys
  sessions := by simpa only [State.SessionsOk, hs] using h.sessions
  pend := by simpa only [State.PendOk, hp] using h.pend
  deferred := by simpa only [State.DeferOk, hd] using h.deferred
  capacity :=
    { conn := by simpa only [hs, hc] using h.capacity.conn
      pend := by simpa only [hp, hc] using h.capacity.pend
      rx := by simpa only [hr, hc] using h.capacity.rx }
  settled := by simpa only [State.Settled, hr] using h.settled

theorem OnlyTransient.inv {s t : State} (e : OnlyTransient s t) (h : s.Inv) : t.Inv :=
  h.of_tables e.sess e.rxbuf e.pend e.deferred e.cfg

theorem State.SessionsOk.imei_wf {s : State} (h : s.SessionsOk) {c : Cid} {r : Session} (hm : (c, r) ∈ s.sess)
    {d : Digits} (hd : r.imei = some d) : Digits.wf d = true := by
  obtain ⟨-, -, wf⟩ := h c r hm
  exact wf d hd

/-- A connection of an identity makes it one of R12's form. -/
theorem State.SessionsOk.wf_of_holder {s : State} (h : s.SessionsOk) {id : Digits} {c : Cid}
    (hc : c ∈ s.holders id) : Digits.wf id = true := by
  obtain ⟨r, hm, hi⟩ := State.mem_holders.mp hc
  exact h.imei_wf hm hi

/-- A write of one session keeps `SessionsOk` if it keeps the key, writes no counter 0 and no identity but of R12's
form. -/
theorem State.SessionsOk.tmod {s t : State} (h : s.SessionsOk) {cid : Cid} {f : Session → Session}
    (ht : t.sess = tmod s.sess cid f)
    (hf : ∀ r, (f r).cid = r.cid ∧ (r.seq ≠ 0 → (f r).seq ≠ 0) ∧
      ((f r).imei = r.imei ∨ ∃ d, (f r).imei = some d ∧ Digits.wf d = true)) : t.SessionsOk := by
  intro c r hm
  rw [ht] at hm
  obtain ⟨r0, hm0, ⟨-, rfl⟩ | ⟨-, rfl⟩⟩ := mem_tmod hm
  · obtain ⟨key, counter, -⟩ := h c r0 hm0
    obtain ⟨hcid, hseq, himei⟩ := hf r0
    refine ⟨hcid.trans key, hseq counter, fun d hd => ?_⟩
    rcases himei with e | ⟨d', e, hw⟩
    · exact h.imei_wf hm0 (e.symm.trans hd)
    · exact Option.some.inj (e.symm.trans hd) ▸ hw
  · exact h c _ hm0

/-- A key of `SESS` is a key of `RXBUF` (R20). -/
theorem State.SameKeys.mem_rxbuf {s : State} (h : s.SameKeys) {cid : Cid} {r : Session}
    (hr : s.session? cid = some r) : cid ∈ tkeys s.rxbuf := by
  rw [← show tkeys s.sess = tkeys s.rxbuf from h, ← tget_isSome]
  exact State.connected_of_session hr

/-- Scheduling the follow-ups of the identities `l` keeps the bag in order. -/
theorem bsorted_foldl_bput {m : List (Digits × CmdKind)} (h : bsorted deferLt m) (l : List Digits) :
    bsorted deferLt (l.foldl (fun m d => bput deferLt m (d, .lock)) m) := by
  induction l generalizing m with
  | nil => exact h
  | cons d l ih => exact ih (bsorted_bput deferLt_strictTotal h _)

theorem mem_foldl_bput {m : List (Digits × CmdKind)} {l : List Digits} {x : Digits × CmdKind}
    (h : x ∈ l.foldl (fun m d => bput deferLt m (d, .lock)) m) : x ∈ m ∨ ∃ d ∈ l, x = (d, .lock) := by
  induction l generalizing m with
  | nil => exact .inl h
  | cons d l ih =>
    rcases ih h with h | ⟨e, he, rfl⟩
    · rcases mem_bput.mp h with rfl | h
      · exact .inr ⟨d, List.mem_cons_self, rfl⟩
      · exact .inl h
    · exact .inr ⟨e, List.mem_cons_of_mem _ he, rfl⟩

/-! ### The invariant is kept by each write of the tables -/

/-- S.CONNECT keeps the invariant where there is room for one more session (R230, R281). -/
theorem State.Inv.connect {s : State} (h : s.Inv) (cid : Cid) (peer : Peer)
    (hcap : atCapacity s.cfg.maxConn s.sess.length = false) : (s.connect cid peer).Inv where
  canonical :=
    { sess := tsorted_tput cidLt_strictTotal h.canonical.sess cid _
      rxbuf := connect_memory_wf h.canonical.rxbuf cid peer
      pend := h.canonical.pend
      deferred := h.canonical.deferred }
  sameKeys := tkeys_tput_congr h.sameKeys cid _ _
  sessions c r hm := by
    rcases mem_tput hm with e | hm
    · cases e
      exact ⟨rfl, show Config.seqInit ≠ 0 by decide, by rintro d ⟨⟩⟩
    · exact h.sessions c r hm
  pend := h.pend
  deferred := h.deferred
  capacity :=
    { conn := fun n hn => (length_tput_le _ _ _).trans (atCapacity_eq_false.mp hcap n hn)
      pend := h.capacity.pend
      rx := fun n hn c b hm => by
        rcases mem_tput hm with e | hm
        · cases e
          exact Nat.zero_le n
        · exact h.capacity.rx n hn c b hm }
  settled c b hm := by
    rcases mem_tput hm with e | hm
    · cases e
      rfl
    · exact h.settled c b hm

/-- S.DISCONNECT keeps the invariant (R236, R282). -/
theorem State.Inv.disconnect {s : State} (h : s.Inv) (cid : Cid) : (s.disconnect cid).Inv where
  canonical :=
    { sess := tsorted_tdel h.canonical.sess cid
      rxbuf := disconnect_memory_wf h.canonical.rxbuf cid
      pend := h.canonical.pend
      deferred := h.canonical.deferred }
  sameKeys := by
    have keys : tkeys s.sess = tkeys s.rxbuf := h.sameKeys
    simp [State.SameKeys, tkeys_tdel, keys]
  sessions c r hm := h.sessions c r (mem_tdel hm)
  pend := h.pend
  deferred := h.deferred
  capacity :=
    { conn := fun n hn => (length_tdel_le _ _).trans (h.capacity.conn n hn)
      pend := h.capacity.pend
      rx := fun n hn c b hm => h.capacity.rx n hn c b (mem_tdel hm) }
  settled c b hm := h.settled c b (mem_tdel hm)

/-- Storing a settled buffer of a live connection, within its capacity, keeps the invariant (R283). -/
theorem State.Inv.setRx {s : State} (h : s.Inv) {cid : Cid} {b : Bytes} (hmem : cid ∈ tkeys s.rxbuf)
    (hscan : scan b = ([], 0)) (hcap : ∀ n, s.cfg.rxBufCap = some n → b.length ≤ n) : (s.setRx cid b).Inv where
  canonical := { h.canonical with rxbuf := setRx_memory_wf h.canonical.rxbuf cid b }
  sameKeys := h.sameKeys.trans (tkeys_tput_of_mem cidLt_strictTotal h.canonical.rxbuf hmem b).symm
  sessions := h.sessions
  pend := h.pend
  deferred := h.deferred
  capacity :=
    { conn := h.capacity.conn
      pend := h.capacity.pend
      rx := fun n hn c x hm => by
        rcases mem_tput hm with e | hm
        · cases e
          exact hcap n hn
        · exact h.capacity.rx n hn c x hm }
  settled c x hm := by
    rcases mem_tput hm with e | hm
    · cases e
      exact hscan
    · exact h.settled c x hm

/-- Taking an entry from `DEFER` keeps the invariant (R260). -/
theorem State.Inv.undefer {s : State} (h : s.Inv) (id : Digits) (k : CmdKind) : (s.undefer id k).Inv where
  canonical := { h.canonical with deferred := bsorted_erase h.canonical.deferred _ }
  sameKeys := h.sameKeys
  sessions := h.sessions
  pend := h.pend
  deferred d k hm := h.deferred d k (List.mem_of_mem_erase hm)
  capacity := { h.capacity with }
  settled := h.settled

/-- A record that replaces one, or for which there is room, stays within MAX_PEND (R296 (4)). -/
theorem length_pend_sendCommand_le {s : State} (h : s.Inv) {id : Digits} (hroom : s.pendFull id = false)
    (r : PendRec) {n : Nat} (hn : s.cfg.maxPend = some n) : (tput bytesLt s.pend id r).length ≤ n := by
  by_cases hid : s.pend? id = none
  · exact (length_tput_le _ _ _).trans (State.pendFull_eq_false.mp hroom n hn hid)
  · rw [length_tput_of_mem bytesLt_strictTotal h.canonical.pend
      ((tget_isSome _ _).mp (Option.isSome_iff_ne_none.mpr hid))]
    exact h.capacity.pend n hn

/-- Sending a command to a device on one of its connections, with room in `PEND`, keeps the invariant (R255). -/
theorem State.Inv.sendCommand {s : State} (h : s.Inv) {cid c : Cid} {id : Digits} (k : CmdKind)
    (ref : Option Ref) (now : Time) (hc : c ∈ s.holders id) (hroom : s.pendFull id = false) :
    (s.sendCommand cid id k ref now).Inv where
  canonical :=
    { sess := by
        rw [State.sendCommand_sess]
        exact tsorted_tmod h.canonical.sess cid _
      rxbuf := h.canonical.rxbuf
      pend := tsorted_tput bytesLt_strictTotal h.canonical.pend id _
      deferred := h.canonical.deferred }
  sameKeys := by
    rw [State.SameKeys, State.sendCommand_sess, tkeys_tmod]
    exact h.sameKeys
  sessions := h.sessions.tmod (s.sendCommand_sess ..) fun r => ⟨rfl, fun _ => nextSeq_ne_zero r.seq, .inl rfl⟩
  pend d r hm := by
    rcases mem_tput hm with e | hm
    · cases e
      exact h.sessions.wf_of_holder hc
    · exact h.pend d r hm
  deferred := h.deferred
  capacity :=
    { conn := fun n hn => by
        rw [State.sendCommand_sess, length_tmod]
        exact h.capacity.conn n hn
      pend := fun n hn => length_pend_sendCommand_le h hroom _ hn
      rx := h.capacity.rx }
  settled := h.settled

/-- A request that answers a next state keeps the invariant (R255, R256). -/
theorem State.Inv.request {s t : State} (h : s.Inv) {id : Digits} {k : CmdKind} {ref : Option Ref} {now : Time}
    (ht : request id k ref now s = .next t) : t.Inv := by
  obtain ⟨-, rfl⟩ | ⟨c, n, hc, hroom, rfl⟩ := request_cases ht
  · exact h.of_tables rfl rfl rfl rfl rfl
  · have h' : State.Inv { s with choice := n } := h.of_tables rfl rfl rfl rfl rfl
    exact h'.sendCommand k ref now hc hroom

/-- C.FIRE keeps the invariant (R260). -/
theorem State.Inv.fire {s t : State} (h : s.Inv) {id : Digits} {now : Time} (ht : fire id now s = .next t) :
    t.Inv := (h.undefer id .lock).request (fire_cases ht).2

/-- What the bytes of a connection can do keeps the invariant (R321). -/
theorem DeviceEffect.inv {cid : Cid} {s t : State} (e : DeviceEffect cid s t) (h : s.Inv) : t.Inv := by
  obtain ⟨f, hsess, hf⟩ := e.sess
  obtain ⟨l, hdef, hl⟩ := e.deferred
  have ident : ∀ d ∈ l, Digits.wf d = true := by
    intro d hd
    rcases hl d hd with ⟨r, hr, hi⟩ | hw
    · exact h.sessions.imei_wf (mem_of_tget hr) hi
    · exact hw
  exact
    { canonical :=
        { sess := hsess ▸ tsorted_tmod h.canonical.sess cid f
          rxbuf := e.rxbuf ▸ h.canonical.rxbuf
          pend := h.canonical.pend.sublist e.pendSub
          deferred := hdef ▸ bsorted_foldl_bput h.canonical.deferred l }
      sameKeys := e.keys.trans (h.sameKeys.trans (congrArg tkeys e.rxbuf.symm))
      sessions := h.sessions.tmod hsess fun r => by
        obtain ⟨hcid, -, hseq, himei⟩ := hf r
        exact ⟨hcid, (hseq ▸ ·), himei⟩
      pend := fun d r hm => h.pend d r (e.pendSub.subset hm)
      deferred := fun d k hm => by
        rcases mem_foldl_bput (hdef ▸ hm) with hm | ⟨d', hd', eq⟩
        · exact h.deferred d k hm
        · cases eq
          exact ⟨rfl, ident d hd'⟩
      capacity :=
        { conn := fun n hn => by
            rw [hsess, length_tmod]
            exact h.capacity.conn n (e.cfg ▸ hn)
          pend := fun n hn => e.pendSub.length_le.trans (h.capacity.pend n (e.cfg ▸ hn))
          rx := fun n hn c b hm => h.capacity.rx n (e.cfg ▸ hn) c b (e.rxbuf ▸ hm) }
      settled := fun c b hm => h.settled c b (e.rxbuf ▸ hm) }

/-- A delivery within RX_BUF_CAP keeps the invariant: its frames are what the bytes of a connection can do, and what
FR.SCAN leaves is settled (R283). -/
theorem State.Inv.rxDelivered {s : State} (h : s.Inv) {cid : Cid} {data : Bytes} {r : Session} (now : Time)
    (hr : s.session? cid = some r) (hroom : s.rxFull cid data = false) : (s.rxDelivered cid data now).Inv := by
  have effect := processAll_effect cid (scan (s.rxWith cid data)).1 now (s.setPos (scan (s.rxWith cid data)).2)
  have settled := effect.inv (h.of_tables rfl rfl rfl rfl rfl)
  have key : cid ∈ tkeys s.rxbuf := h.sameKeys.mem_rxbuf hr
  refine (settled.setRx (effect.rxbuf ▸ key) (scan_rest (s.rxWith cid data)) fun n hn => ?_).of_tables
    rfl rfl rfl rfl rfl
  have fits := State.rxFull_eq_false.mp hroom n (effect.cfg ▸ hn)
  rw [List.length_drop]
  omega

/-- The five events keep the invariant. -/
theorem State.Inv.event {s t : State} (h : s.Inv) (e : Event) (ht : exec e.instr s = .next t) : t.Inv := by
  cases e with
  | connect cid peer =>
    obtain ⟨-, hcap, rfl⟩ := execEvConnect_cases ht
    exact (h.connect cid peer hcap).of_tables rfl rfl rfl rfl rfl
  | disconnect cid =>
    obtain ⟨-, rfl⟩ := State.onConnection_next' ht
    exact (h.disconnect cid).of_tables rfl rfl rfl rfl rfl
  | rx cid data now =>
    obtain ⟨⟨r, hr⟩, hroom, rfl⟩ := execEvRx_cases ht
    exact h.rxDelivered now hr hroom
  | cmd id token ref now =>
    obtain ⟨k, hk⟩ | rfl := execEvCmd_cases ht
    · exact h.request hk
    · exact h.of_tables rfl rfl rfl rfl rfl
  | timer id now => exact h.fire ht

/-- Settles O52: every table is empty. -/
theorem resetMeetsInvariant : Obligations.ResetMeetsInvariant := fun cfg =>
  { canonical := ⟨.nil, reset_memory_wf cfg, .nil, .nil⟩
    sameKeys := rfl
    sessions := fun _ _ hm => absurd hm List.not_mem_nil
    pend := fun _ _ hm => absurd hm List.not_mem_nil
    deferred := fun _ _ hm => absurd hm List.not_mem_nil
    capacity := ⟨fun n _ => Nat.zero_le n, fun n _ => Nat.zero_le n, fun _ _ _ _ hm => absurd hm List.not_mem_nil⟩
    settled := fun _ _ hm => absurd hm List.not_mem_nil }

/-- Settles O53, by the input the step takes: an event, one span, one outbound form, or none. -/
theorem stepKeepsInvariant : Obligations.StepKeepsInvariant := by
  intro s t h ht
  have taken : ∀ rest, State.Inv { s with inbox := rest } := fun _ => h.of_tables rfl rfl rfl rfl rfl
  unfold step at ht
  split at ht
  · cases ht
    exact h
  · exact (taken _).event _ ht
  · obtain ⟨-, rfl⟩ := State.onConnection_next' ht
    exact (processed_effect ..).inv (taken _)
  · split at ht
    next hi => exact (decodeOutbound_onlyTransient hi ht).inv (taken _)
    next => cases ht

end Sys2Proof.Machine
end

section
/-!
PROOFS. The byte streams of the block (`20_memory.md` R60 to R76): outputs are only appended to, and a delivery may be
cut anywhere but after a lone 0x78 that is discarded (R66, R153, R351).
-/

namespace Sys2Proof.Machine

/-! ### Outputs are only appended to (R60 (3), R76, R288) -/

/-- A transmit stream is a view of the outputs, so it grows with them. -/
theorem State.txFrames_prefix {s t : State} (h : s.outs <+: t.outs) (cid : Cid) : s.txFrames cid <+: t.txFrames cid :=
  h.filterMap _

theorem DeviceEffect.outs_prefix {cid : Cid} {s t : State} (e : DeviceEffect cid s t) : s.outs <+: t.outs := by
  obtain ⟨o, ho, -⟩ := e.outs
  exact ho ▸ List.prefix_append _ o

theorem OnlyTransient.outs_prefix {s t : State} (e : OnlyTransient s t) : s.outs <+: t.outs :=
  e.outs ▸ List.prefix_rfl

/-- A request appends its rejection or the command it sends. -/
theorem request_outs_prefix {id : Digits} {k : CmdKind} {ref : Option Ref} {now : Time} {s t : State}
    (h : request id k ref now s = .next t) : s.outs <+: t.outs := by
  obtain ⟨-, rfl⟩ | ⟨c, n, -, -, rfl⟩ := request_cases h <;> exact List.prefix_append ..

theorem fire_outs_prefix {id : Digits} {now : Time} {s t : State} (h : fire id now s = .next t) :
    s.outs <+: t.outs :=
  request_outs_prefix (s := s.undefer id .lock) (fire_cases h).2

/-- A delivery appends the outputs of its frames. -/
theorem State.rxDelivered_outs_prefix (s : State) (cid : Cid) (data : Bytes) (now : Time) :
    s.outs <+: (s.rxDelivered cid data now).outs :=
  (processAll_effect cid (scan (s.rxWith cid data)).1 now (s.setPos (scan (s.rxWith cid data)).2)).outs_prefix

theorem execDecCheck_outs_prefix {f : Bytes} {s t : State} (h : execDecCheck f s = .next t) : s.outs <+: t.outs := by
  have checked : s.outs <+: (s.afterCheck f).outs := (DeviceEffect.afterCheck ⟨0⟩ f s).outs_prefix
  unfold execDecCheck at h
  split at h <;> cases h <;> exact checked

theorem execDecHeader_outs_prefix {f : Bytes} {s t : State} (h : execDecHeader f s = .next t) :
    s.outs <+: t.outs := by
  unfold execDecHeader at h
  split_ifs at h
  cases h
  exact List.prefix_rfl

/-- An RX.* operation appends what its rule appends. -/
theorem received_outs_prefix {cid : Cid} {now : Time} {p : Bytes} {n : U16} {s t : State} (rule : RxRule)
    (h : s.onConnection cid (.next (State.received (recvRule rule cid now p n s))) = .next t) : s.outs <+: t.outs := by
  obtain ⟨-, rfl⟩ := State.onConnection_next' h
  exact (recvRule_effect rule cid now p n s).outs_prefix

/-- Every operation appends to the outputs, or leaves them. -/
theorem exec_outs_prefix {i : Instr} {s t : State} (h : exec i s = .next t) : s.outs <+: t.outs := by
  cases i with
  | rxLogin cid now p n => exact received_outs_prefix (now := now) .login h
  | rxHeartbeat => exact received_outs_prefix .heartbeat h
  | rxLocBasic => exact received_outs_prefix .locBasic h
  | rxLocExt => exact received_outs_prefix .locExt h
  | rxCmdResp21 cid now p n => exact received_outs_prefix (now := now) (n := n) .cmdResp21 h
  | rxCmdResp15 cid now p n => exact received_outs_prefix (now := now) (n := n) .cmdResp15 h
  | rxUnknown | sLogin | sRefresh | sTouch | sStatus | sNextSerial | sDisconnect | evDisconnect =>
    obtain ⟨-, rfl⟩ := State.onConnection_next' h
    exact List.prefix_rfl
  | txAck01 | txAck13 | txAck12 | txAck22 | txAck | crcInit | crcByte | crcFinal | crcSum | crcVerify | frScan
  | decDispatch =>
    obtain rfl := Host.Outcome.next.inj h
    exact List.prefix_rfl
  | txCmd => exact (execTxCmd_onlyTransient h).outs_prefix
  | cmdBloquear | cmdLiberar | cmdBateria | cRequest => exact request_outs_prefix h
  | evTimer | cFire => exact fire_outs_prefix h
  | evConnect =>
    obtain ⟨-, -, rfl⟩ := execEvConnect_cases h
    exact List.prefix_rfl
  | sConnect =>
    obtain ⟨-, rfl⟩ := execSConnect_cases h
    exact List.prefix_rfl
  | evRx =>
    obtain ⟨-, -, rfl⟩ := execEvRx_cases h
    exact s.rxDelivered_outs_prefix ..
  | evCmd =>
    obtain ⟨k, hk⟩ | rfl := execEvCmd_cases h
    · exact request_outs_prefix hk
    · exact List.prefix_append ..
  | decCheck => exact execDecCheck_outs_prefix h
  | decHeader => exact execDecHeader_outs_prefix h
  | cConfirm cid text =>
    obtain ⟨-, rfl⟩ := State.onConnection_next' h
    exact (DeviceEffect.confirm cid text s).outs_prefix
  | process cid f now =>
    obtain ⟨-, rfl⟩ := State.onConnection_next' h
    exact (processed_effect cid f now s).outs_prefix

/-- Settles O55: every operation appends to the outputs, of which a transmit stream is a view. -/
theorem outputsOnlyGrow : Obligations.OutputsOnlyGrow := by
  intro i s t h
  have grown := exec_outs_prefix h
  refine ⟨?_, fun cid => ?_⟩
  · obtain ⟨o, ho⟩ := grown
    exact ⟨o, ho.symm⟩
  · obtain ⟨fs, hfs⟩ := State.txFrames_prefix grown cid
    exact ⟨fs, hfs.symm⟩

/-! ### FR.SCAN of a buffer in two parts (R66, R153, R351) -/

/-- The bytes FR.SCAN leaves in the buffer (R150, R283). -/
def retained (buf : Bytes) : Bytes := buf.drop (scan buf).2

theorem retained_append (buf x : Bytes) : retained buf ++ x = (buf ++ x).drop (scan buf).2 :=
  (List.drop_append_of_le_length (scan_le_length buf)).symm

/-- R151's loop on the whole buffer from `k` finds what FR.SCAN finds in the buffer without its first `k` bytes. -/
theorem scans_of_scan_drop {buf : Bytes} {k : Nat} (hk : k ≤ buf.length) :
    Scans buf k (scan (buf.drop k)).1 (k + (scan (buf.drop k)).2) := by
  have loop := scanFrom_scans buf (buf.length + 1) k (by omega) hk
  have dropped := loop.drop le_rfl hk
  rw [Nat.sub_self] at dropped
  obtain ⟨frames, consumed⟩ := dropped.unique (scan_scans _)
  have bounds := loop.bounds hk
  rwa [← frames, ← consumed, Nat.add_sub_cancel' bounds.1]

/-- Bytes before the first start marker of a buffer do not matter to the frames, whatever bytes come next (R153). -/
theorem scan_frames_drop {b : Bytes} {k i : Nat} (f : FoundAt b Config.startMarker 0 i) (hk : k ≤ i) (x : Bytes) :
    (scan (b ++ x)).1 = (scan (b.drop k ++ x)).1 := by
  have fits : i + 2 ≤ b.length := f.2.1.le_length (by decide)
  obtain ⟨m, skipped⟩ := (scan_scans (b ++ x)).skip (f.append (by decide) x) (Nat.zero_le k) hk
  have dropped := skipped.drop le_rfl (by rw [List.length_append]; omega)
  rw [Nat.sub_self, List.drop_append_of_le_length (by omega)] at dropped
  exact (dropped.unique (scan_scans _)).1

/-- A scan of two parts at once, against a scan of the first and then of what it retained with the second: the same
frames; and what the latter retains is an end of what the former retains, which differs in bytes that matter to no
later frame (R153, decision D8). -/
theorem scan_cut {buf x : Bytes} (hlone : buf.getLast? ≠ some 0x78 ∨ (scan buf).2 < buf.length) :
    (scan (buf ++ x)).1 = (scan buf).1 ++ (scan (retained buf ++ x)).1 ∧
    retained (retained buf ++ x) <:+ retained (buf ++ x) ∧
    ∀ y, (scan (retained (buf ++ x) ++ y)).1 = (scan (retained (retained buf ++ x) ++ y)).1 := by
  have consumed : (scan buf).2 ≤ (buf ++ x).length :=
    (scan_le_length buf).trans (List.prefix_append buf x).length_le
  have second := scans_of_scan_drop consumed
  rw [← retained_append] at second
  obtain ⟨m, whole, hm⟩ := (scan_scans buf).append (Nat.zero_le _) hlone second
  have once : retained (buf ++ x) = (buf ++ x).drop m :=
    congrArg (fun r : List Bytes × Nat => (buf ++ x).drop r.2) ((scan_eq_iff ..).mpr whole)
  have twice : retained (retained buf ++ x) = (buf ++ x).drop ((scan buf).2 + (scan (retained buf ++ x)).2) := by
    rw [← List.drop_drop, ← retained_append]
    rfl
  refine ⟨((scan_scans _).unique whole).1, ?_⟩
  rw [once, twice]
  rcases hm with rfl | ⟨hle, i, hi, found⟩
  · exact ⟨List.suffix_rfl, fun _ => rfl⟩
  · refine ⟨List.drop_suffix_drop_left _ hle, fun y => ?_⟩
    have hmi := found.1
    have start : FoundAt ((buf ++ x).drop m) Config.startMarker 0 (i - m) :=
      (foundAt_drop ..).mpr (by rwa [Nat.add_zero, Nat.add_sub_cancel' hmi])
    rw [scan_frames_drop start (Nat.sub_le_sub_right hi m), List.drop_drop, Nat.add_sub_cancel' hle]

/-! ### Frames read neither `pos`, nor the receive buffers, nor `result` (R283, R284) -/

/-- `s` with `pos`, the receive buffers and `result` replaced: what FR.SCAN and the end of a delivery write. -/
def State.atScan (s : State) (pos : Nat) (m : Memory) (res : Result) : State :=
  { s with pos := pos, rxbuf := m, result := res }

section AtScan
variable (s : State) (cid : Cid) (now : Time) (pos : Nat) (m : Memory) (res : Result)

@[simp] theorem State.atScan_cfg : (s.atScan pos m res).cfg = s.cfg := rfl
@[simp] theorem State.atScan_imeiOf : (s.atScan pos m res).imeiOf cid = s.imeiOf cid := rfl
@[simp] theorem State.atScan_pend? (id : Digits) : (s.atScan pos m res).pend? id = s.pend? id := rfl

theorem State.afterCheck_atScan (f : Bytes) :
    (s.atScan pos m res).afterCheck f = (s.afterCheck f).atScan pos m res := by
  unfold State.afterCheck
  rw [State.atScan_cfg]
  split <;> rfl

theorem State.confirmed_atScan (id : Digits) (r : PendRec) :
    (s.atScan pos m res).confirmed id r = (s.confirmed id r).atScan pos m res := by
  obtain ⟨k, ref, sent⟩ := r
  cases k <;> cases ref <;> rfl

theorem State.confirm_atScan (t : Bytes) :
    (s.atScan pos m res).confirm cid t = (s.confirm cid t).atScan pos m res := by
  unfold State.confirm
  rw [State.atScan_imeiOf]
  cases s.imeiOf cid with
  | none => rfl
  | some id =>
    simp only [State.atScan_pend?]
    cases s.pend? id with
    | none => rfl
    | some r =>
      simp only [State.confirmed_atScan]
      split <;> rfl

theorem recvRule_atScan (rule : RxRule) (p : Bytes) (n : U16) :
    recvRule rule cid now p n (s.atScan pos m res) =
      ((recvRule rule cid now p n s).1, (recvRule rule cid now p n s).2.atScan pos m res) := by
  cases rule <;> simp only [recvRule]
  case login => unfold recvLogin; cases loginIdentity p <;> rfl
  case heartbeat => unfold recvHeartbeat; split <;> rfl
  case locBasic => unfold recvLocBasic; split <;> rfl
  case locExt => unfold recvLocExt; split <;> rfl
  case cmdResp21 | cmdResp15 => simp only [recvCmdResp, State.confirm_atScan]
  case unknown => rfl

/-- A frame does the same whatever those registers hold; `result` it writes itself. -/
theorem State.processed_atScan (f : Bytes) :
    (s.atScan pos m res).processed cid f now = (s.processed cid f now).atScan pos m (s.processed cid f now).result := by
  unfold State.processed
  rw [State.afterCheck_atScan, State.atScan_cfg]
  cases checkFrame s.cfg.verifyRxCrc f with
  | some e => rfl
  | none =>
    simp only [recvRule_atScan]
    rfl

/-- The frames of a delivery do the same whatever those registers hold. -/
theorem State.processAll_atScan (fs : List Bytes) :
    ∃ res', (s.atScan pos m res).processAll cid fs now = (s.processAll cid fs now).atScan pos m res' := by
  induction fs generalizing s res with
  | nil => exact ⟨res, rfl⟩
  | cons f fs ih =>
    obtain ⟨res', h⟩ := ih (s.processed cid f now) (s.processed cid f now).result
    exact ⟨res', (congrArg (·.processAll cid fs now) (s.processed_atScan cid now pos m res f)).trans h⟩

/-- A delivery: its frames are processed, then `pos`, the buffer and `result` are written (R283). -/
theorem State.rxDelivered_eq (data : Bytes) :
    s.rxDelivered cid data now =
      (s.processAll cid (scan (s.rxWith cid data)).1 now).atScan (scan (s.rxWith cid data)).2
        (tput cidLt s.rxbuf cid (retained (s.rxWith cid data))) .nothing := by
  obtain ⟨res', h⟩ := s.processAll_atScan cid now (scan (s.rxWith cid data)).2 s.rxbuf s.result
    (scan (s.rxWith cid data)).1
  exact congrArg (fun u : State => (u.setRx cid (retained (s.rxWith cid data))).setResult .nothing) h

end AtScan

/-! ### Deliveries (R283) -/

theorem State.rxDelivered_rxOf (s : State) (cid : Cid) (data : Bytes) (now : Time) :
    (s.rxDelivered cid data now).rxOf cid = retained (s.rxOf cid ++ data) :=
  State.rxOf_setRx_same ..

theorem State.rxDelivered_rxbuf?_other (s : State) {cid c : Cid} (data : Bytes) (now : Time) (hc : c ≠ cid) :
    (s.rxDelivered cid data now).rxbuf? c = s.rxbuf? c := by
  rw [State.rxDelivered_eq]
  exact tget_tput_other _ _ hc

theorem State.rxDelivered_connected (s : State) (cid : Cid) (data : Bytes) (now : Time) (c : Cid) :
    (s.rxDelivered cid data now).connected c = s.connected c := by
  rw [State.rxDelivered_eq]
  exact (processAll_effect ..).connected c

/-- EV_RX on a live connection, of bytes that fit a finite RX_BUF_CAP (R283, R296). -/
theorem exec_evRx_next {s : State} {cid : Cid} {data : Bytes} (now : Time) (hc : s.connected cid = true)
    (hroom : ∀ n, s.cfg.rxBufCap = some n → (s.rxOf cid ++ data).length ≤ n) :
    exec (.evRx cid data now) s = .next (s.rxDelivered cid data now) := by
  have notFull : s.rxFull cid data = false := State.rxFull_eq_false.mpr hroom
  simp [exec, execEvRx, State.onConnection, hc, notFull]

/-- One delivery of the bytes of two: where it has the frames of both, it leaves the state the two leave, but for `pos`
and the receive buffer (R66, R351). -/
theorem State.rxDelivered_append {s : State} {cid : Cid} {a b : Bytes} (now : Time)
    (h : (scan (s.rxOf cid ++ (a ++ b))).1 =
      (scan (s.rxOf cid ++ a)).1 ++ (scan (retained (s.rxOf cid ++ a) ++ b)).1) :
    s.rxDelivered cid (a ++ b) now =
      ((s.rxDelivered cid a now).rxDelivered cid b now).atScan (scan (s.rxOf cid ++ (a ++ b))).2
        (tput cidLt s.rxbuf cid (retained (s.rxOf cid ++ (a ++ b)))) .nothing := by
  have buffer : (s.rxDelivered cid a now).rxWith cid b = retained (s.rxOf cid ++ a) ++ b :=
    congrArg (· ++ b) (s.rxDelivered_rxOf cid a now)
  obtain ⟨res, after⟩ := (s.processAll cid (scan (s.rxOf cid ++ a)).1 now).processAll_atScan cid now
    (scan (s.rxOf cid ++ a)).2 (tput cidLt s.rxbuf cid (retained (s.rxOf cid ++ a))) .nothing
    (scan (retained (s.rxOf cid ++ a) ++ b)).1
  have first : s.rxDelivered cid a now = _ := s.rxDelivered_eq cid now a
  rw [s.rxDelivered_eq, State.rxDelivered_eq (s.rxDelivered cid a now), buffer, first]
  simp only [State.rxWith]
  rw [h, after, State.processAll, List.foldl_append]
  rfl

/-- Settles O11: the frames of the second delivery follow those of the first (`scan_cut`), and no frame reads where the
scan stood or what it retained (`rxDelivered_append`). -/
theorem cutOfADeliveryDoesNotMatter : Obligations.CutOfADeliveryDoesNotMatter := by
  intro cid a b now s r hr hroom hlone
  obtain ⟨frames, rest, later⟩ := scan_cut (x := b) hlone
  rw [List.append_assoc] at frames rest later
  have live := State.connected_of_session hr
  have fitsFirst : ∀ n, s.cfg.rxBufCap = some n → (s.rxOf cid ++ a).length ≤ n := fun n hn =>
    (List.prefix_append _ b).length_le.trans (hroom n hn)
  have fitsSecond : ∀ n, (s.rxDelivered cid a now).cfg.rxBufCap = some n →
      ((s.rxDelivered cid a now).rxOf cid ++ b).length ≤ n := fun n hn => by
    rw [State.rxDelivered_rxOf, retained_append]
    exact (List.drop_suffix ..).length_le.trans (hroom n (s.rxDelivered_cfg cid a now ▸ hn))
  rw [List.append_assoc] at hroom
  have one := s.rxDelivered_rxOf cid (a ++ b) now
  have two := (s.rxDelivered cid a now).rxDelivered_rxOf cid b now
  rw [s.rxDelivered_rxOf] at two
  refine ⟨_, _, _, exec_evRx_next now live fitsFirst,
    exec_evRx_next now ((s.rxDelivered_connected ..).trans live) fitsSecond,
    exec_evRx_next now live hroom, ?_, fun c hc => ?_, ?_, fun x => ?_⟩
  · rw [State.rxDelivered_append now frames]
    rfl
  · simp only [State.rxDelivered_rxbuf?_other _ _ _ hc]
  · rwa [one, two]
  · rw [one, two]
    exact later x

end Sys2Proof.Machine
end

section
/-!
PROOFS. The frame encodings (`30_encoding.md` R90 to R114): the codec reads back every frame of format F, of which the
acknowledgement and the command frame are two; what the decoder accepts is well formed; the identity of a login, what
lies after the fields of a payload, and when a text confirms.
-/

namespace Sys2Proof.Machine

/-! ### Bytes, slices and fields within the first part of a concatenation (R10, R112) -/

section Prefix
variable {p : Bytes} (x : Bytes)

theorem not_length_append_lt {k : Nat} (h : k ≤ p.length) : ¬ (p ++ x).length < k :=
  (h.trans (List.prefix_append p x).length_le).not_gt

theorem byteAt_append_left {i : Nat} (h : i < p.length) : byteAt (p ++ x) i = byteAt p i := by
  simp only [byteAt, List.getD_eq_getElem?_getD, List.getElem?_append_left h]

theorem memRead_append_left {i n : Nat} (h : i + n ≤ p.length) : memRead (p ++ x) i n = memRead p i n := by
  rw [memRead, memRead, slice_append_left h]

theorem wordAt_append_left {i : Nat} (h : i + 2 ≤ p.length) : wordAt (p ++ x) i = wordAt p i := by
  rw [wordAt, wordAt, memRead_append_left x h]

theorem dateTimeOf_append_left (h : 6 ≤ p.length) : dateTimeOf (p ++ x) = dateTimeOf p := by
  simp (disch := omega) only [dateTimeOf, byteAt_append_left]

theorem loginIdentity_append_left (h : 8 ≤ p.length) : loginIdentity (p ++ x) = loginIdentity p := by
  have first : (p ++ x).take Config.imeiBytes = p.take Config.imeiBytes := List.take_append_of_le_length h
  have same : identityOf (p ++ x) = identityOf p := by rw [identityOf, identityOf, first]
  rw [loginIdentity, loginIdentity, if_neg h.not_gt, if_neg (not_length_append_lt x h), same]

theorem heartbeatOf_append_left (h : 4 ≤ p.length) : heartbeatOf (p ++ x) = heartbeatOf p := by
  simp (disch := omega) only [heartbeatOf, byteAt_append_left]

theorem heartbeatUpdate_append_left (h : 4 ≤ p.length) : heartbeatUpdate (p ++ x) = heartbeatUpdate p := by
  simp (disch := omega) only [heartbeatUpdate, byteAt_append_left]

theorem basicFix_append_left (h : 18 ≤ p.length) (c : StatusCache) : basicFix (p ++ x) c = basicFix p c := by
  simp (disch := omega) only [basicFix, byteAt_append_left, memRead_append_left, wordAt_append_left,
    dateTimeOf_append_left]

theorem extUpdate_append_left (h : 8 ≤ p.length) : extUpdate (p ++ x) = extUpdate p := by
  rw [extUpdate, extUpdate, byteAt_append_left x h]

theorem extFix_append_left (h : 19 ≤ p.length) (c : StatusCache) : extFix (p ++ x) c = extFix p c := by
  simp (disch := omega) only [extFix, byteAt_append_left, memRead_append_left, wordAt_append_left,
    dateTimeOf_append_left]

/-! ### Trailing payload bytes (R112) -/

variable (cid : Cid) (now : Time) (serial : U16) (s : State)

theorem recvLogin_append_left (h : 8 ≤ p.length) : recvLogin cid (p ++ x) serial s = recvLogin cid p serial s := by
  rw [recvLogin, recvLogin, loginIdentity_append_left x h]

theorem recvHeartbeat_append_left (h : 4 ≤ p.length) :
    recvHeartbeat cid now (p ++ x) serial s = recvHeartbeat cid now p serial s := by
  rw [recvHeartbeat, recvHeartbeat, if_neg h.not_gt, if_neg (not_length_append_lt x h), heartbeatOf_append_left x h,
    heartbeatUpdate_append_left x h]

theorem recvLocBasic_append_left (h : 18 ≤ p.length) :
    recvLocBasic cid now (p ++ x) serial s = recvLocBasic cid now p serial s := by
  rw [recvLocBasic, recvLocBasic, if_neg h.not_gt, if_neg (not_length_append_lt x h), basicFix_append_left x h]

theorem recvLocExt_append_left (h : 19 ≤ p.length) :
    recvLocExt cid now (p ++ x) serial s = recvLocExt cid now p serial s := by
  simp only [recvLocExt, if_neg h.not_gt, if_neg (not_length_append_lt x h), extFix_append_left x h,
    extUpdate_append_left x (show 8 ≤ p.length by omega), byteAt_append_left x (show 7 < p.length by omega)]

end Prefix

/-- Settles O24: each of the four rules reads its payload through fields within the minimum length. -/
theorem trailingPayloadBytesIgnored : Obligations.TrailingPayloadBytesIgnored := by
  intro cid now p x serial s
  refine ⟨fun h => ?_, fun h => ?_, fun h => ?_, fun h => ?_⟩
  · simp only [exec, execRxLogin, recvLogin_append_left x cid serial s h.ge]
  · simp only [exec, execRxHeartbeat, recvHeartbeat_append_left x cid now serial s h.ge]
  · simp only [exec, execRxLocBasic, recvLocBasic_append_left x cid now serial s h.ge]
  · simp only [exec, execRxLocExt, recvLocExt_append_left x cid now serial s h.ge]

/-! ### The identity of a login (R103, R175) -/

/-- RX.LOGIN of a payload that carries an identity (R175). -/
theorem exec_rxLogin_carries {cid : Cid} {p : Bytes} {d : Digits} {s : State} {r : Session} (now : Time)
    (serial : U16) (hr : s.session? cid = some r) (h : LoginCarries p d) :
    ∃ t, exec (.rxLogin cid now p serial) s = .next t ∧ t.msg = some (.login (some d)) ∧
      t.session? cid = some { r with imei := some d } := by
  refine ⟨State.received (recvLogin cid p serial s), State.onConnection_of_session hr _, ?_⟩
  rw [recvLogin, loginIdentity_eq_some.mpr h]
  exact ⟨rfl, State.session?_login hr d⟩

/-- RX.LOGIN of a payload that fails (R175, R308). -/
theorem exec_rxLogin_fails {cid : Cid} {p : Bytes} {s : State} {r : Session} (now : Time) (serial : U16)
    (hr : s.session? cid = some r) (h : LoginFails p) :
    ∃ t, exec (.rxLogin cid now p serial) s = .next t ∧ t.msg = some (.login none) ∧ t.session? cid = some r := by
  refine ⟨State.received (recvLogin cid p serial s), State.onConnection_of_session hr _, ?_⟩
  rw [recvLogin, loginIdentity_eq_none.mpr h]
  exact ⟨rfl, hr⟩

/-- Settles O17: the payload carries the identity, or fails, by its nibbles. -/
theorem packedIdentityDecodes : Obligations.PackedIdentityDecodes := by
  intro ns more cid now serial s r hl hn hr
  have packed : LoginNibbles (packNibbles ns ++ more) ns := ⟨hl, hn, more, rfl⟩
  refine ⟨fun d zeros hwf hdigits => ?_, fun hbad => ?_, fun p hshort => ?_⟩
  · exact exec_rxLogin_carries now serial hr ⟨hwf, ns, zeros, packed, hdigits⟩
  · exact exec_rxLogin_fails now serial hr (.inr ⟨ns, packed, hbad⟩)
  · exact exec_rxLogin_fails now serial hr (.inl hshort)

/-! ### Confirming texts (R105) -/

theorem lowerByte_eq (c : Byte) :
    lowerByte c = if 0x41 ≤ c.toNat ∧ c.toNat ≤ 0x5A then BitVec.ofNat 8 (c.toNat + 32) else c := by
  have shifted : c + 32 = BitVec.ofNat 8 (c.toNat + 32) := by
    apply BitVec.eq_of_toNat_eq
    simp [BitVec.toNat_add]
  rw [lowerByte, shifted]
  simp only [Bool.and_eq_true, decide_eq_true_eq]

theorem containsBytes_eq_append {b m : Bytes} : containsBytes b m = true ↔ ∃ u v, b = u ++ m ++ v :=
  (containsBytes_iff b m).trans (exists_congr fun _ => exists_congr fun _ => eq_comm)

/-- Settles O43: the two words are looked for in the folded text. -/
theorem confirmsIsASubstringTest : Obligations.ConfirmsIsASubstringTest := by
  intro text
  simp only [← lowerByte_eq]
  rw [confirms, Bool.or_eq_true, containsBytes_eq_append, containsBytes_eq_append]
  constructor
  · rintro (⟨a, b, h⟩ | ⟨a, b, h⟩)
    · exact ⟨a, b, wordSuccess, .inl rfl, h⟩
    · exact ⟨a, b, wordOk, .inr rfl, h⟩
  · rintro ⟨a, b, w, rfl | rfl, h⟩
    · exact .inl ⟨a, b, h⟩
    · exact .inr ⟨a, b, h⟩

/-! ### Frames of format F (R90, R91) -/

/-- A frame of format F, byte by byte. -/
theorem wrapBody_frameBody (proto : Byte) (p : Bytes) (serial : U16) :
    wrapBody (frameBody proto p serial) =
      [0x78, 0x78, BitVec.ofNat 8 (p.length + 5), proto] ++ (p ++ [hiByte serial, loByte serial,
        hiByte (crcSumOf (frameBody proto p serial)), loByte (crcSumOf (frameBody proto p serial)), 0x0D, 0x0A]) := by
  rw [wrapBody, beBytes_two]
  simp [frameBody, beBytes_two]

theorem length_frameBody (proto : Byte) (p : Bytes) (serial : U16) :
    (frameBody proto p serial).length = p.length + 4 := by
  simp [frameBody, beBytes_two]

/-- A frame of format F is its body between the start marker, and the checksum and stop marker. -/
theorem slice_wrapBody (body : Bytes) : slice (wrapBody body) 2 (body.length + 2) = body := by
  rw [wrapBody, List.append_assoc, List.append_assoc, slice_append_right (by simp), slice_append_left (by simp)]
  simp [slice]

/-- The acknowledgement is a frame of format F without payload (R210). -/
theorem ackBytes_eq (pp : AckProto) (serial : U16) :
    ackBytes pp serial = wrapBody (frameBody (ackByte pp) [] serial) := rfl

/-- The payload a command frame has when read as a frame of format F (R216). -/
def cmdPayload (text : Bytes) : Bytes := BitVec.ofNat 8 (4 + text.length) :: Config.cmdReserved ++ text

theorem length_cmdPayload (text : Bytes) : (cmdPayload text).length = text.length + 5 := by
  simp [cmdPayload]

/-- The command frame is a frame of format F (R216). -/
theorem cmdBytes_eq (text : Bytes) (serial : U16) :
    cmdBytes text serial = wrapBody (frameBody Config.cmdProto (cmdPayload text) serial) := by
  have lengthByte : (cmdPayload text).length + Config.minLength = 10 + text.length := by
    rw [length_cmdPayload]
    exact Nat.add_comm text.length 10
  rw [cmdBytes, cmdBody, frameBody, lengthByte]
  simp [cmdPayload]

section FormatF
variable (proto : Byte) {p : Bytes} (serial : U16)

/-- A slice of the payload of a frame of format F. -/
theorem slice_frame {i j : Nat} (h : j ≤ p.length) :
    slice (wrapBody (frameBody proto p serial)) (4 + i) (4 + j) = slice p i j := by
  rw [wrapBody_frameBody, slice_append_right (by simp), slice_append_left (by simpa using h)]
  simp

/-- The two bytes after the payload are the serial number (R90). -/
theorem memRead_frame_serial :
    memRead (wrapBody (frameBody proto p serial)) (p.length + 4) 2 = serial.toNat := by
  rw [memRead_two (x := hiByte serial) (y := loByte serial), word_hi_lo] <;> simp [wrapBody_frameBody]

/-- The two bytes after the serial number are the checksum of the body (R90, R91). -/
theorem memRead_frame_cksum :
    memRead (wrapBody (frameBody proto p serial)) (p.length + 6) 2 = (crcSumOf (frameBody proto p serial)).toNat := by
  rw [memRead_two (x := hiByte (crcSumOf (frameBody proto p serial)))
    (y := loByte (crcSumOf (frameBody proto p serial))), word_hi_lo] <;> simp [wrapBody_frameBody]

/-- The length byte of a frame of format F whose payload fits it (R90). -/
theorem frame_lengthByte (hp : p.length ≤ 250) :
    (byteAt (wrapBody (frameBody proto p serial)) 2).toNat = p.length + 5 := by
  rw [wrapBody_frameBody]
  simp [byteAt]
  omega

theorem storedCksum_frame (hp : p.length ≤ 250) :
    storedCksum (wrapBody (frameBody proto p serial)) = crcSumOf (frameBody proto p serial) := by
  rw [storedCksum, frame_lengthByte proto serial hp, memRead_frame_cksum]
  simp

/-- DEC.HEADER reads back the fields of a frame of format F (R173). -/
theorem headerOf_frame (hp : p.length ≤ 250) :
    headerOf (wrapBody (frameBody proto p serial)) =
      { len := p.length + 5, proto := proto, payload := p, serial := serial
        cksum := crcSumOf (frameBody proto p serial) } := by
  have payload : slice (wrapBody (frameBody proto p serial)) 4 (p.length + 4) = p := by
    rw [Nat.add_comm]
    exact (slice_frame proto serial (i := 0) le_rfl).trans (slice_full p)
  have protocolId : byteAt (wrapBody (frameBody proto p serial)) 3 = proto := by simp [wrapBody_frameBody, byteAt]
  simp [headerOf, frame_lengthByte proto serial hp, storedCksum_frame proto serial hp, protocolId, payload,
    memRead_frame_serial]

/-- DEC.CHECK passes a frame of format F under either setting of VERIFY_RX_CRC (R170). -/
theorem checkFrame_frame (v : Bool) (hp : p.length ≤ 250) :
    checkFrame v (wrapBody (frameBody proto p serial)) = none := by
  have length : (wrapBody (frameBody proto p serial)).length = p.length + 10 := by simp [wrapBody_frameBody]
  have declared : ¬ p.length + 5 + Config.lenOverhead > p.length + 10 := Nat.lt_irrefl _
  have start : slice (wrapBody (frameBody proto p serial)) 0 2 = Config.startMarker := by
    simp [wrapBody_frameBody, slice]
  have sum : crcVerifyOf (slice (wrapBody (frameBody proto p serial)) 2 (p.length + 6))
      (storedCksum (wrapBody (frameBody proto p serial))) = true := by
    have body := slice_wrapBody (frameBody proto p serial)
    rw [length_frameBody] at body
    simp [crcVerifyOf, storedCksum_frame proto serial hp, body]
  simp only [checkFrame, length, start, frame_lengthByte proto serial hp, declared, sum]
  simp

/-- Decoding a frame of format F (R106, R107). -/
theorem decodeSpan_frame (v : Bool) (cid : Cid) (now : Time) (hp : p.length ≤ 250) :
    decodeSpan v cid now (wrapBody (frameBody proto p serial)) =
      .ok (instrOfHeader cid now { len := p.length + 5, proto := proto, payload := p, serial := serial
                                   cksum := crcSumOf (frameBody proto p serial) }) := by
  rw [decodeSpan, checkFrame_frame proto serial v hp, headerOf_frame proto serial hp]

end FormatF

/-- The protocol-ids outside the table of R107 are those that select RX.UNKNOWN (R174). -/
theorem dispatchOf_eq_unknown {b : Byte} : dispatchOf b = .unknown ↔ knownProto b = false := by
  unfold dispatchOf
  split_ifs <;> simp_all [knownProto]

/-- The operation of the opcode table that builds an acknowledgement (R211 to R214). -/
def ackInstr (serial : U16) : AckProto → Instr
  | .p01 => .txAck01 serial
  | .p13 => .txAck13 serial
  | .p12 => .txAck12 serial
  | .p22 => .txAck22 serial

/-- Reading back an acknowledgement (log entry 15). -/
theorem decodeOutbound_ackBytes (pp : AckProto) (serial : U16) :
    decodeOutbound (ackBytes pp serial) = .ok (ackInstr serial pp) := by
  have fits : ([] : Bytes).length ≤ 250 := Nat.zero_le _
  rw [ackBytes_eq, decodeOutbound, checkFrame_frame _ _ _ fits, headerOf_frame _ _ fits]
  cases pp <;> rfl

/-- Reading back a command frame (log entry 15). -/
theorem decodeOutbound_cmdBytes {text : Bytes} (serial : U16) (h : text.length ≤ 245) :
    decodeOutbound (cmdBytes text serial) = .ok (.txCmd text serial) := by
  have payload := length_cmdPayload text
  have fits : (cmdPayload text).length ≤ 250 := by omega
  have reserved : slice (cmdBytes text serial) 5 9 = Config.cmdReserved := by
    rw [cmdBytes_eq, slice_frame (i := 1) (j := 5) _ _ (by omega)]
    simp [cmdPayload, slice]
  have rest : slice (cmdBytes text serial) 9 (text.length + 9) = text := by
    rw [cmdBytes_eq, show text.length + 9 = 4 + (cmdPayload text).length by omega,
      slice_frame (i := 5) _ _ le_rfl]
    simp [cmdPayload, slice]
  have check : checkFrame false (cmdBytes text serial) = none := by
    rw [cmdBytes_eq, checkFrame_frame _ _ _ fits]
  have header := headerOf_frame Config.cmdProto serial fits
  rw [← cmdBytes_eq, payload] at header
  have long : ¬ text.length + 5 + 5 < 10 := by omega
  simp [decodeOutbound, check, header, long, reserved, rest]

/-- Settles O49: an inbound operation is a frame of format F, which the header reads back; an outbound one is read back
from the same fields; the three tokens differ. -/
theorem decodeOfEncode : Obligations.DecodeOfEncode := by
  intro i v c hwf hc
  cases i <;> cases hc
  case rxLogin | rxHeartbeat | rxLocBasic | rxLocExt | rxCmdResp21 | rxCmdResp15 =>
    exact decodeSpan_frame _ _ v _ _ (of_decide_eq_true hwf)
  case rxUnknown cid now proto p serial =>
    obtain ⟨fits, other⟩ := (Bool.and_eq_true ..).mp hwf
    rw [decode, decodeSpan_frame _ _ v _ _ (of_decide_eq_true fits), instrOfHeader,
      dispatchOf_eq_unknown.mpr (by simpa using other)]
  case txAck01 serial => exact decodeOutbound_ackBytes .p01 serial
  case txAck13 serial => exact decodeOutbound_ackBytes .p13 serial
  case txAck12 serial => exact decodeOutbound_ackBytes .p12 serial
  case txAck22 serial => exact decodeOutbound_ackBytes .p22 serial
  case txCmd text serial => exact decodeOutbound_cmdBytes serial (of_decide_eq_true hwf)
  case cmdBloquear | cmdLiberar | cmdBateria => rfl

/-! ### What the decoder accepts (R90, R107, R217) -/

theorem headerOf_len_lt (f : Bytes) : (headerOf f).len < 256 := (byteAt f 2).isLt

/-- The length byte bounds the payload (R90). -/
theorem length_headerOf_payload_le (f : Bytes) : (headerOf f).payload.length ≤ 250 := by
  have byte := headerOf_len_lt f
  rw [show (headerOf f).payload = slice f 4 ((headerOf f).len - 1) from rfl, length_slice]
  omega

theorem instrOfHeader_wf (cid : Cid) (now : Time) {h : Header} (hp : h.payload.length ≤ 250) :
    (instrOfHeader cid now h).wf = true ∧ (instrOfHeader cid now h).encodable = true := by
  have fits : payloadOk h.payload = true := decide_eq_true hp
  unfold instrOfHeader
  cases hd : dispatchOf h.proto
  case unknown => exact ⟨by simp [Instr.wf, fits, dispatchOf_eq_unknown.mp hd], rfl⟩
  all_goals exact ⟨fits, rfl⟩

/-- The text read from a command frame fits its length byte (R217). -/
theorem decodeOutbound_text_length_le {f text : Bytes} {n : U16} (h : decodeOutbound f = .ok (.txCmd text n)) :
    text.length ≤ 245 := by
  have byte := headerOf_len_lt f
  unfold decodeOutbound at h
  split at h
  · cases h
  · dsimp only at h
    split_ifs at h <;> cases h
    rw [length_slice]
    omega

/-- Settles O50, by the direction: the length byte bounds the payload and the text. -/
theorem decodedIsWellFormed : Obligations.DecodedIsWellFormed := by
  intro v c i h
  cases c with
  | inbound cid now f =>
    simp only [decode, decodeSpan] at h
    split at h <;> cases h
    exact instrOfHeader_wf cid now (length_headerOf_payload_le f)
  | outbound f =>
    obtain ⟨n, ⟨text, rfl⟩ | rfl | rfl | rfl | rfl⟩ := decodeOutbound_cases h
    · exact ⟨decide_eq_true (decodeOutbound_text_length_le h), rfl⟩
    all_goals exact ⟨rfl, rfl⟩
  | token id ref now t =>
    simp only [decode, decodeToken] at h
    split_ifs at h <;> cases h <;> exact ⟨rfl, rfl⟩

/-- Settles O48: six closed words, which the decoder reads; the frames' checksums are computed. -/
theorem tableWordsDecode : Obligations.TableWordsDecode := by
  refine ⟨?_, ?_, ?_, rfl, ?_, ?_⟩ <;> decide +kernel

end Sys2Proof.Machine
end

section
/-!
PROOFS. The Checksum Engine (`40_crc.md` R130 to R137): what its five operations write, that CRC.SUM is its register
operations one after the other, and what a checksum is in the two other readings of the spec: division on integers
(R131), and the register reflected throughout (R137).  Both hold because a map of registers (`BitVec.toNat`,
`reflect16`) carries the step of the division to the other reading's step, hence any number of steps.
-/

namespace Sys2Proof.Machine

/-! ### What the operations write (R130 to R134) -/

theorem exec_crcInit (s : State) : exec .crcInit s = .next ((s.setCrc Config.crcInit).setResult .nothing) := rfl

theorem exec_crcByte (b : Byte) (s : State) :
    exec (.crcByte b) s = .next ((s.setCrc (crcMix s.crcR b)).setResult .nothing) := rfl

theorem exec_crcFinal (s : State) : exec .crcFinal s = .next (s.setResult (.word (crcOut s.crcR))) := rfl

theorem exec_crcSum (bs : Bytes) (s : State) :
    exec (.crcSum bs) s = .next ((s.setCrc (crcRun bs)).setResult (.word (crcSumOf bs))) := rfl

theorem exec_crcVerify (bs : Bytes) (c : U16) (s : State) :
    exec (.crcVerify bs c) s = .next ((s.setCrc (crcRun bs)).setResult (.truth (crcSumOf bs = c))) := rfl

theorem OnlyTransient.setResult (s : State) (v : Result) : OnlyTransient s (s.setResult v) :=
  ⟨rfl, rfl, rfl, rfl, rfl, rfl, rfl, rfl⟩

theorem OnlyTransient.setCrc_setResult (s : State) (r : U16) (v : Result) :
    OnlyTransient s ((s.setCrc r).setResult v) :=
  ⟨rfl, rfl, rfl, rfl, rfl, rfl, rfl, rfl⟩

/-- Settles O1: the operation's equation. -/
theorem crcInitSetsRegister : Obligations.CrcInitSetsRegister := fun s =>
  ⟨_, exec_crcInit s, rfl, .setCrc_setResult s _ _, rfl, rfl⟩

/-- Settles O5: CRC.SUM and CRC.VERIFY compute one value. -/
theorem crcVerifyComparesWithSum : Obligations.CrcVerifyComparesWithSum := fun bs c s =>
  ⟨_, _, crcSumOf bs, exec_crcSum bs s, rfl, exec_crcVerify bs c s, rfl, .setCrc_setResult s _ _, rfl, rfl⟩

/-! ### CRC.SUM, operation by operation (R133) -/

theorem execAll_cons_of_next {i : Instr} {s t : State} (h : exec i s = .next t) (is : List Instr) :
    execAll (i :: is) s = execAll is t := by
  rw [execAll, h]

/-- CRC.BYTE for each byte in order runs the register over the bytes. -/
theorem execAll_crcBytes (bs : Bytes) (is : List Instr) (s : State) (r : U16) :
    execAll (bs.map .crcByte ++ is) ((s.setCrc r).setResult .nothing) =
      execAll is ((s.setCrc (bs.foldl crcMix r)).setResult .nothing) := by
  induction bs generalizing r with
  | nil => rfl
  | cons b bs ih => exact (execAll_cons_of_next (exec_crcByte b _) _).trans (ih (crcMix r b))

theorem execAll_crcSum (bs : Bytes) (s : State) :
    execAll (.crcInit :: bs.map .crcByte ++ [.crcFinal]) s =
      .next ((s.setCrc (crcRun bs)).setResult (.word (crcSumOf bs))) := by
  rw [List.cons_append, execAll_cons_of_next (exec_crcInit s), execAll_crcBytes,
    execAll_cons_of_next (exec_crcFinal _)]
  rfl

/-- Settles O4: both sides end in the state of `execAll_crcSum`. -/
theorem crcSumRunsRegisterOperations : Obligations.CrcSumRunsRegisterOperations := fun bs =>
  ⟨crcSumOf bs, fun s =>
    ⟨_, exec_crcSum bs s, rfl, execAll_crcSum bs s, .setCrc_setResult s _ _, rfl, rfl⟩⟩

/-! ### Reflection (R136, R132) -/

section Reverse
variable {w : Nat} (x y : BitVec w)

theorem getLsbD_reverse_of_lt {i : Nat} (h : i < w) : x.reverse.getLsbD i = x.getLsbD (w - 1 - i) := by
  rw [BitVec.getLsbD_reverse, BitVec.getMsbD_eq_getLsbD, decide_eq_true h, Bool.true_and]

theorem reverse_xor : (x ^^^ y).reverse = x.reverse ^^^ y.reverse := by
  ext i h
  simp [BitVec.getElem_reverse]

theorem reverse_shiftLeft (n : Nat) : (x <<< n).reverse = x.reverse >>> n := by
  ext i h
  simp [BitVec.getElem_reverse, BitVec.getLsbD_reverse, Nat.add_comm]

/-- A word in the high part of a wider one is, reversed, in the low part. -/
theorem reverse_setWidth_shiftLeft (v : Nat) : (x.setWidth (w + v) <<< v).reverse = x.reverse.setWidth (w + v) := by
  ext i h
  have index : i + v + w - (w + v) = i := by omega
  simp [BitVec.getElem_reverse, BitVec.getLsbD_reverse, BitVec.getMsbD_setWidth, index]

end Reverse

theorem reflect16_xor (x y : U16) : reflect16 (x ^^^ y) = reflect16 x ^^^ reflect16 y := reverse_xor x y

/-- Settles O7: both reflections are the library's `BitVec.reverse`. -/
theorem reflectionsReverseBits : Obligations.ReflectionsReverseBits :=
  ⟨fun b _ => getLsbD_reverse_of_lt b, fun w _ => getLsbD_reverse_of_lt w,
    fun _ => BitVec.reverse_reverse_eq, fun _ => BitVec.reverse_reverse_eq⟩

/-- CRC.FINAL inverts the reflected register (R132). -/
theorem crcOut_eq_not (r : U16) : crcOut r = ~~~ reflect16 r := BitVec.xor_allOnes

theorem getLsbD_crcOut (r : U16) {i : Nat} (h : i < 16) : (crcOut r).getLsbD i = !r.getLsbD (15 - i) := by
  rw [crcOut_eq_not, BitVec.getLsbD_not, reflect16, getLsbD_reverse_of_lt r h]
  simp [h]

/-- Settles O3: the operation's equation and the bits of its value. -/
theorem crcFinalReflectsThenInverts : Obligations.CrcFinalReflectsThenInverts := fun s =>
  ⟨_, _, exec_crcFinal s, rfl, fun _ => getLsbD_crcOut s.crcR, rfl, .setResult s _, rfl, rfl⟩

/-! ### The division, as an iterated step -/

theorem crcShifts_eq_iterate (n : Nat) (r : U16) : crcShifts n r = crcShift^[n] r := by
  induction n generalizing r with
  | zero => rfl
  | succ n ih => exact ih (crcShift r)

theorem crcMix_eq_iterate (r : U16) (b : Byte) :
    crcMix r b = crcShift^[8] (r ^^^ ((reflect8 b).setWidth 16 <<< 8)) :=
  crcShifts_eq_iterate 8 _

/-! ### The division on integers (R131) -/

theorem semiconj_toNat_crcShift : Function.Semiconj BitVec.toNat crcShift crcStepNat := by
  intro r
  have bit : r.getLsbD 15 = decide (r.toNat / 32768 % 2 = 1) := Nat.testBit_eq_decide_div_mod_eq
  have shift : (r <<< 1).toNat = r.toNat * 2 % 65536 := by rw [BitVec.toNat_shiftLeft, Nat.shiftLeft_eq]
  have poly : Config.crcPoly.toNat = 0x1021 := rfl
  simp only [crcShift, crcStepNat, apply_ite BitVec.toNat, BitVec.toNat_xor, bit, shift, poly, decide_eq_true_eq]

/-- One step of the recursion of `BitVec.reverse`, on the low bits of `x`: the top one goes below the others. -/
theorem toNat_reverse_setWidth_succ {w : Nat} (x : BitVec w) (k : Nat) :
    (x.setWidth (k + 1)).reverse.toNat = (x.setWidth k).reverse.toNat * 2 + x.toNat / 2 ^ k % 2 := by
  rw [BitVec.reverse, BitVec.toNat_concat, BitVec.truncate_eq_setWidth, BitVec.setWidth_setWidth_of_le _ k.le_succ,
    BitVec.msb_setWidth'']
  exact congrArg _ (Nat.toNat_testBit ..)

/-- The model's `reflect8` is R136's, read on integers. -/
theorem toNat_reflect8 (b : Byte) : (reflect8 b).toNat = reflect8Nat b.toNat := by
  have whole : reflect8 b = (b.setWidth 8).reverse := by rw [BitVec.setWidth_eq, reflect8]
  simp only [whole, toNat_reverse_setWidth_succ, BitVec.toNat_of_zero_length, reflect8Nat, Nat.reducePow, Nat.div_one]
  ring

theorem toNat_highByte (b : Byte) : (b.setWidth 16 <<< 8).toNat = b.toNat * 256 := by
  have byte := b.isLt
  rw [BitVec.toNat_shiftLeft, BitVec.toNat_setWidth, Nat.shiftLeft_eq]
  omega

theorem toNat_crcMix (r : U16) (b : Byte) :
    (crcMix r b).toNat = crcEightNat (r.toNat ^^^ (reflect8Nat b.toNat * 256)) := by
  rw [crcMix_eq_iterate, semiconj_toNat_crcShift.iterate_right 8, BitVec.toNat_xor, toNat_highByte, toNat_reflect8]
  rfl

/-- Settles O2: the operation's equation, its register read as an integer. -/
theorem crcByteDividesBitByBit : Obligations.CrcByteDividesBitByBit := fun b s =>
  ⟨_, exec_crcByte b s, toNat_crcMix s.crcR b, .setCrc_setResult s _ _, rfl, rfl⟩

/-! ### The form without reflection (R137) -/

/-- Reflection carries the step of R131 to that of R137: the shift turns round, and 0x8408 is 0x1021 reflected. -/
theorem semiconj_reflect16_crcShift : Function.Semiconj reflect16 crcShift lsbStep := by
  intro r
  have bit : (reflect16 r).getLsbD 0 = r.getLsbD 15 := getLsbD_reverse_of_lt r (by decide)
  have shift : reflect16 (r <<< 1) = reflect16 r >>> 1 := reverse_shiftLeft r 1
  have poly : reflect16 Config.crcPoly = 0x8408 := by decide
  rw [crcShift, lsbStep, apply_ite reflect16, reflect16_xor, shift, poly, bit]

/-- What R131 mixes into the register is, reflected, the byte itself, which R137 mixes in. -/
theorem reflect16_highByte (b : Byte) : reflect16 ((reflect8 b).setWidth 16 <<< 8) = b.setWidth 16 := by
  rw [reflect16, reverse_setWidth_shiftLeft (reflect8 b) 8, reflect8, BitVec.reverse_reverse_eq]

theorem reflect16_crcMix (r : U16) (b : Byte) :
    lsbEight (reflect16 r ^^^ b.setWidth 16) = reflect16 (crcMix r b) := by
  rw [crcMix_eq_iterate, semiconj_reflect16_crcShift.iterate_right 8, reflect16_xor, reflect16_highByte]
  rfl

/-- `q` equals the reflected `CRC.R` after every byte (R137). -/
theorem lsbSum_eq_crcSumOf (bs : Bytes) : lsbSum bs = crcSumOf bs :=
  congrArg (· ^^^ 0xFFFF) (List.foldl_hom (l := bs) (init := Config.crcInit) reflect16 reflect16_crcMix)

/-- Settles O6: the register of R137 is that of R133 reflected. -/
theorem crcLsbFirstFormAgrees : Obligations.CrcLsbFirstFormAgrees := fun bs s =>
  ⟨_, exec_crcSum bs s, congrArg Result.word (lsbSum_eq_crcSumOf bs).symm⟩

end Sys2Proof.Machine
end

section
/-!
PROOFS. The Frame Reassembler (`41_reassembler.md` R150 to R159): what FR.SCAN writes, that every span it emits is a
`CleanFrame`, and the source's three reassembly properties.
-/

namespace Sys2Proof.Machine

/-! ### What FR.SCAN writes (R150, R151) -/

theorem exec_frScan (buf : Bytes) (s : State) :
    exec (.frScan buf) s = .next ((s.setPos (scan buf).2).setResult (.frames (scan buf).1 (scan buf).2)) := rfl

theorem OnlyTransient.setPos_setResult (s : State) (p : Nat) (v : Result) :
    OnlyTransient s ((s.setPos p).setResult v) :=
  ⟨rfl, rfl, rfl, rfl, rfl, rfl, rfl, rfl⟩

/-- Settles O8: the operation's equation, and the scan is R151's loop (`scan_scans`). -/
theorem scanFollowsMarkers : Obligations.ScanFollowsMarkers := fun buf s =>
  ⟨_, _, _, exec_frScan buf s, rfl, scan_scans buf, scan_le_length buf, rfl, .setPos_setResult s _ _, rfl, rfl⟩

/-! ### A pattern within a slice (R10) -/

theorem standsAt_take {b m : Bytes} {n i : Nat} (h : i + m.length ≤ n) : StandsAt (b.take n) m i ↔ StandsAt b m i := by
  have inside : i + m.length - i ≤ n - i := Nat.sub_le_sub_right h i
  rw [StandsAt, StandsAt, slice, slice, List.drop_take, List.take_take, min_eq_left inside]

theorem FoundAt.take {b m : Bytes} {start i n : Nat} (h : FoundAt b m start i) (hn : i + m.length ≤ n) :
    FoundAt (b.take n) m start i := by
  obtain ⟨from_start, stands, least⟩ := h
  refine ⟨from_start, (standsAt_take hn).mpr stands, fun j hj hji => ?_⟩
  rw [standsAt_take (by omega)]
  exact least j hj hji

theorem slice_eq_drop_take (b : Bytes) (i j : Nat) : slice b i j = (b.take j).drop i := List.drop_take.symm

/-! ### Every span is delimited (R154, R156) -/

/-- What R151 cuts out, from a start marker to the end of the first stop marker after it. -/
theorem cleanFrame_slice {b : Bytes} {i e : Nat} (start : StandsAt b Config.startMarker i)
    (stop : FoundAt b Config.stopMarker i e) : CleanFrame (slice b i (e + 2)) := by
  have apart : i + 2 ≤ e := stop_after_start start stop
  have fits : e + 2 ≤ b.length := stop.2.1.le_length (by decide)
  have size : (slice b i (e + 2)).length = e - i + 2 := by
    rw [length_slice]
    omega
  refine ⟨?_, ?_, by omega⟩
  · rw [slice_eq_drop_take, standsAt_drop]
    exact (standsAt_take (apart.trans (Nat.le_add_right e 2))).mpr start
  · rw [size, Nat.add_sub_cancel, slice_eq_drop_take, foundAt_drop, Nat.add_zero, Nat.add_sub_cancel' stop.1]
    exact stop.take le_rfl

/-- Every span of R151's loop is delimited by its markers. -/
theorem Scans.cleanFrame_of_mem {buf f : Bytes} {pos n : Nat} {fs : List Bytes} (h : Scans buf pos fs n)
    (hf : f ∈ fs) : CleanFrame f := by
  induction h with
  | noStart | noStop => cases hf
  | frame start stop _ ih =>
    cases hf with
    | head => exact cleanFrame_slice start.2.1 stop
    | tail _ hf => exact ih hf

/-- What DEC.CHECK writes: the register of the checksum it computes, and its verdict (R170). -/
theorem exec_decCheck (f : Bytes) (s : State) :
    exec (.decCheck f) s =
      .next ((s.afterCheck f).setResult ((checkFrame s.cfg.verifyRxCrc f).elim .passed .raised)) := by
  change execDecCheck f s = _
  unfold execDecCheck
  cases checkFrame s.cfg.verifyRxCrc f <;> rfl

/-- DEC.CHECK raises exactly the condition `checkFrame` answers. -/
theorem verdict_eq_raised {o : Option Cond} {e : Cond} : o.elim Result.passed .raised = .raised e ↔ o = some e := by
  cases o <;> simp

/-- E_START is for a span that does not begin with the start marker (R304). -/
theorem checkFrame_ne_eStart {f : Bytes} (v : Bool) (start : StandsAt f Config.startMarker 0) :
    checkFrame v f ≠ some .eStart := by
  have begins : slice f 0 2 = Config.startMarker := start
  rw [checkFrame, if_neg (not_not_intro begins)]
  split_ifs <;> decide

/-- Settles O9: the spans are those of R151's loop, and DEC.CHECK raises what `checkFrame` answers. -/
theorem scanSpansAreDelimited : Obligations.ScanSpansAreDelimited := by
  intro buf f fs n s t ht hres hf
  obtain rfl := Host.Outcome.next.inj ((exec_frScan buf s).symm.trans ht)
  obtain ⟨rfl, rfl⟩ := Result.frames.inj hres
  have clean := (scan_scans buf).cleanFrame_of_mem hf
  refine ⟨clean, _, exec_decCheck f _, fun raised => ?_⟩
  exact checkFrame_ne_eStart _ clean.1 (verdict_eq_raised.mp raised)

/-! ### The three reassembly properties (R159) -/

theorem scan_nil : scan [] = ([], 0) := rfl

/-- FR.SCAN of one frame (R159). -/
theorem CleanFrame.scan_self {f : Bytes} (h : CleanFrame f) : scan f = ([f], f.length) := by
  have one := h.scan_append []
  rwa [List.append_nil, scan_nil] at one

/-- A frame is its bytes before the stop marker, then the stop marker. -/
theorem CleanFrame.take_append_stopMarker {f : Bytes} (h : CleanFrame f) :
    f.take (f.length - 2) ++ Config.stopMarker = f := by
  obtain ⟨-, ⟨-, stop, -⟩, size⟩ := h
  have last : Config.stopMarker = f.drop (f.length - 2) :=
    ((standsAt_iff ..).mp stop).eq_of_length (by rw [List.length_drop, stopMarker_length]; omega)
  rw [last, List.take_append_drop]

/-- FR.SCAN of a frame without its stop marker retains it whole (R153, R159). -/
theorem CleanFrame.scan_take {f : Bytes} (h : CleanFrame f) : scan (f.take (f.length - 2)) = ([], 0) := by
  obtain ⟨start, ⟨-, -, least⟩, size⟩ := h
  rw [scan_eq_iff]
  refine .noStop (i := 0) ⟨le_rfl, (standsAt_take ?_).mpr start, fun j _ hj => absurd hj j.not_lt_zero⟩ fun j _ hj => ?_
  · rw [startMarker_length]
    omega
  · have fits : j + 2 ≤ _ := hj.le_length (by decide)
    rw [List.length_take_of_le (Nat.sub_le ..)] at fits
    exact least j j.zero_le (by omega) ((standsAt_take fits).mp hj)

/-- Settles O10: FR.SCAN of two frames, of one without its stop marker, and of one. -/
theorem twoFramesAndARemainder : Obligations.TwoFramesAndARemainder := by
  intro f g s hf hg
  have two : scan (f ++ g) = ([f, g], (f ++ g).length) := by
    rw [hf.scan_append, hg.scan_self, List.length_append]
  refine ⟨⟨_, exec_frScan _ s, ?_⟩, ⟨_, exec_frScan _ s, ?_⟩, ⟨_, exec_frScan _ s, ?_⟩⟩
  · rw [two, State.setResult_result]
  · rw [hf.scan_take, State.setResult_result]
  · rw [hf.take_append_stopMarker, hf.scan_self, State.setResult_result]

end Sys2Proof.Machine
end

section
/-!
PROOFS. The Protocol Codec, decode side (`42_decode.md` R170 to R182): when DEC.CHECK raises which condition, where the
fields of a span stand, what an RX.* operation that acknowledges leaves as it was, and what each of them decodes.
-/

namespace Sys2Proof.Machine

/-! ### Bytes and words of a span (R10, R62) -/

theorem getElem?_eq_byteAt {b : Bytes} {i : Nat} (h : i < b.length) : b[i]? = some (byteAt b i) := by
  simp [byteAt, h]

/-- The two bytes at an offset, read big-endian. -/
theorem memRead_eq_byteAt {b : Bytes} {i : Nat} (h : i + 1 < b.length) :
    memRead b i 2 = (byteAt b i).toNat * 256 + (byteAt b (i + 1)).toNat :=
  memRead_two (getElem?_eq_byteAt (Nat.lt_of_succ_lt h)) (getElem?_eq_byteAt h)

/-- The byte at an offset is the high byte of the word read there. -/
theorem getElem?_eq_hiByte {b : Bytes} {i : Nat} (h : i + 1 < b.length) :
    b[i]? = some (hiByte (BitVec.ofNat 16 (memRead b i 2))) := by
  rw [memRead_eq_byteAt h, hiByte_ofNat, getElem?_eq_byteAt (Nat.lt_of_succ_lt h)]

/-- The byte after an offset is the low byte of the word read there. -/
theorem getElem?_eq_loByte {b : Bytes} {i : Nat} (h : i + 1 < b.length) :
    b[i + 1]? = some (loByte (BitVec.ofNat 16 (memRead b i 2))) := by
  rw [memRead_eq_byteAt h, loByte_ofNat, getElem?_eq_byteAt h]

/-- A big-endian word, in integer arithmetic. -/
theorem toNat_append_bytes (a b : Byte) : (a ++ b).toNat = a.toNat * 256 + b.toNat := by
  rw [BitVec.toNat_append, ← Nat.shiftLeft_add_eq_or_of_lt b.isLt, Nat.shiftLeft_eq]

theorem ofNat_beNat_pair (a b : Byte) : BitVec.ofNat 16 (beNat [a, b]) = a ++ b := by
  apply BitVec.eq_of_toNat_eq
  have high := a.isLt
  have low := b.isLt
  rw [beNat_pair, toNat_append_bytes, BitVec.toNat_ofNat]
  omega

/-! ### The five tests of DEC.CHECK (R170 to R172) -/

/-- A span passes DEC.CHECK: none of the five tests fails. -/
structure PassesCheck (verify : Bool) (f : Bytes) : Prop where
  minFrame : 10 ≤ f.length
  start    : slice f 0 2 = Config.startMarker
  declared : (byteAt f 2).toNat + 5 ≤ f.length
  minLen   : 5 ≤ (byteAt f 2).toNat
  cksum    : verify = true → crcSumOf (slice f 2 ((byteAt f 2).toNat + 1)) = storedCksum f

theorem checkFrame_eq_none {verify : Bool} {f : Bytes} : checkFrame verify f = none ↔ PassesCheck verify f := by
  unfold checkFrame
  constructor
  · intro h
    split_ifs at h with hshort hstart htrunc hlen hcrc
    exact ⟨by simpa using hshort, by simpa using hstart, by simpa using htrunc, by simpa using hlen,
      by simpa [crcVerifyOf] using hcrc⟩
  · rintro ⟨hmin, hstart, hdecl, hlen, hcrc⟩
    rw [if_neg hmin.not_gt, if_neg (not_not_intro hstart), if_neg hdecl.not_gt, if_neg hlen.not_gt, if_neg]
    simpa [crcVerifyOf] using hcrc

theorem OnlyTransient.afterCheck_setResult (s : State) (f : Bytes) (v : Result) :
    OnlyTransient s ((s.afterCheck f).setResult v) := by
  unfold State.afterCheck
  split
  · exact .setCrc_setResult s _ v
  · exact .setResult s v

@[simp] theorem State.afterCheck_pos (s : State) (f : Bytes) : (s.afterCheck f).pos = s.pos := by
  unfold State.afterCheck
  split <;> rfl

@[simp] theorem State.afterCheck_msg (s : State) (f : Bytes) : (s.afterCheck f).msg = s.msg := by
  unfold State.afterCheck
  split <;> rfl

/-- The tests after E_SHORT, on the first three bytes of a span. -/
theorem checkFrame_cons (verify : Bool) {m0 m1 l : Byte} {rest : Bytes} (hmin : 10 ≤ (m0 :: m1 :: l :: rest).length) :
    checkFrame verify (m0 :: m1 :: l :: rest) =
      if ¬ (m0 = 0x78 ∧ m1 = 0x78) then some .eStart
      else if (m0 :: m1 :: l :: rest).length < l.toNat + 5 then some .eTrunc
      else if l.toNat < 5 then some .eLen
      else if verify = true ∧ crcSumOf (((m0 :: m1 :: l :: rest).drop 2).take (l.toNat - 1)) ≠
          storedCksum (m0 :: m1 :: l :: rest) then some .eCrc
      else none := by
  have start : slice (m0 :: m1 :: l :: rest) 0 2 = Config.startMarker ↔ m0 = 0x78 ∧ m1 = 0x78 := by simp [slice]
  rw [checkFrame, if_neg hmin.not_gt]
  simp only [ne_eq, start, crcVerifyOf, Bool.and_eq_true, Bool.not_eq_true', decide_eq_false_iff_not]
  rfl

/-- The checksum a span carries, by its two bytes (R172). -/
theorem toNat_storedCksum {f : Bytes} {c0 c1 : Byte} (h0 : f[(byteAt f 2).toNat + 1]? = some c0)
    (h1 : f[(byteAt f 2).toNat + 2]? = some c1) : (storedCksum f).toNat = c0.toNat * 256 + c1.toNat := by
  rw [storedCksum, memRead_two h0 h1, ← beNat_pair, ofNat_beNat_pair, toNat_append_bytes, beNat_pair]

/-- Settles O12: DEC.CHECK raises what `checkFrame` answers, whose tests stand in the order of R170. -/
theorem checkRaisesFirstCondition : Obligations.CheckRaisesFirstCondition := by
  intro f s
  refine ⟨_, exec_decCheck f s, .afterCheck_setResult s f _, s.afterCheck_pos f, s.afterCheck_msg f,
    fun hshort => verdict_eq_raised.mpr (if_pos hshort), ?_⟩
  rintro m0 m1 l rest rfl hmin
  rw [State.setResult_result, checkFrame_cons _ hmin]
  refine ⟨fun hstart => ?_, fun hstart => ⟨fun htrunc => ?_, fun hdecl => ⟨fun hlen => ?_, ?_⟩⟩⟩
  · rw [if_pos hstart]
    rfl
  · rw [if_neg (not_not_intro hstart), if_pos htrunc]
    rfl
  · rw [if_neg (not_not_intro hstart), if_neg hdecl.not_gt, if_pos hlen]
    rfl
  · intro hlen c0 c1 h0 h1
    have stored := toNat_storedCksum h0 h1
    rw [if_neg (not_not_intro hstart), if_neg hdecl.not_gt, if_neg hlen.not_gt, ← stored]
    refine ⟨fun ⟨hverify, hsum⟩ => ?_, fun hpass => ?_⟩
    · rw [if_pos ⟨hverify, fun h => hsum (congrArg _ h)⟩]
      rfl
    · rw [if_neg fun ⟨hverify, hsum⟩ => hpass.elim (by simp [hverify]) fun h => hsum (BitVec.eq_of_toNat_eq h)]
      rfl

/-! ### The fields of a span that passes (R173, R40) -/

/-- Every field of a span that passes stands before its declared end (D7). -/
theorem PassesCheck.append {verify : Bool} {f : Bytes} (h : PassesCheck verify f) (x : Bytes) :
    PassesCheck verify (f ++ x) ∧ headerOf (f ++ x) = headerOf f := by
  obtain ⟨hmin, hstart, hdecl, hlen, hcrc⟩ := h
  have len : byteAt (f ++ x) 2 = byteAt f 2 := byteAt_append_left x (by omega)
  have cksum : storedCksum (f ++ x) = storedCksum f := by
    rw [storedCksum, storedCksum, len, memRead_append_left x (by omega)]
  constructor
  · refine ⟨by rw [List.length_append]; omega, ?_, by rw [len, List.length_append]; omega, by rwa [len], ?_⟩
    · rwa [slice_append_left (by omega)]
    · rwa [len, cksum, slice_append_left (by omega)]
  · simp only [headerOf, len, cksum]
    rw [byteAt_append_left x (by omega), slice_append_left (by omega), memRead_append_left x (by omega)]

/-- Settles O15: a span that passes still passes with bytes appended, and has the same header. -/
theorem bytesAfterDeclaredEndIgnored : Obligations.BytesAfterDeclaredEndIgnored := by
  intro v cid now f x i h
  unfold decodeSpan at h ⊢
  split at h
  · cases h
  · rename_i passed
    obtain ⟨again, header⟩ := (checkFrame_eq_none.mp passed).append x
    rwa [checkFrame_eq_none.mpr again, header]

/-- Settles O13: the bounds DEC.CHECK has tested place every field within the span. -/
theorem headerFieldsLocatedByLength : Obligations.HeaderFieldsLocatedByLength := by
  intro f s passed
  obtain ⟨hmin, -, hdecl, hlen, -⟩ := checkFrame_eq_none.mp passed
  have payload : (headerOf f).payload = slice f 4 ((headerOf f).len - 1) := rfl
  change (headerOf f).len + 5 ≤ f.length at hdecl
  change 5 ≤ (headerOf f).len at hlen
  refine ⟨_, headerOf f, if_pos passed, rfl, rfl, ?_, getElem?_eq_byteAt (by omega), ?_, fun k hk => ?_,
    getElem?_eq_hiByte (by omega), ?_, getElem?_eq_hiByte (by omega), getElem?_eq_loByte (by omega)⟩
  · rw [getElem?_eq_byteAt (by omega), headerOf, BitVec.ofNat_toNat, BitVec.setWidth_eq]
  · rw [payload, length_slice]
    omega
  · exact payload ▸ getElem?_slice f 4 _ k (by omega)
  · have next : (headerOf f).len - 1 + 1 = (headerOf f).len := by omega
    exact next ▸ getElem?_eq_loByte (b := f) (i := (headerOf f).len - 1) (by omega)

/-! ### DEC.DISPATCH (R174) -/

/-- Settles O14: by the table of R107, whose rows exclude each other. -/
theorem dispatchIsTotal : Obligations.DispatchIsTotal := by
  intro b s
  refine ⟨_, dispatchOf b, rfl, rfl, ?_, ?_, ?_, ?_, ?_, ?_,
    fun other => dispatchOf_eq_unknown.mpr (by simpa [knownProto] using other)⟩
  all_goals
    rintro rfl
    rfl

/-! ### Acknowledged messages (R182, R210 to R214) -/

/-- The acknowledgement, byte by byte (R97 format A). -/
theorem ackBytes_eq_ackFrame (pp : AckProto) (serial : U16) : ackBytes pp serial = ackFrame (ackByte pp) serial := by
  simp [ackBytes, ackBody, wrapBody, ackFrame, beBytes_two]

/-- What an RX.* operation of connection `cid` does besides its message and its session: it sends one acknowledgement,
and leaves the other sessions, the buffers, the other tables and `pos` as they were. -/
structure Acknowledges (cid : Cid) (pp : AckProto) (serial : U16) (s t : State) : Prop where
  outs     : t.outs = s.outs ++ [.tx cid (ackFrame (ackByte pp) serial)]
  sessions : OnlySessions s t
  others   : OtherSessionsKept cid s t
  buffers  : BuffersKept s t
  pos      : t.pos = s.pos

theorem State.modSession_id (s : State) (cid : Cid) : s.modSession cid (fun r => r) = s := by
  rw [State.modSession, tmod_id]

section Acked
variable (cid : Cid) (now : Time) (pp : AckProto) (p : Bytes) (serial : U16) (m : Message) (s : State)

/-- A message that writes the session, then acknowledges. -/
theorem acknowledges_modSession (f : Session → Session) :
    Acknowledges cid pp serial s (State.received (m, (s.modSession cid f).sendAck cid pp serial)) where
  outs := by
    rw [← ackBytes_eq_ackFrame]
    rfl
  sessions := ⟨rfl, rfl, rfl, rfl, rfl, rfl⟩
  others _ hc := s.session?_modSession_other f hc
  buffers _ _ := rfl
  pos := rfl

/-- A message that only acknowledges. -/
theorem acknowledges_sendAck : Acknowledges cid pp serial s (State.received (m, s.sendAck cid pp serial)) := by
  have kept := acknowledges_modSession cid pp serial m s (fun r => r)
  rwa [State.modSession_id] at kept

theorem recvLogin_acknowledges : Acknowledges cid .p01 serial s (State.received (recvLogin cid p serial s)) := by
  unfold recvLogin
  split
  · exact acknowledges_sendAck ..
  · exact acknowledges_modSession ..

theorem recvHeartbeat_acknowledges :
    Acknowledges cid .p13 serial s (State.received (recvHeartbeat cid now p serial s)) := by
  unfold recvHeartbeat
  split
  · exact acknowledges_sendAck ..
  · exact acknowledges_modSession ..

/-! ### Failed field groups (R182, R308) -/

theorem recvLogin_of_fails {p : Bytes} (h : LoginFails p) :
    recvLogin cid p serial s = (.login none, s.sendAck cid .p01 serial) := by
  rw [recvLogin, loginIdentity_eq_none.mpr h]

theorem recvHeartbeat_of_short {p : Bytes} (h : p.length < 4) :
    recvHeartbeat cid now p serial s = (.heartbeat none, s.sendAck cid .p13 serial) := if_pos h

theorem recvLocBasic_of_short {p : Bytes} (h : p.length < 18) :
    recvLocBasic cid now p serial s = (.locBasic none, s.sendAck cid .p12 serial) := if_pos h

theorem recvLocExt_of_short {p : Bytes} (h : p.length < 19) :
    recvLocExt cid now p serial s = (.locExt none, s.sendAck cid .p22 serial) := if_pos h

end Acked

/-- A failed field group leaves its tag, writes no session and is acknowledged. -/
theorem failure_acknowledged (pp : AckProto) {i : Instr} {cid : Cid} {serial : U16} {m : Message} {s : State}
    {received : Message × State} (run : exec i s = .next (State.received received))
    (fails : received = (m, s.sendAck cid pp serial)) :
    ∃ t, exec i s = .next t ∧ t.msg = some m ∧ t.sess = s.sess ∧
      t.outs = s.outs ++ [.tx cid (ackFrame (ackByte pp) serial)] ∧ OnlySessions s t := by
  subst fails
  have ack := acknowledges_sendAck cid pp serial m s
  exact ⟨_, run, rfl, rfl, ack.outs, ack.sessions⟩

/-- Settles O21: each operation, on a live connection, answers what its rule does on a payload that fails. -/
theorem payloadFailureStillAcks : Obligations.PayloadFailureStillAcks := by
  intro cid now p serial s r hr
  refine ⟨fun fails => ?_, fun short => ?_, fun short => ?_, fun short => ?_⟩
  · exact failure_acknowledged .p01 (State.onConnection_of_session hr _) (recvLogin_of_fails cid serial s fails)
  · exact failure_acknowledged .p13 (State.onConnection_of_session hr _) (recvHeartbeat_of_short cid now serial s short)
  · exact failure_acknowledged .p12 (State.onConnection_of_session hr _) (recvLocBasic_of_short cid now serial s short)
  · exact failure_acknowledged .p22 (State.onConnection_of_session hr _) (recvLocExt_of_short cid now serial s short)

/-! ### Login (R175) -/

/-- What RX.LOGIN decodes, and the identity it leaves. -/
theorem recvLogin_session {cid : Cid} {s : State} {r : Session} (p : Bytes) (serial : U16)
    (hr : s.session? cid = some r) :
    (recvLogin cid p serial s).1 = .login (loginIdentity p) ∧
      (recvLogin cid p serial s).2.session? cid = some { r with imei := (loginIdentity p).or r.imei } := by
  unfold recvLogin
  cases loginIdentity p with
  | none => exact ⟨rfl, hr⟩
  | some d => exact ⟨rfl, State.session?_login hr d⟩

/-- Settles O16: the identity decoded is the one the payload carries, and none is decoded exactly where it fails. -/
theorem loginRecordsIdentityAndAcks : Obligations.LoginRecordsIdentityAndAcks := by
  intro cid now p serial s r hr
  have ack := recvLogin_acknowledges cid p serial s
  obtain ⟨message, session⟩ := recvLogin_session p serial hr
  refine ⟨_, loginIdentity p, State.onConnection_of_session hr _, ?_, congrArg some message, session, ack.outs,
    ack.sessions, ack.others, ack.buffers, ack.pos⟩
  cases h : loginIdentity p with
  | none => exact .inr ⟨rfl, loginIdentity_eq_none.mp h⟩
  | some d => exact .inl ⟨d, rfl, loginIdentity_eq_some.mp h⟩

/-! ### Heartbeat (R176) -/

/-- A terminal-info byte, bit by bit (R98). -/
theorem termInfo_eq (b : Byte) :
    termInfo b = { relay := b.getLsbD 7, gpsOn := b.getLsbD 6, alarm := alarmOfCode (b.toNat / 8 % 8)
                   chg := b.getLsbD 2, ign := b.getLsbD 1, armed := b.getLsbD 0 } := by
  rw [← termInfo_alarm]
  rfl

theorem recvHeartbeat_of_long (cid : Cid) (now : Time) {p : Bytes} (serial : U16) (s : State) (h : 4 ≤ p.length) :
    recvHeartbeat cid now p serial s =
      (.heartbeat (some (heartbeatOf p)), (s.refresh cid (heartbeatUpdate p) now).sendAck cid .p13 serial) :=
  if_neg h.not_gt

/-- Settles O18: by the length of the payload; the alarm class is that of R98's table (`termInfo_alarm`). -/
theorem heartbeatRefreshesCache : Obligations.HeartbeatRefreshesCache := by
  intro cid now p serial s r hr
  have ack := recvHeartbeat_acknowledges cid now p serial s
  refine ⟨State.received (recvHeartbeat cid now p serial s), State.onConnection_of_session hr _, ack.outs,
    ack.sessions, ack.others, ack.buffers, ack.pos, fun short => ?_, ?_⟩
  · rw [recvHeartbeat_of_short cid now serial s short]
    exact ⟨rfl, hr⟩
  · rintro b0 b1 b2 b3 rest rfl
    rw [recvHeartbeat_of_long cid now serial s (by simp), ← termInfo_alarm]
    exact ⟨rfl, State.session?_refresh hr _ now⟩

/-! ### Locations (R177, R178) -/

/-- A signed coordinate, in degrees (R101). -/
theorem toRat_signedUnits (negative : Bool) (raw : Nat) :
    (signedUnits negative raw).toRat = (if negative then -1 else 1) * (raw : Rat) / 1800000 := by
  cases negative <;> simp [signedUnits, Degrees.toRat]

/-- The satellite count is the low nibble (R104). -/
theorem toNat_satsOf (q : Byte) : (satsOf q).toNat = q.toNat % 16 := by
  simp [satsOf, BitVec.extractLsb'_toNat]

/-- The course is the low ten bits of the course word (R99, R100). -/
theorem toNat_courseOf (c0 c1 : Byte) : (courseOf (c0 ++ c1)).toNat = c0.toNat % 4 * 256 + c1.toNat := by
  have low := c1.isLt
  rw [courseOf, BitVec.extractLsb'_toNat, toNat_append_bytes, Nat.shiftRight_zero]
  omega

/-- The flags of the course word of format B are bits of its high byte (R99). -/
theorem x12Flags_append (c0 c1 : Byte) :
    x12North (c0 ++ c1) = c0.getLsbD 2 ∧ x12West (c0 ++ c1) = c0.getLsbD 3 ∧ x12Fix (c0 ++ c1) = c0.getLsbD 4 :=
  ⟨BitVec.getLsbD_append, BitVec.getLsbD_append, BitVec.getLsbD_append⟩

/-- The flags of the course word of format X: two bits of its high byte, two of its low (R100). -/
theorem x22Flags_append (c0 c1 : Byte) :
    x22West (c0 ++ c1) = c0.getLsbD 2 ∧ x22South (c0 ++ c1) = c0.getLsbD 3 ∧
      x22Fix (c0 ++ c1) = c1.getLsbD 4 ∧ x22Ign (c0 ++ c1) = c1.getLsbD 5 :=
  ⟨BitVec.getLsbD_append, BitVec.getLsbD_append, BitVec.getLsbD_append, BitVec.getLsbD_append⟩

/-- RX.LOC_BASIC of a payload that holds its fields (R177). -/
theorem exec_rxLocBasic_of_long {cid : Cid} (now : Time) {p : Bytes} (serial : U16) {s : State} {r : Session}
    (hr : s.session? cid = some r) (h : 18 ≤ p.length) :
    ∃ t, exec (.rxLocBasic cid now p serial) s = .next t ∧ t.msg = some (.locBasic (some (basicFix p r.st))) ∧
      t.session? cid = some { r with st := { r.st with upd := some now } } ∧ Acknowledges cid .p12 serial s t := by
  have run : recvLocBasic cid now p serial s =
      (.locBasic (some (basicFix p (s.cacheOf cid))), (s.touch cid now).sendAck cid .p12 serial) := if_neg h.not_gt
  rw [State.cacheOf_of_session hr] at run
  refine ⟨_, State.onConnection_of_session hr _, ?_⟩
  rw [run]
  exact ⟨rfl, State.session?_touch hr now, acknowledges_modSession ..⟩

/-- RX.LOC_EXT of a payload that holds its fields: the fix is over the refreshed cache (R178). -/
theorem exec_rxLocExt_of_long {cid : Cid} (now : Time) {p : Bytes} (serial : U16) {s : State} {r : Session}
    {st : StatusCache} (hr : s.session? cid = some r) (h : 19 ≤ p.length)
    (hst : refreshedCache s.cfg.lowBattFn (extUpdate p) now r.st = st) :
    ∃ t, exec (.rxLocExt cid now p serial) s = .next t ∧
      t.msg = some (.locExt (some (extFix p st, termInfo (byteAt p 7)))) ∧
      t.session? cid = some { r with st := st } ∧ Acknowledges cid .p22 serial s t := by
  have session := State.session?_refresh hr (extUpdate p) now
  have run : recvLocExt cid now p serial s =
      (.locExt (some (extFix p ((s.refresh cid (extUpdate p) now).cacheOf cid), termInfo (byteAt p 7))),
        (s.refresh cid (extUpdate p) now).sendAck cid .p22 serial) := if_neg h.not_gt
  rw [hst] at session
  rw [State.cacheOf_of_session session] at run
  refine ⟨_, State.onConnection_of_session hr _, ?_⟩
  rw [run]
  exact ⟨rfl, session, acknowledges_modSession ..⟩

/-- Settles O19: the numbers, coordinates and flags are read from the payload's bytes and words, the status from the
cache. -/
theorem locBasicDecodesAndTouches : Obligations.LocBasicDecodesAndTouches := by
  intro cid now serial s r y mo d h mi se q a0 a1 a2 a3 o0 o1 o2 o3 sp c0 c1 rest hr p
  obtain ⟨t, run, message, session, ack⟩ := exec_rxLocBasic_of_long now serial hr (show 18 ≤ p.length by simp [p])
  have courseWord : wordAt p 16 = c0 ++ c1 := ofNat_beNat_pair c0 c1
  have latitude : memRead p 7 4 = be4 a0 a1 a2 a3 := beNat_four ..
  have longitude : memRead p 11 4 = be4 o0 o1 o2 o3 := beNat_four ..
  obtain ⟨north, west, fix⟩ := x12Flags_append c0 c1
  refine ⟨t, basicFix p r.st, run, message, rfl, toNat_satsOf q, ?_, ?_, rfl, ?_, ?_, rfl, rfl, rfl, rfl, rfl, rfl, rfl,
    session, ack.outs, ack.sessions, ack.others, ack.buffers, ack.pos⟩
  · simp only [basicFix, toRat_signedUnits, courseWord, north, latitude]
    cases c0.getLsbD 2 <;> rfl
  · simp only [basicFix, toRat_signedUnits, courseWord, west, longitude]
  · simp only [basicFix, courseWord, toNat_courseOf]
  · simp only [basicFix, courseWord, fix]

/-- Settles O20: as O19, over the cache as the terminal-info byte has refreshed it. -/
theorem locExtRefreshesThenReads : Obligations.LocExtRefreshesThenReads := by
  intro cid now serial s r y mo d h mi se q ti a0 a1 a2 a3 o0 o1 o2 o3 sp c0 c1 rest hr p alarm st
  have cache : refreshedCache s.cfg.lowBattFn (extUpdate p) now r.st = st := by
    simp only [st, alarm, ← termInfo_alarm]
    rfl
  obtain ⟨t, run, message, session, ack⟩ := exec_rxLocExt_of_long now serial hr (show 19 ≤ p.length by simp [p]) cache
  rw [termInfo_eq] at message
  have courseWord : wordAt p 17 = c0 ++ c1 := ofNat_beNat_pair c0 c1
  have latitude : memRead p 8 4 = be4 a0 a1 a2 a3 := beNat_four ..
  have longitude : memRead p 12 4 = be4 o0 o1 o2 o3 := beNat_four ..
  obtain ⟨west, south, fix, ign⟩ := x22Flags_append c0 c1
  refine ⟨t, extFix p st, run, message, rfl, toNat_satsOf q, ?_, ?_, rfl, ?_, ?_, ?_, rfl, rfl, rfl, rfl, rfl, rfl,
    session, ack.outs, ack.sessions, ack.others, ack.buffers, ack.pos⟩
  · simp only [extFix, toRat_signedUnits, courseWord, south, latitude]
  · simp only [extFix, toRat_signedUnits, courseWord, west, longitude]
  · simp only [extFix, courseWord, toNat_courseOf]
  · simp only [extFix, courseWord, fix]
  · simp only [extFix, courseWord, ign]

/-! ### Command responses and unknown messages (R179 to R181) -/

/-- The text of a payload, by the bytes it keeps (R105). -/
theorem textOf_eq (p : Bytes) : textOf p = p.filter (fun b => 0x20 ≤ b.toNat && b ≠ 0x7F) := by
  refine List.filter_congr fun b _ => ?_
  have notBelow : (!decide (b.toNat < 0x20)) = decide (0x20 ≤ b.toNat) := by simp [← decide_not]
  simp [isControl, notBelow]

/-- C.CONFIRM sends no frame (R257). -/
theorem State.mem_confirm_outs {s : State} {cid : Cid} {text : Bytes} {o : Output}
    (h : o ∈ (s.confirm cid text).outs) : o ∈ s.outs ∨ ∀ c b, o ≠ .tx c b := by
  obtain same | ⟨id, ⟨kind, ref, sent⟩, -, -, -, confirmed⟩ := s.confirm_cases cid text
  · exact .inl (same ▸ h)
  · obtain ⟨-, -, -, -, -, -, -, -, -, -, -, outs⟩ := s.confirmed_frame id ⟨kind, ref, sent⟩
    rw [confirmed, outs, List.append_assoc] at h
    refine (List.mem_append.mp h).imp_right fun new c b => ?_
    rintro rfl
    cases ref <;> simp at new

/-- Settles O22: both operations and C.CONFIRM run `State.confirm`, which sends no frame. -/
theorem commandResponseConfirmsByText : Obligations.CommandResponseConfirmsByText := by
  intro cid now p serial s r hr
  exact ⟨State.received (recvCmdResp cid p s), _, textOf p, State.onConnection_of_session hr _,
    State.onConnection_of_session hr _, textOf_eq p, rfl, State.onConnection_of_session hr _, rfl,
    fun _ => State.mem_confirm_outs⟩

/-- Settles O23: the rule's state is the state it ran from. -/
theorem unknownMessageHasNoEffect : Obligations.UnknownMessageHasNoEffect := by
  intro cid now b p serial s r hr
  exact ⟨_, State.onConnection_of_session hr _, rfl, ⟨rfl, rfl, rfl, rfl, rfl, rfl, rfl, rfl⟩, rfl, rfl⟩

end Sys2Proof.Machine
end

section
/-!
PROOFS. The Protocol Codec, encode side (`43_encode.md` R210 to R217): what the TX.* operations build, and that the
block's own decoder reads it back.  Every outbound frame is one of format F (`ackBytes_eq`, `cmdBytes_eq`), so the facts
about format F say how it is read.
-/

namespace Sys2Proof.Machine

/-! ### Command frames, byte by byte (R97 format C, R216) -/

theorem cmdBody_eq_cmdSpan (text : Bytes) (serial : U16) : cmdBody text serial = cmdSpan text serial := by
  rw [cmdBody, beBytes_two]
  rfl

theorem cmdBytes_eq_cmdFrame (text : Bytes) (serial : U16) : cmdBytes text serial = cmdFrame text serial := by
  rw [cmdBytes, wrapBody, cmdBody_eq_cmdSpan, beBytes_two, List.append_assoc _ [_, _]]
  rfl

theorem length_cmdFrame (text : Bytes) (serial : U16) : (cmdFrame text serial).length = 15 + text.length := by
  simp [cmdFrame, cmdSpan]
  omega

/-! ### What TX.CMD does (R216, R217) -/

theorem exec_txCmd_of_fits {text : Bytes} (serial : U16) (s : State) (h : text.length ≤ 245) :
    exec (.txCmd text serial) s = .next (s.build (cmdBody text serial)) :=
  if_pos (decide_eq_true h)

theorem exec_txCmd_of_long {text : Bytes} (serial : U16) (s : State) (h : 245 < text.length) :
    exec (.txCmd text serial) s = .next (s.raise .eCmdLen) := by
  have tooLong : ¬ cmdTextOk text = true := fun ok => absurd (of_decide_eq_true ok) (Nat.not_le.mpr h)
  exact if_neg tooLong

/-- Settles O26: the frame built is format C's, byte by byte. -/
theorem commandFrameLayout : Obligations.CommandFrameLayout := by
  intro text serial s h
  exact ⟨_, exec_txCmd_of_fits serial s h, congrArg Result.frame (cmdBytes_eq_cmdFrame text serial),
    length_cmdFrame text serial, .build s _, rfl, rfl⟩

/-- Settles O27: `raise` writes the result only. -/
theorem longCommandTextRaises : Obligations.LongCommandTextRaises := fun _ serial s => exec_txCmd_of_long serial s

/-! ### Acknowledgements (R210 to R214) -/

/-- Settles O25: each of the eight forms builds the body of its protocol-id. -/
theorem ackFramesAreExact : Obligations.AckFramesAreExact := by
  intro serial s i pp form
  have built : ∃ a, pp = ackByte a ∧ exec i s = .next (s.build (ackBody a serial)) := by
    simp only [List.mem_cons, List.not_mem_nil, or_false, Prod.mk.injEq] at form
    obtain ⟨rfl, rfl⟩ | ⟨rfl, rfl⟩ | ⟨rfl, rfl⟩ | ⟨rfl, rfl⟩ | ⟨rfl, rfl⟩ | ⟨rfl, rfl⟩ | ⟨rfl, rfl⟩ | ⟨rfl, rfl⟩ := form
    exacts [⟨.p01, rfl, rfl⟩, ⟨.p13, rfl, rfl⟩, ⟨.p12, rfl, rfl⟩, ⟨.p22, rfl, rfl⟩,
      ⟨.p01, rfl, rfl⟩, ⟨.p13, rfl, rfl⟩, ⟨.p12, rfl, rfl⟩, ⟨.p22, rfl, rfl⟩]
  obtain ⟨a, rfl, next⟩ := built
  exact ⟨_, next, congrArg Result.frame (ackBytes_eq_ackFrame a serial), .build s _, rfl, rfl⟩

/-! ### The block's own frames, read back (`95_test_vectors.md` section 6) -/

/-- An acknowledgement decodes by its protocol-id, with an empty payload (R174, R210). -/
theorem decodeSpan_ackFrame (v : Bool) (cid : Cid) (now : Time) (serial : U16) (a : AckProto) :
    decodeSpan v cid now (ackFrame (ackByte a) serial) =
      .ok (instrOfHeader cid now { len := 5, proto := ackByte a, payload := [], serial := serial
                                   cksum := crcSumOf (ackBody a serial) }) := by
  rw [← ackBytes_eq_ackFrame, ackBytes_eq]
  exact decodeSpan_frame (ackByte a) serial v cid now (Nat.zero_le _)

/-- A command frame decodes to RX.UNKNOWN, since 0x80 is no protocol-id of the table (R174, R216). -/
theorem decodeSpan_cmdFrame (v : Bool) (cid : Cid) (now : Time) {text : Bytes} (serial : U16)
    (h : text.length ≤ 245) :
    decodeSpan v cid now (cmdFrame text serial) = .ok (.rxUnknown cid now 0x80 (cmdPayload text) serial) := by
  have fits : (cmdPayload text).length ≤ 250 := by
    rw [length_cmdPayload]
    omega
  rw [← cmdBytes_eq_cmdFrame, cmdBytes_eq]
  exact decodeSpan_frame Config.cmdProto serial v cid now fits

/-- Settles O28: each frame is one of format F, and the protocol-id it carries selects the message. -/
theorem ownFramesReadBack : Obligations.OwnFramesReadBack := by
  intro v cid now serial text
  have ack := decodeSpan_ackFrame v cid now serial
  exact ⟨ack .p01, ack .p13, ack .p12, ack .p22, fun h => ⟨_, decodeSpan_cmdFrame v cid now serial h, rfl⟩⟩

end Sys2Proof.Machine
end

section
/-!
PROOFS. The Device Session register file (`44_session.md` R230 to R237): what each S.* operation answers, what it writes
in the one session it is about, and that it leaves the rest of the machine as it was.
-/

namespace Sys2Proof.Machine

/-! ### The next state of each operation on a live connection -/

section Live
variable {s : State} {cid : Cid} {r : Session} (hr : s.session? cid = some r)
include hr

theorem exec_sLogin (d : Digits) : exec (.sLogin cid d) s = .next ((s.login cid d).setResult .nothing) :=
  State.onConnection_of_session hr _

theorem exec_sRefresh (u : StatusUpdate) (now : Time) :
    exec (.sRefresh cid u now) s = .next ((s.refresh cid u now).setResult .nothing) :=
  State.onConnection_of_session hr _

theorem exec_sTouch (now : Time) : exec (.sTouch cid now) s = .next ((s.touch cid now).setResult .nothing) :=
  State.onConnection_of_session hr _

theorem exec_sStatus : exec (.sStatus cid) s = .next (s.setResult (.snapshot r.st)) := by
  rw [← State.cacheOf_of_session hr]
  exact State.onConnection_of_session hr _

theorem exec_sNextSerial : exec (.sNextSerial cid) s = .next ((s.bumpSeq cid).setResult (.word r.seq)) := by
  rw [← State.seqOf_of_session hr]
  exact State.onConnection_of_session hr _

theorem exec_sDisconnect : exec (.sDisconnect cid) s = .next ((s.disconnect cid).setResult .nothing) :=
  State.onConnection_of_session hr _

theorem exec_evDisconnect : exec (.evDisconnect cid) s = .next ((s.disconnect cid).setResult .nothing) :=
  State.onConnection_of_session hr _

end Live

/-! ### Operations that write one session (R231 to R235) -/

/-- What an operation that writes the session of `cid` leaves as it was: everything else but the result. -/
def SessionWriteFrame (cid : Cid) (s t : State) : Prop :=
  OtherSessionsKept cid s t ∧ OnlySessions s t ∧ t.outs = s.outs ∧ t.crcR = s.crcR ∧ t.pos = s.pos ∧ t.msg = s.msg

theorem sessionWriteFrame_modSession (cid : Cid) (s : State) (f : Session → Session) (v : Result) :
    SessionWriteFrame cid s ((s.modSession cid f).setResult v) :=
  ⟨fun _ hc => s.session?_modSession_other f hc, ⟨rfl, rfl, rfl, rfl, rfl, rfl⟩, rfl, rfl, rfl, rfl⟩

/-- Settles O31: each of the two is a write of one session, and what it writes there is one field. -/
theorem loginAndTouchWriteOneField : Obligations.LoginAndTouchWriteOneField := fun cid d now s _ hr =>
  ⟨⟨_, exec_sLogin hr d, State.session?_login hr d, sessionWriteFrame_modSession cid s _ _⟩,
    ⟨_, exec_sTouch hr now, State.session?_touch hr now, sessionWriteFrame_modSession cid s _ _⟩⟩

/-- Settles O33: the snapshot is the session's cache. -/
theorem statusReturnsCopy : Obligations.StatusReturnsCopy := fun _ _ r hr =>
  ⟨r.st, exec_sStatus hr, rfl, rfl, rfl, rfl, rfl, rfl, rfl, rfl⟩

/-! ### S.REFRESH (R232, R237) -/

section Refresh
variable (table : Config.LowBattTable) (u : StatusUpdate) (now : Time) (c : StatusCache)

/-- The voltage is as given, or as it was. -/
theorem refreshedCache_volt : (refreshedCache table u now c).volt = u.volt.or c.volt := by
  unfold refreshedCache
  cases u.volt <;> rfl

/-- The GSM code is as given, or as it was. -/
theorem refreshedCache_gsm : (refreshedCache table u now c).gsm = u.gsm.or c.gsm := by
  unfold refreshedCache
  cases u.gsm <;> rfl

/-- The low-battery flag reads the voltage as just updated (R237). -/
theorem refreshedCache_lowbatt :
    (refreshedCache table u now c).lowbatt = some (lowBattFn table u.alarm (refreshedCache table u now c).volt) := rfl

end Refresh

/-- Settles O32: the refreshed cache takes a given voltage or GSM code and keeps an absent one. -/
theorem refreshKeepsAbsentFields : Obligations.RefreshKeepsAbsentFields := by
  intro cid u now s r hr
  have volt := refreshedCache_volt s.cfg.lowBattFn u now r.st
  have gsm := refreshedCache_gsm s.cfg.lowBattFn u now r.st
  refine ⟨_, _, exec_sRefresh hr u now, State.session?_refresh hr u now, rfl, rfl, rfl, rfl, ?_, ?_, ?_, ?_,
    refreshedCache_lowbatt .., rfl, sessionWriteFrame_modSession cid s _ _⟩
  · exact fun v given => by rw [volt, given, Option.some_or]
  · exact fun absent => by rw [volt, absent, Option.none_or]
  · exact fun g given => by rw [gsm, given, Option.some_or]
  · exact fun absent => by rw [gsm, absent, Option.none_or]

/-- Settles O60: the default LOW_BATT_FN does not look at the voltage (D13). -/
theorem defaultLowBatteryFlag : Obligations.DefaultLowBatteryFlag := by
  intro cid u now s r hr hdefault
  refine ⟨_, _, exec_sRefresh hr u now, State.session?_refresh hr u now, ?_⟩
  rw [refreshedCache_lowbatt, hdefault]
  exact congrArg some (lowBattFn_default u.alarm _)

/-! ### S.NEXTSERIAL (R235) -/

/-- Settles O34: the result is the counter, which moves on by `nextSeq`. -/
theorem nextSerialReturnsThenAdvances : Obligations.NextSerialReturnsThenAdvances := fun cid s r hr =>
  ⟨_, _, exec_sNextSerial hr, rfl, State.session?_bumpSeq hr, nextSeq_toNat r.seq,
    sessionWriteFrame_modSession cid s _ _⟩

/-- S.NEXTSERIAL executed `k + 1` times issues last the counter advanced `k` times. -/
theorem execAll_nextSerials {cid : Cid} (k : Nat) {s : State} {r : Session} (hr : s.session? cid = some r) :
    ∃ t, execAll (List.replicate (k + 1) (.sNextSerial cid)) s = .next t ∧ t.result = .word (nextSeq^[k] r.seq) := by
  induction k generalizing s r with
  | zero => exact ⟨_, execAll_cons_of_next (exec_sNextSerial hr) [], rfl⟩
  | succ k ih =>
    obtain ⟨t, run, last⟩ := ih (s := (s.bumpSeq cid).setResult (.word r.seq)) (State.session?_bumpSeq hr)
    exact ⟨t, (execAll_cons_of_next (exec_sNextSerial hr) _).trans run, last⟩

/-- From 1 the counter cycles through the 65535 serials other than 0 (R235, D27). -/
theorem nextSeq_iterate_one (k : Nat) : nextSeq^[k] 1 = BitVec.ofNat 16 (1 + k % 65535) := by
  induction k with
  | zero => rfl
  | succ k ih =>
    apply BitVec.eq_of_toNat_eq
    rw [Function.iterate_succ_apply', ih, nextSeq_toNat, BitVec.toNat_ofNat, BitVec.toNat_ofNat]
    split <;> omega

/-- Settles O35, by induction on the number of serials issued. -/
theorem serialsCycleWithoutZero : Obligations.SerialsCycleWithoutZero := by
  intro cid s r k hr hseq
  obtain ⟨t, run, last⟩ := execAll_nextSerials k hr
  rw [hseq, nextSeq_iterate_one] at last
  exact ⟨t, run, last⟩

/-! ### Connections made and ended (R230, R236, R281, R282) -/

theorem State.session?_connect_same (s : State) (c : Cid) (p : Peer) :
    (s.connect c p).session? c = some (Session.fresh c p) := tget_tput_same ..

theorem State.session?_connect_other (s : State) {c d : Cid} (p : Peer) (h : d ≠ c) :
    (s.connect c p).session? d = s.session? d := tget_tput_other _ _ h

theorem State.rxbuf?_connect_same (s : State) (c : Cid) (p : Peer) : (s.connect c p).rxbuf? c = some [] :=
  tget_tput_same ..

theorem State.rxbuf?_connect_other (s : State) {c d : Cid} (p : Peer) (h : d ≠ c) :
    (s.connect c p).rxbuf? d = s.rxbuf? d := tget_tput_other _ _ h

theorem State.session?_disconnect_same (s : State) (c : Cid) : (s.disconnect c).session? c = none :=
  tget_tdel_same ..

theorem State.session?_disconnect_other (s : State) {c d : Cid} (h : d ≠ c) :
    (s.disconnect c).session? d = s.session? d := tget_tdel_other _ h

theorem State.rxbuf?_disconnect_same (s : State) (c : Cid) : (s.disconnect c).rxbuf? c = none := tget_tdel_same ..

theorem State.rxbuf?_disconnect_other (s : State) {c d : Cid} (h : d ≠ c) :
    (s.disconnect c).rxbuf? d = s.rxbuf? d := tget_tdel_other _ h

theorem State.connected_of_none {s : State} {c : Cid} (h : s.session? c = none) : s.connected c = false := by
  rw [State.connected, h, Option.isSome_none]

theorem exec_sConnect {s : State} {cid : Cid} (peer : Peer) (hfree : s.session? cid = none) :
    exec (.sConnect cid peer) s = .next ((s.connect cid peer).setResult .nothing) := by
  simp [exec, execSConnect, State.connected_of_none hfree]

/-- EV_CONNECT with room below MAX_CONN (R296). -/
theorem exec_evConnect {s : State} {cid : Cid} (peer : Peer) (hfree : s.session? cid = none)
    (hroom : ∀ n, s.cfg.maxConn = some n → s.sess.length < n) :
    exec (.evConnect cid peer) s = .next ((s.connect cid peer).setResult .nothing) := by
  simp [exec, execEvConnect, State.connected_of_none hfree, atCapacity_eq_false.mpr hroom]

/-- Settles O29: both forms run `State.connect`, which puts one entry into two tables. -/
theorem connectCreatesFreshSession : Obligations.ConnectCreatesFreshSession := by
  intro cid peer s i hfree form
  have run : exec i s = .next ((s.connect cid peer).setResult .nothing) := by
    obtain rfl | ⟨rfl, hroom⟩ := form
    · exact exec_sConnect peer hfree
    · exact exec_evConnect peer hfree hroom
  exact ⟨_, run, s.session?_connect_same cid peer, s.rxbuf?_connect_same cid peer,
    fun _ hc => s.session?_connect_other peer hc, fun _ hc => s.rxbuf?_connect_other peer hc,
    rfl, rfl, rfl, rfl, rfl, rfl, rfl, rfl, rfl⟩

/-- Settles O30: both forms run `State.disconnect`, which deletes one key from two tables. -/
theorem disconnectDestroysOneSession : Obligations.DisconnectDestroysOneSession := by
  intro cid s r i hr form
  have run : exec i s = .next ((s.disconnect cid).setResult .nothing) := by
    obtain rfl | rfl := form
    · exact exec_sDisconnect hr
    · exact exec_evDisconnect hr
  exact ⟨_, run, s.session?_disconnect_same cid, s.rxbuf?_disconnect_same cid,
    fun _ hc => s.session?_disconnect_other hc, fun _ hc => s.rxbuf?_disconnect_other hc,
    rfl, rfl, rfl, rfl, rfl, rfl, rfl, rfl, rfl⟩

end Sys2Proof.Machine
end

section
/-!
PROOFS. The Command Dispatcher (`45_command.md` R250 to R263): what a request in any of its forms, a timer and a
confirming text do, and that a pending record goes only by a confirming command response.
-/

namespace Sys2Proof.Machine

/-! ### The forms of a request (R251 to R253, R285) -/

/-- Every form of a request runs C.REQUEST's transition. -/
theorem exec_of_requestForm {i : Instr} {id : Digits} {k : CmdKind} {ref : Option Ref} {now : Time}
    (h : RequestForm i id k ref now) (s : State) : exec i s = request id k ref now s := by
  cases h <;> rfl

/-- Settles O39: both sides of each equation run one transition. -/
theorem tokensSelectRequests : Obligations.TokensSelectRequests := fun id ref now s =>
  ⟨exec_of_requestForm (.bloquear id ref now) s, exec_of_requestForm (.liberar id ref now) s,
    exec_of_requestForm (.bateria id ref now) s, exec_of_requestForm (.evBloquear id ref now) s,
    exec_of_requestForm (.evLiberar id ref now) s, exec_of_requestForm (.evBateria id ref now) s⟩

/-- Settles O37: with no session to choose from, the request is rejected. -/
theorem requestNotConnectedRejected : Obligations.RequestNotConnectedRejected := by
  intro i id k ref now s form unheld
  rw [exec_of_requestForm form]
  exact request_not_connected k ref now (State.holders_eq_nil.mpr unheld)

/-! ### A command sent and recorded (R255, R263) -/

/-- The serial after `v`, by the one value after which it does not count up (R235). -/
theorem nextSeq_eq (v : U16) : nextSeq v = if v = 0xFFFF then 1 else v + 1 := by
  unfold nextSeq
  have wraps : v + 1 = 0 ↔ v = 0xFFFF := by bv_omega
  simp only [wraps]

/-- What sending one command of kind `k` to the device `id` on its session `r` at `cid` makes of `s`: one frame with
the session's serial, the serial advanced, the record put, and everything else but `CRC.R` and the choice counter as it
was. -/
structure CommandSent (cid : Cid) (r : Session) (id : Digits) (k : CmdKind) (ref : Option Ref) (now : Time)
    (s t : State) : Prop where
  live     : s.session? cid = some r
  holds    : r.imei = some id
  outs     : t.outs = s.outs ++ [.tx cid (cmdFrame (commandText k) r.seq)]
  record   : t.pend? id = some { kind := k, ref := ref, sent := now }
  pending  : OtherPendingKept id s t
  counter  : t.session? cid = some { r with seq := if r.seq = 0xFFFF then 1 else r.seq + 1 }
  sessions : OtherSessionsKept cid s t
  rxbuf    : t.rxbuf = s.rxbuf
  deferred : t.deferred = s.deferred
  cfg      : t.cfg = s.cfg
  inbox    : t.inbox = s.inbox
  pos      : t.pos = s.pos
  msg      : t.msg = s.msg
  result   : t.result = .outcome .done

theorem commandSent_sendCommand {s : State} {cid : Cid} {r : Session} {id : Digits} (hr : s.session? cid = some r)
    (hid : r.imei = some id) (k : CmdKind) (ref : Option Ref) (now : Time) (n : Nat) :
    CommandSent cid r id k ref now s ({ s with choice := n }.sendCommand cid id k ref now) where
  live := hr
  holds := hid
  outs := by
    have serial : State.seqOf { s with choice := n } cid = r.seq := State.seqOf_of_session hr
    rw [State.sendCommand_outs, serial, cmdBytes_eq_cmdFrame]
  record := tget_tput_same ..
  pending _ hd := tget_tput_other _ _ hd
  counter := by
    rw [← nextSeq_eq]
    exact State.session?_bumpSeq hr
  sessions _ hc := State.session?_bumpSeq_other { s with choice := n } hc
  rxbuf := rfl
  deferred := rfl
  cfg := rfl
  inbox := rfl
  pos := rfl
  msg := rfl
  result := rfl

/-- A request for a device some session holds, with room in `PEND`, sends one command on one such session. -/
theorem request_commandSent {id : Digits} (k : CmdKind) (ref : Option Ref) (now : Time) {s : State}
    (sorted : tsorted cidLt s.sess) {c0 : Cid} {r0 : Session} (hr0 : s.session? c0 = some r0)
    (hid0 : r0.imei = some id) (room : ∀ n, s.cfg.maxPend = some n → s.pend? id = none → s.pend.length < n) :
    ∃ t cid r, request id k ref now s = .next t ∧ CommandSent cid r id k ref now s t := by
  have held : c0 ∈ s.holders id := State.mem_holders.mpr ⟨r0, mem_of_tget hr0, hid0⟩
  obtain ⟨cid, n, hc, run⟩ := request_sends k ref now held (State.pendFull_eq_false.mpr room)
  obtain ⟨r, hm, hid⟩ := State.mem_holders.mp hc
  exact ⟨_, cid, r, run, commandSent_sendCommand (session?_of_mem sorted hm) hid k ref now n⟩

/-- Settles O36: every form is C.REQUEST, which sends one command. -/
theorem requestSendsAndRecords : Obligations.RequestSendsAndRecords := by
  intro i id k ref now s c0 r0 form canonical hr0 hid0 room
  obtain ⟨t, cid, r, run, sent⟩ := request_commandSent k ref now canonical.sess hr0 hid0 room
  have outs := sent.outs
  refine ⟨t, cid, r, (exec_of_requestForm form s).trans run, sent.live, sent.holds, ?_, sent.record, sent.pending,
    sent.counter, sent.sessions, sent.rxbuf, sent.deferred, sent.cfg, sent.inbox, sent.pos, sent.msg, sent.result⟩
  cases k <;> exact outs

/-! ### The follow-up LOCK (R260, R286) -/

/-- With an entry scheduled, C.FIRE and EV_TIMER take it and request a LOCK with no reference. -/
theorem exec_fire {i : Instr} {id : Digits} {now : Time} {s : State} (form : i = .cFire id now ∨ i = .evTimer id now)
    (scheduled : (id, CmdKind.lock) ∈ s.deferred) :
    exec i s = request id .lock none now (s.undefer id .lock) := by
  have fired : fire id now s = request id .lock none now (s.undefer id .lock) := if_pos scheduled
  obtain rfl | rfl := form <;> exact fired

/-- Settles O40: the request is made of the state without the entry, which differs in `DEFER` only. -/
theorem timerFiresFollowUpLock : Obligations.TimerFiresFollowUpLock := by
  intro i id now s form scheduled canonical
  have fired := exec_fire form scheduled
  refine ⟨fun unheld => ?_, fun c0 r0 hr0 hid0 room => ?_⟩
  · have rejected := request_not_connected (s := s.undefer id .lock) .lock none now (State.holders_eq_nil.mpr unheld)
    exact ⟨_, fired.trans rejected, rfl, rfl, rfl, rfl, rfl, rfl, rfl, rfl, rfl, rfl, rfl, rfl⟩
  · obtain ⟨t, cid, r, run, sent⟩ :=
      request_commandSent (s := s.undefer id .lock) .lock none now canonical.sess hr0 hid0 room
    exact ⟨t, cid, r, fired.trans run, sent.live, sent.holds, sent.outs, sent.record, sent.pending, sent.counter,
      sent.sessions, sent.deferred, sent.rxbuf, sent.cfg, sent.inbox, sent.pos, sent.msg, sent.result⟩

/-! ### Confirmations (R257 to R259) -/

/-- C.CONFIRM on a live connection (R257). -/
theorem exec_cConfirm {s : State} {cid : Cid} {r : Session} (hr : s.session? cid = some r) (text : Bytes)
    (now : Time) : exec (.cConfirm cid text now) s = .next ((s.confirm cid text).setResult .nothing) :=
  State.onConnection_of_session hr _

/-- A confirming text, an identity and a record: the record is confirmed. -/
theorem State.confirm_eq_confirmed {s : State} {cid : Cid} {id : Digits} {p : PendRec} {text : Bytes}
    (hid : s.imeiOf cid = some id) (hp : s.pend? id = some p) (ht : confirms text = true) :
    s.confirm cid text = s.confirmed id p := by
  simp [State.confirm, hid, hp, ht]

/-- Settles O41: the record goes, and a battery check puts one entry into `DEFER`. -/
theorem confirmationClearsRecord : Obligations.ConfirmationClearsRecord := by
  intro cid text now s r id p hr hid hp ht
  have run := exec_cConfirm hr text now
  rw [State.confirm_eq_confirmed ((State.imeiOf_of_session hr).trans hid) hp ht] at run
  obtain ⟨sess, rxbuf, pend, deferred, cfg, crcR, pos, msg, -, choice, inbox, outs⟩ := s.confirmed_frame id p
  have records : ∀ d, ((s.confirmed id p).setResult .nothing).pend? d = tget (tdel s.pend id) d := fun d =>
    congrArg (tget · d) pend
  refine ⟨_, run, (records id).trans (tget_tdel_same ..), fun d hd => (records d).trans (tget_tdel_other _ hd), outs,
    fun e => ?_, sess, rxbuf, cfg, choice, inbox, crcR, pos, msg⟩
  rw [State.setResult_deferred, deferred]
  by_cases battery : p.kind = .batteryCheck
  · simp [battery, count_bput, eq_comm]
  · simp [battery]

/-- Settles O42: in each of the three cases C.CONFIRM has nothing to confirm. -/
theorem noConfirmationNoTransition : Obligations.NoConfirmationNoTransition := by
  intro cid text now s r hr missing
  have unchanged : s.confirm cid text = s := by
    obtain same | ⟨id, p, hid, hp, ht, -⟩ := s.confirm_cases cid text
    · exact same
    · rw [State.imeiOf_of_session hr] at hid
      obtain notConfirming | noIdentity | ⟨id', hid', noRecord⟩ := missing
      · exact absurd (ht.symm.trans notConfirming) (by decide)
      · exact absurd (hid.symm.trans noIdentity) (by simp)
      · obtain rfl := Option.some.inj (hid.symm.trans hid')
        exact absurd (hp.symm.trans noRecord) (by simp)
  rw [exec_cConfirm hr, unchanged]
  rfl

/-! ### What removes a pending record (R258, R358) -/

/-- The record of `id` stands in `PEND` before, and not after. -/
def RecordRemoved (id : Digits) (s t : State) : Prop := s.pend? id ≠ none ∧ t.pend? id = none

theorem RecordRemoved.pend_ne {id : Digits} {s t : State} (h : RecordRemoved id s t) : t.pend ≠ s.pend := fun e =>
  h.1 ((State.pend?_congr e id).symm.trans h.2)

/-- C.CONFIRM removes a record only by a confirming text on a connection that holds its identity. -/
theorem RecordRemoved.of_confirm {id : Digits} {s : State} {cid : Cid} {text : Bytes}
    (h : RecordRemoved id s (s.confirm cid text)) : confirms text = true ∧ s.imeiOf cid = some id := by
  obtain same | ⟨d, p, hd, -, ht, confirmed⟩ := s.confirm_cases cid text
  · exact absurd (congrArg State.pend same) h.pend_ne
  · obtain ⟨-, -, pend, -⟩ := s.confirmed_frame d p
    by_cases e : id = d
    · exact ⟨ht, e ▸ hd⟩
    · obtain ⟨before, after⟩ := h
      rw [confirmed, State.pend?, pend, tget_tdel_other _ e] at after
      exact absurd after before

/-- Of the RX.* rules only the command responses write `PEND`. -/
theorem recvRule_pend {rule : RxRule} (h21 : rule ≠ .cmdResp21) (h15 : rule ≠ .cmdResp15) (cid : Cid) (now : Time)
    (p : Bytes) (n : U16) (s : State) : (recvRule rule cid now p n s).2.pend = s.pend := by
  cases rule with
  | login => simp only [recvRule, recvLogin]; split <;> rfl
  | heartbeat => simp only [recvRule, recvHeartbeat]; split <;> rfl
  | locBasic => simp only [recvRule, recvLocBasic]; split <;> rfl
  | locExt => simp only [recvRule, recvLocExt]; split <;> rfl
  | cmdResp21 => exact absurd rfl h21
  | cmdResp15 => exact absurd rfl h15
  | unknown => rfl

theorem RecordRemoved.of_recvRule {id : Digits} {s : State} {rule : RxRule} {cid : Cid} {now : Time} {p : Bytes}
    {n : U16} (h : RecordRemoved id s (recvRule rule cid now p n s).2) :
    (rule = .cmdResp21 ∨ rule = .cmdResp15) ∧ confirms (textOf p) = true ∧ s.imeiOf cid = some id := by
  by_cases h21 : rule = .cmdResp21
  · subst h21
    exact ⟨.inl rfl, h.of_confirm⟩
  · by_cases h15 : rule = .cmdResp15
    · subst h15
      exact ⟨.inr rfl, h.of_confirm⟩
    · exact absurd (recvRule_pend h21 h15 ..) h.pend_ne

theorem State.afterCheck_pend (s : State) (f : Bytes) : (s.afterCheck f).pend = s.pend :=
  (OnlyTransient.afterCheck_setResult s f .nothing).pend

theorem State.afterCheck_sess (s : State) (f : Bytes) : (s.afterCheck f).sess = s.sess :=
  (OnlyTransient.afterCheck_setResult s f .nothing).sess

/-- PROCESS removes a record only where the span is a confirming command response, on a connection that holds its
identity. -/
theorem RecordRemoved.of_processed {id : Digits} {s : State} {cid : Cid} {f : Bytes} {now : Time}
    (h : RecordRemoved id s (s.processed cid f now)) :
    ConfirmingSpan s.cfg.verifyRxCrc f ∧ s.imeiOf cid = some id := by
  unfold State.processed at h
  cases passes : checkFrame s.cfg.verifyRxCrc f with
  | some e =>
    rw [passes] at h
    exact absurd (s.afterCheck_pend f) h.pend_ne
  | none =>
    rw [passes] at h
    obtain ⟨before, after⟩ := h
    rw [← State.pend?_congr (s.afterCheck_pend f)] at before
    obtain ⟨response, confirming, holder⟩ := RecordRemoved.of_recvRule ⟨before, after⟩
    exact ⟨⟨passes, response, confirming⟩, (State.imeiOf_congr (s.afterCheck_sess f) cid).symm.trans holder⟩

/-- PROCESS of each span in turn, on a live connection, is what a delivery does with its frames (R283). -/
theorem execAll_process {s : State} {cid : Cid} (live : s.connected cid = true) (fs : List Bytes) (now : Time) :
    execAll (fs.map (fun f => .process cid f now)) s = .next (s.processAll cid fs now) := by
  induction fs generalizing s with
  | nil => rfl
  | cons f fs ih =>
    have run : exec (.process cid f now) s = .next (s.processed cid f now) := if_pos live
    have live' := ((processed_effect cid f now s).connected cid).trans live
    exact (execAll_cons_of_next run _).trans (ih live')

/-- Of the frames of a delivery that remove a record one is the first: a confirming span, the identity read and the
record still there after the frames before it. -/
theorem RecordRemoved.of_processAll {id : Digits} {s : State} {cid : Cid} {frames : List Bytes} {now : Time}
    (h : RecordRemoved id s (s.processAll cid frames now)) :
    ∃ fs f gs, frames = fs ++ f :: gs ∧ ConfirmingSpan s.cfg.verifyRxCrc f ∧
      (s.processAll cid fs now).imeiOf cid = some id ∧ (s.processAll cid fs now).pend? id = s.pend? id := by
  induction frames generalizing s with
  | nil => exact absurd rfl h.pend_ne
  | cons f frames ih =>
    obtain ⟨before, after⟩ := h
    have effect := processed_effect cid f now s
    obtain kept | gone := effect.pend id
    · have later : RecordRemoved id (s.processed cid f now) ((s.processed cid f now).processAll cid frames now) :=
        ⟨kept ▸ before, after⟩
      obtain ⟨fs, g, gs, rfl, confirming, holder, still⟩ := ih later
      exact ⟨f :: fs, g, gs, rfl, effect.cfg ▸ confirming, holder, still.trans kept⟩
    · obtain ⟨confirming, holder⟩ := RecordRemoved.of_processed ⟨before, gone⟩
      exact ⟨[], f, frames, rfl, confirming, holder, rfl⟩

/-- A request removes no record: it puts one, or is rejected (R255, R256). -/
theorem request_keeps_records {id d : Digits} {k : CmdKind} {ref : Option Ref} {now : Time} {s t : State}
    (h : request d k ref now s = .next t) : ¬ RecordRemoved id s t := by
  intro removed
  obtain ⟨-, rfl⟩ | ⟨c, n, -, -, rfl⟩ := request_cases h
  · exact removed.pend_ne rfl
  · obtain ⟨before, after⟩ := removed
    rw [State.pend?, State.sendCommand_pend] at after
    by_cases e : id = d
    · rw [e, tget_tput_same] at after
      cases after
    · rw [tget_tput_other _ _ e] at after
      exact before after

theorem fire_keeps_records {id d : Digits} {now : Time} {s t : State} (h : fire d now s = .next t) :
    ¬ RecordRemoved id s t :=
  request_keeps_records (s := s.undefer d .lock) (fire_cases h).2

/-- DEC.CHECK writes transient registers only (R170). -/
theorem exec_decCheck_onlyTransient {f : Bytes} {s t : State} (h : exec (.decCheck f) s = .next t) :
    OnlyTransient s t := by
  rw [exec_decCheck] at h
  exact Host.Outcome.next.inj h ▸ .afterCheck_setResult s f _

/-- DEC.HEADER writes the result only (R173). -/
theorem exec_decHeader_onlyTransient {f : Bytes} {s t : State} (h : exec (.decHeader f) s = .next t) :
    OnlyTransient s t := by
  simp only [exec, execDecHeader] at h
  split_ifs at h
  exact Host.Outcome.next.inj h ▸ .setResult s _

/-- An RX.* operation that removes a record is a command response. -/
theorem RecordRemoved.of_received {id : Digits} {s t : State} {rule : RxRule} {cid : Cid} {now : Time} {p : Bytes}
    {n : U16} (removed : RecordRemoved id s t)
    (h : s.onConnection cid (.next (State.received (recvRule rule cid now p n s))) = .next t) :
    (rule = .cmdResp21 ∨ rule = .cmdResp15) ∧ confirms (textOf p) = true ∧ s.imeiOf cid = some id := by
  obtain ⟨-, rfl⟩ := State.onConnection_next' h
  exact of_recvRule removed

/-- EV_RX removes a record only by a confirming span among the delivery's frames (R283). -/
theorem RecordRemoved.of_rxDelivered {id : Digits} {s : State} {cid : Cid} {data : Bytes} {now : Time}
    (live : s.connected cid = true) (h : RecordRemoved id s (s.rxDelivered cid data now)) :
    ∃ fs n f gs u, Scans (s.rxOf cid ++ data) 0 (fs ++ f :: gs) n ∧
      execAll (fs.map (fun g => .process cid g now)) { s with pos := n } = .next u ∧
      ConfirmingSpan s.cfg.verifyRxCrc f ∧ u.imeiOf cid = some id ∧ u.pend? id = s.pend? id := by
  have removed : RecordRemoved id (s.setPos (scan (s.rxWith cid data)).2)
      ((s.setPos (scan (s.rxWith cid data)).2).processAll cid (scan (s.rxWith cid data)).1 now) := h
  obtain ⟨fs, f, gs, frames, confirming, holder, still⟩ := removed.of_processAll
  have spans : Scans (s.rxOf cid ++ data) 0 (fs ++ f :: gs) (scan (s.rxWith cid data)).2 :=
    frames ▸ scan_scans (s.rxWith cid data)
  have run := execAll_process (s := s.setPos (scan (s.rxWith cid data)).2) live fs now
  exact ⟨fs, _, f, gs, _, spans, run, confirming, holder, still⟩

/-- Settles O57, by the operation: most leave `PEND` or put a record into it, and for the others the lemma about their
shared part says which response confirmed. -/
theorem pendingRemovedOnlyByResponse : Obligations.PendingRemovedOnlyByResponse := by
  intro i s t id h before after
  have removed : RecordRemoved id s t := ⟨before, after⟩
  cases i with
  | rxLogin cid now p n => exact absurd (removed.of_received (rule := .login) (now := now) h).1 (by decide)
  | rxHeartbeat => exact absurd (removed.of_received (rule := .heartbeat) h).1 (by decide)
  | rxLocBasic => exact absurd (removed.of_received (rule := .locBasic) h).1 (by decide)
  | rxLocExt => exact absurd (removed.of_received (rule := .locExt) h).1 (by decide)
  | rxCmdResp21 cid now p n =>
    obtain ⟨-, confirming⟩ := removed.of_received (rule := .cmdResp21) (now := now) (n := n) h
    exact ⟨cid, .inr (.inl ⟨p, now, n, .inl rfl, confirming⟩)⟩
  | rxCmdResp15 cid now p n =>
    obtain ⟨-, confirming⟩ := removed.of_received (rule := .cmdResp15) (now := now) (n := n) h
    exact ⟨cid, .inr (.inl ⟨p, now, n, .inr rfl, confirming⟩)⟩
  | cConfirm cid text now =>
    obtain ⟨-, rfl⟩ := State.onConnection_next' h
    exact ⟨cid, .inl ⟨text, now, rfl, RecordRemoved.of_confirm removed⟩⟩
  | process cid f now =>
    obtain ⟨-, rfl⟩ := State.onConnection_next' h
    exact ⟨cid, .inr (.inr (.inl ⟨f, now, rfl, removed.of_processed⟩))⟩
  | evRx cid data now =>
    obtain ⟨⟨r, hr⟩, -, rfl⟩ := execEvRx_cases h
    obtain ⟨fs, n, f, gs, u, found⟩ := removed.of_rxDelivered (State.connected_of_session hr)
    exact ⟨cid, .inr (.inr (.inr ⟨data, now, fs, n, f, gs, u, rfl, found⟩))⟩
  | rxUnknown | sLogin | sRefresh | sTouch | sStatus | sNextSerial | sDisconnect | evDisconnect =>
    obtain ⟨-, rfl⟩ := State.onConnection_next' h
    exact absurd rfl removed.pend_ne
  | txAck01 | txAck13 | txAck12 | txAck22 | txAck | crcInit | crcByte | crcFinal | crcSum | crcVerify | frScan
  | decDispatch =>
    obtain rfl := Host.Outcome.next.inj h
    exact absurd rfl removed.pend_ne
  | txCmd => exact absurd (execTxCmd_onlyTransient h).pend removed.pend_ne
  | cmdBloquear | cmdLiberar | cmdBateria | cRequest => exact absurd removed (request_keeps_records h)
  | evTimer | cFire => exact absurd removed (fire_keeps_records h)
  | evCmd =>
    obtain ⟨k, hk⟩ | rfl := execEvCmd_cases h
    · exact absurd removed (request_keeps_records hk)
    · exact absurd rfl removed.pend_ne
  | evConnect =>
    obtain ⟨-, -, rfl⟩ := execEvConnect_cases h
    exact absurd rfl removed.pend_ne
  | sConnect =>
    obtain ⟨-, rfl⟩ := execSConnect_cases h
    exact absurd rfl removed.pend_ne
  | decCheck => exact absurd (exec_decCheck_onlyTransient h).pend removed.pend_ne
  | decHeader => exact absurd (exec_decHeader_onlyTransient h).pend removed.pend_ne

end Sys2Proof.Machine
end

section
/-!
PROOFS. The event interface and routing (`46_engine.md` R280 to R296): what a step does with the input it takes, what
PROCESS makes of a span that passes DEC.CHECK and of one that does not, what a delivery does, and the inputs refused.
-/

namespace Sys2Proof.Machine

/-! ### The operation a step executes (R280, R291) -/

section Step
variable {s : State} {rest : List Input}

theorem step_of_idle (h : s.inbox = []) : step s = .next s := by
  rw [step, h]

theorem step_of_event {e : Event} (h : s.inbox = .event e :: rest) :
    step s = exec e.instr { s with inbox := rest } := by
  rw [step, h]

theorem step_of_span {cid : Cid} {f : Bytes} {now : Time} (h : s.inbox = .span cid f now :: rest) :
    step s = exec (.process cid f now) { s with inbox := rest } := by
  rw [step, h]

theorem step_of_build {f : Bytes} {i : Instr} (h : s.inbox = .build f :: rest) (hi : decodeOutbound f = .ok i) :
    step s = exec i { s with inbox := rest } := by
  simp only [step, h, hi]

end Step

/-- Settles O47: one equation of `step` per form of waiting input. -/
theorem stepTakesOldestInput : Obligations.StepTakesOldestInput :=
  ⟨fun _ h => step_of_idle h, fun _ _ _ h => step_of_event h, fun _ _ _ _ _ h => step_of_span h,
    fun _ _ _ _ h hi => step_of_build h hi⟩

/-! ### PROCESS (R284) -/

/-- DEC.CHECK inside PROCESS moves `CRC.R` at most. -/
theorem State.afterCheck_eq_setCrc (s : State) (f : Bytes) : ∃ c, s.afterCheck f = s.setCrc c := by
  unfold State.afterCheck
  split
  · exact ⟨_, rfl⟩
  · exact ⟨s.crcR, rfl⟩

theorem exec_process {s : State} {cid : Cid} {r : Session} (hr : s.session? cid = some r) (f : Bytes) (now : Time) :
    exec (.process cid f now) s = .next (s.processed cid f now) :=
  State.onConnection_of_session hr _

theorem State.processed_of_rejected {s : State} {f : Bytes} {e : Cond} (h : checkFrame s.cfg.verifyRxCrc f = some e)
    (cid : Cid) (now : Time) : s.processed cid f now = (s.afterCheck f).dropFrame cid f e := by
  rw [State.processed, h]

/-- Settles O46: the span is dropped from the state DEC.CHECK leaves, which differs in `CRC.R` at most. -/
theorem droppedFrameHasNoEffect : Obligations.DroppedFrameHasNoEffect := by
  intro cid f now e s r hr rejected
  obtain ⟨c, checked⟩ := s.afterCheck_eq_setCrc f
  refine ⟨_, exec_process hr f now, ?_⟩
  rw [State.processed_of_rejected rejected, checked, ← State.imeiOf_of_session hr]
  rfl

theorem decodeSpan_eq_ok {v : Bool} {cid : Cid} {now : Time} {f : Bytes} {i : Instr}
    (h : decodeSpan v cid now f = .ok i) : checkFrame v f = none ∧ i = instrOfHeader cid now (headerOf f) := by
  unfold decodeSpan at h
  split at h <;> cases h
  exact ⟨‹_›, rfl⟩

/-- The operation a header selects runs the RX.* rule DEC.DISPATCH selects (R174, R284). -/
theorem exec_instrOfHeader {s : State} {cid : Cid} {r : Session} (hr : s.session? cid = some r) (now : Time)
    (h : Header) :
    exec (instrOfHeader cid now h) s =
      .next (State.received (recvRule (dispatchOf h.proto) cid now h.payload h.serial s)) := by
  rw [← State.onConnection_of_session hr (.next _), instrOfHeader]
  cases dispatchOf h.proto <;> rfl

/-- PROCESS of a span that decodes: its operation is executed after DEC.CHECK, then the frame is accepted with the
message it decoded. -/
theorem State.processed_of_decodes {s : State} {cid : Cid} {r : Session} {f : Bytes} {now : Time} {i : Instr}
    (hr : s.session? cid = some r) (h : decodeSpan s.cfg.verifyRxCrc cid now f = .ok i) :
    ∃ t m, exec i (s.afterCheck f) = .next t ∧ t.msg = some m ∧
      s.processed cid f now = t.acceptFrame cid f (headerOf f) m := by
  obtain ⟨passes, rfl⟩ := decodeSpan_eq_ok h
  have live : (s.afterCheck f).session? cid = some r := (State.session?_congr (s.afterCheck_sess f) cid).trans hr
  refine ⟨_, _, exec_instrOfHeader live now (headerOf f), rfl, ?_⟩
  rw [State.processed, passes]
  rfl

/-- Settles O45: the step runs PROCESS of the waiting span (log entry 3), which executes the operation and then accepts
the frame. -/
theorem spanStepRunsDecodedInstruction : Obligations.SpanStepRunsDecodedInstruction := by
  intro cid f now i rest s r waiting hr decoded
  have live : State.session? { s with inbox := rest } cid = some r := hr
  obtain ⟨t, m, run, message, accepted⟩ := State.processed_of_decodes live decoded
  have taken := step_of_span waiting
  refine ⟨t, m, run, message, taken, ?_⟩
  rw [taken, exec_process live, accepted]
  rfl

/-! ### A delivery (R283) -/

theorem State.rxDelivered_rxByte_other (s : State) {cid c : Cid} (data : Bytes) (now : Time) (hc : c ≠ cid)
    (a : Nat) :
    (s.rxDelivered cid data now).rxByte c a = s.rxByte c a := by
  rw [State.rxByte, State.rxOf, State.rxDelivered_rxbuf?_other _ _ _ hc, State.rxByte, State.rxOf]

/-- Settles O44: the frames are those FR.SCAN finds, and PROCESS of each in turn is what the delivery runs before it
writes the buffer. -/
theorem deliveryProcessesFramesInOrder : Obligations.DeliveryProcessesFramesInOrder := by
  intro cid data now s r hr hroom
  have live := State.connected_of_session hr
  have frames := execAll_process (s := s.setPos (scan (s.rxOf cid ++ data)).2) live (scan (s.rxOf cid ++ data)).1 now
  exact ⟨_, _, _, _, exec_evRx_next now live hroom, scan_scans (s.rxOf cid ++ data), frames,
    s.rxDelivered_rxOf cid data now, fun _ a hc => s.rxDelivered_rxByte_other data now hc a,
    rfl, rfl, rfl, rfl, rfl, rfl, rfl, rfl, rfl, rfl⟩

/-! ### Inputs that get no step (R296, R173) -/

/-- Every operation on a connection begins with the test of its key. -/
theorem ConnectionOp.refused {cid : Cid} {i : Instr} {s : State} (h : ConnectionOp cid i)
    (absent : s.session? cid = none) : exec i s = .refused .unknownConnection := by
  cases h with
  | device h => cases h <;> exact State.onConnection_of_none absent _
  | evDisconnect | login | refresh | touch | status | nextSerial | sDisconnect | confirm =>
    exact State.onConnection_of_none absent _

theorem atCapacity_of_le {cap : Option Nat} {c n : Nat} (hcap : cap = some c) (hn : c ≤ n) :
    atCapacity cap n = true := by
  simp [atCapacity, hcap, hn]

theorem exec_evConnect_full {s : State} {cid : Cid} (peer : Peer) {n : Nat} (absent : s.session? cid = none)
    (hcap : s.cfg.maxConn = some n) (hn : n ≤ s.sess.length) :
    exec (.evConnect cid peer) s = .refused .connectionsFull := by
  simp [exec, execEvConnect, State.connected_of_none absent, atCapacity_of_le hcap hn]

theorem exec_evRx_full {s : State} {cid : Cid} {data : Bytes} {r : Session} {n : Nat} (now : Time)
    (hr : s.session? cid = some r) (hcap : s.cfg.rxBufCap = some n) (hn : n < (s.rxOf cid ++ data).length) :
    exec (.evRx cid data now) s = .refused .rxBufferFull := by
  have full : s.rxFull cid data = true := by simpa [State.rxFull, hcap, State.rxWith] using hn
  exact (State.onConnection_of_session hr _).trans (if_pos full)

/-- A request for a device some session holds is refused where `PEND` has no room for its record. -/
theorem request_refused {s : State} {id : Digits} {c : Cid} {r : Session} {n : Nat} (k : CmdKind) (ref : Option Ref)
    (now : Time) (hm : (c, r) ∈ s.sess) (hid : r.imei = some id) (hp : s.pend? id = none)
    (hcap : s.cfg.maxPend = some n) (hn : n ≤ s.pend.length) : request id k ref now s = .refused .pendFull := by
  have held : c ∈ s.holders id := State.mem_holders.mpr ⟨r, hm, hid⟩
  have full : s.pendFull id = true := by simp [State.pendFull, hp, atCapacity_of_le hcap hn]
  unfold request
  split
  next unheld => exact absurd (unheld ▸ held) List.not_mem_nil
  next => exact if_pos full

/-- Settles O59, clause by clause: each input fails a test that guards its operation (log entry 16). -/
theorem hostDutiesRefused : Obligations.HostDutiesRefused := by
  refine ⟨fun _ _ _ op absent => op.refused absent, fun cid peer s r hr => ?_,
    fun _ _ _ unscheduled => ⟨if_neg unscheduled, if_neg unscheduled⟩,
    fun _ peer _ _ absent hcap hn => exec_evConnect_full peer absent hcap hn,
    fun _ _ now _ _ _ hr hcap hn => exec_evRx_full now hr hcap hn,
    fun i id k ref now s c r n form hm hid hp hcap hn => ?_,
    fun i id now s c r n form scheduled hm hid hp hcap hn => ?_, fun _ _ rejected => if_neg rejected⟩
  · have inUse := State.connected_of_session hr
    exact ⟨if_pos inUse, if_pos inUse⟩
  · exact (exec_of_requestForm form s).trans (request_refused k ref now hm hid hp hcap hn)
  · rw [exec_fire form scheduled]
    exact request_refused (s := s.undefer id .lock) .lock none now hm hid hp hcap hn

end Sys2Proof.Machine
end

section
/-!
PROOFS. Error conditions, privilege and the separation of connections (`60_exceptions.md` R310, R320, R321, R324): what
a device's bytes can reach, what a delivery can depend on, and the request that names no operation.
-/

namespace Sys2Proof.Machine

/-! ### What a device's bytes can reach (R321) -/

/-- R321's "A device cannot", for the bytes on connection `cid`: every other session and every byte of every other
buffer stay, frames go to `cid` alone, a pending record stays or goes, the configuration stays. -/
structure DeviceConfined (cid : Cid) (s t : State) : Prop where
  sessions : OtherSessionsKept cid s t
  buffers  : ∀ c a, c ≠ cid → t.rxByte c a = s.rxByte c a
  outs     : ∃ o, t.outs = s.outs ++ o ∧ ∀ c b, Output.tx c b ∈ o → c = cid
  pend     : ∀ id, t.pend? id = s.pend? id ∨ t.pend? id = none
  cfg      : t.cfg = s.cfg

theorem DeviceEffect.confined {cid : Cid} {s t : State} (h : DeviceEffect cid s t) : DeviceConfined cid s t where
  sessions := h.otherSessions
  buffers c a _ := State.rxByte_congr h.rxbuf c a
  outs := h.outs
  pend := h.pend
  cfg := h.cfg

/-- An RX.* operation writes nothing else than its rule does, and transient registers. -/
theorem received_confined {cid : Cid} {now : Time} {p : Bytes} {n : U16} {s t : State} (rule : RxRule)
    (h : s.onConnection cid (.next (State.received (recvRule rule cid now p n s))) = .next t) :
    DeviceConfined cid s t := by
  obtain ⟨-, rfl⟩ := State.onConnection_next' h
  obtain ⟨sessions, buffers, outs, pend, cfg⟩ := (recvRule_effect rule cid now p n s).confined
  exact ⟨sessions, buffers, outs, pend, cfg⟩

/-- A delivery writes what its frames write, and the connection's own buffer (R283). -/
theorem State.rxDelivered_confined (s : State) (cid : Cid) (data : Bytes) (now : Time) :
    DeviceConfined cid s (s.rxDelivered cid data now) := by
  have buffers := fun c a (hc : c ≠ cid) => s.rxDelivered_rxByte_other data now hc a
  have frames := processAll_effect cid (scan (s.rxWith cid data)).1 now s
  rw [State.rxDelivered_eq] at buffers ⊢
  exact ⟨frames.otherSessions, buffers, frames.outs, frames.pend, frames.cfg⟩

/-- Settles O56, by the operation: an RX.* operation does what its rule can do, PROCESS what a frame can do, EV_RX what
the frames of its delivery can do. -/
theorem deviceCannotReachOthers : Obligations.DeviceCannotReachOthers := by
  intro cid i s t op h
  have confined : DeviceConfined cid s t := by
    cases op with
    | login now p n => exact received_confined (now := now) .login h
    | heartbeat => exact received_confined .heartbeat h
    | locBasic => exact received_confined .locBasic h
    | locExt => exact received_confined .locExt h
    | cmdResp21 now p n => exact received_confined (now := now) (n := n) .cmdResp21 h
    | cmdResp15 now p n => exact received_confined (now := now) (n := n) .cmdResp15 h
    | unknown now b p n => exact received_confined (now := now) (p := p) (n := n) .unknown h
    | process f now =>
      obtain ⟨-, rfl⟩ := State.onConnection_next' h
      exact (processed_effect cid f now s).confined
    | rx data now =>
      obtain ⟨-, -, rfl⟩ := execEvRx_cases h
      exact s.rxDelivered_confined cid data now
  exact ⟨confined.sessions, confined.buffers, confined.outs, confined.pend, confined.cfg⟩

/-! ### What a delivery can depend on (R324) -/

theorem SameFor.imeiOf {cid : Cid} {s t : State} (h : SameFor cid s t) : s.imeiOf cid = t.imeiOf cid :=
  congrArg (·.bind Session.imei) h.session

theorem SameFor.cacheOf {cid : Cid} {s t : State} (h : SameFor cid s t) : s.cacheOf cid = t.cacheOf cid :=
  congrArg (·.elim StatusCache.never Session.st) h.session

theorem SameFor.pend? {cid : Cid} {s t : State} (h : SameFor cid s t) (id : Digits) : s.pend? id = t.pend? id :=
  congrArg (tget · id) h.pend

theorem SameFor.rxWith {cid : Cid} {s t : State} (h : SameFor cid s t) (data : Bytes) :
    s.rxWith cid data = t.rxWith cid data :=
  congrArg (· ++ data) h.rx

/-- Two states the same for `cid`, reached with the same outputs: the one from a state with the outputs `a`, the other
from a state with the outputs `b`. -/
structure InStep (cid : Cid) (a b : List Output) (s t : State) : Prop extends SameFor cid s t where
  outs : ∃ o, s.outs = a ++ o ∧ t.outs = b ++ o

namespace InStep
variable {cid : Cid} {a b : List Output} {s t : State}

/-- The transient registers are read by nothing that follows, so each side may write its own. -/
theorem registers (h : InStep cid a b s t) (c c' : U16) (p p' : Nat) (m m' : Option Message) (r r' : Result) :
    InStep cid a b { s with crcR := c, pos := p, msg := m, result := r }
      { t with crcR := c', pos := p', msg := m', result := r' } where
  toSameFor := ⟨h.session, h.rx, h.pend, h.deferred, h.cfg⟩
  outs := h.outs

theorem setResult (h : InStep cid a b s t) (r r' : Result) : InStep cid a b (s.setResult r) (t.setResult r') :=
  h.registers ..

theorem setCrc (h : InStep cid a b s t) (c c' : U16) : InStep cid a b (s.setCrc c) (t.setCrc c') := h.registers ..

theorem setMsg (h : InStep cid a b s t) (m m' : Message) : InStep cid a b (s.setMsg m) (t.setMsg m') := h.registers ..

theorem setPos (h : InStep cid a b s t) (p p' : Nat) : InStep cid a b (s.setPos p) (t.setPos p') := h.registers ..

theorem emit (h : InStep cid a b s t) (x : Output) : InStep cid a b (s.emit x) (t.emit x) where
  toSameFor := ⟨h.session, h.rx, h.pend, h.deferred, h.cfg⟩
  outs := by
    obtain ⟨o, hs, ht⟩ := h.outs
    exact ⟨o ++ [x], by simp [hs], by simp [ht]⟩

theorem modSession (h : InStep cid a b s t) (f : Session → Session) :
    InStep cid a b (s.modSession cid f) (t.modSession cid f) where
  session := by rw [State.session?_modSession_same, State.session?_modSession_same, h.session]
  rx := h.rx
  pend := h.pend
  deferred := h.deferred
  cfg := h.cfg
  outs := h.outs

theorem setRx (h : InStep cid a b s t) (buf : Bytes) : InStep cid a b (s.setRx cid buf) (t.setRx cid buf) where
  session := h.session
  rx := by rw [State.rxOf_setRx_same, State.rxOf_setRx_same]
  pend := h.pend
  deferred := h.deferred
  cfg := h.cfg
  outs := h.outs

theorem refresh (h : InStep cid a b s t) (u : StatusUpdate) (now : Time) :
    InStep cid a b (s.refresh cid u now) (t.refresh cid u now) := by
  rw [State.refresh, State.refresh, h.cfg]
  exact h.modSession _

theorem sendAck (h : InStep cid a b s t) (pp : AckProto) (n : U16) :
    InStep cid a b (s.sendAck cid pp n) (t.sendAck cid pp n) :=
  (h.setCrc _ _).emit _

theorem confirmed (h : InStep cid a b s t) (id : Digits) (r : PendRec) :
    InStep cid a b (s.confirmed id r) (t.confirmed id r) := by
  obtain ⟨sess, rxbuf, pend, deferred, cfg, -, -, -, -, -, -, outs⟩ := s.confirmed_frame id r
  obtain ⟨sess', rxbuf', pend', deferred', cfg', -, -, -, -, -, -, outs'⟩ := t.confirmed_frame id r
  obtain ⟨o, hs, ht⟩ := h.outs
  exact
    { session := by rw [State.session?_congr sess, State.session?_congr sess', h.session]
      rx := by rw [State.rxOf_congr rxbuf, State.rxOf_congr rxbuf', h.rx]
      pend := by rw [pend, pend', h.pend]
      deferred := by rw [deferred, deferred', h.deferred]
      cfg := by rw [cfg, cfg', h.cfg]
      outs := by
        rw [outs, outs', hs, ht, h.cfg]
        simp only [List.append_assoc]
        exact ⟨_, rfl, rfl⟩ }

/-- C.CONFIRM reads the identity of the connection and that identity's record, which are the same (R257). -/
theorem confirm (h : InStep cid a b s t) (text : Bytes) : InStep cid a b (s.confirm cid text) (t.confirm cid text) := by
  unfold State.confirm
  rw [h.imeiOf]
  cases t.imeiOf cid with
  | none => exact h
  | some id =>
    simp only [h.pend? id]
    cases t.pend? id with
    | none => exact h
    | some r =>
      dsimp only
      split
      · exact h.confirmed id r
      · exact h

/-- An RX.* rule decodes the same message on both sides. -/
theorem recvRule (h : InStep cid a b s t) (rule : RxRule) (now : Time) (p : Bytes) (n : U16) :
    (recvRule rule cid now p n s).1 = (recvRule rule cid now p n t).1 ∧
      InStep cid a b (recvRule rule cid now p n s).2 (recvRule rule cid now p n t).2 := by
  cases rule with
  | login =>
    simp only [Machine.recvRule, recvLogin]
    cases loginIdentity p with
    | none => exact ⟨rfl, h.sendAck _ _⟩
    | some d => exact ⟨rfl, (h.modSession _).sendAck _ _⟩
  | heartbeat =>
    simp only [Machine.recvRule, recvHeartbeat]
    split
    · exact ⟨rfl, h.sendAck _ _⟩
    · exact ⟨rfl, (h.refresh _ _).sendAck _ _⟩
  | locBasic =>
    simp only [Machine.recvRule, recvLocBasic, h.cacheOf]
    split
    · exact ⟨rfl, h.sendAck _ _⟩
    · exact ⟨rfl, (h.modSession _).sendAck _ _⟩
  | locExt =>
    simp only [Machine.recvRule, recvLocExt, (h.refresh _ _).cacheOf]
    split
    · exact ⟨rfl, h.sendAck _ _⟩
    · exact ⟨rfl, (h.refresh _ _).sendAck _ _⟩
  | cmdResp21 | cmdResp15 => exact ⟨rfl, h.confirm _⟩
  | unknown => exact ⟨rfl, h⟩

theorem afterCheck (h : InStep cid a b s t) (f : Bytes) : InStep cid a b (s.afterCheck f) (t.afterCheck f) := by
  obtain ⟨c, hs⟩ := s.afterCheck_eq_setCrc f
  obtain ⟨d, ht⟩ := t.afterCheck_eq_setCrc f
  rw [hs, ht]
  exact h.setCrc c d

/-- The log record of a dropped frame names the identity of the connection, which is the same (R284). -/
theorem dropFrame (h : InStep cid a b s t) (f : Bytes) (e : Cond) :
    InStep cid a b (s.dropFrame cid f e) (t.dropFrame cid f e) := by
  rw [State.dropFrame, State.dropFrame, h.imeiOf]
  exact (h.emit _).setResult _ _

/-- So does that of an accepted frame (R289). -/
theorem acceptFrame (h : InStep cid a b s t) (f : Bytes) (hd : Header) (m : Message) :
    InStep cid a b (s.acceptFrame cid f hd m) (t.acceptFrame cid f hd m) := by
  rw [State.acceptFrame, State.acceptFrame, h.imeiOf]
  exact (h.emit _).setResult _ _

/-- One frame (R284). -/
theorem processed (h : InStep cid a b s t) (f : Bytes) (now : Time) :
    InStep cid a b (s.processed cid f now) (t.processed cid f now) := by
  have checked := h.afterCheck f
  unfold State.processed
  rw [h.cfg]
  cases checkFrame t.cfg.verifyRxCrc f with
  | some e => exact checked.dropFrame f e
  | none =>
    obtain ⟨message, state⟩ :=
      checked.recvRule (dispatchOf (headerOf f).proto) now (headerOf f).payload (headerOf f).serial
    simp only [message]
    exact (state.setMsg _ _).acceptFrame _ _ _

/-- The frames of a delivery, one after the other (R283). -/
theorem processAll (h : InStep cid a b s t) (fs : List Bytes) (now : Time) :
    InStep cid a b (s.processAll cid fs now) (t.processAll cid fs now) := by
  induction fs generalizing s t with
  | nil => exact h
  | cons f fs ih => exact ih (h.processed f now)

/-- A delivery: the two buffers hold the same bytes, so FR.SCAN finds the same frames in both and leaves the same. -/
theorem rxDelivered (h : InStep cid a b s t) (data : Bytes) (now : Time) :
    InStep cid a b (s.rxDelivered cid data now) (t.rxDelivered cid data now) := by
  unfold State.rxDelivered
  rw [h.rxWith]
  exact (((h.setPos _ _).processAll _ now).setRx _).setResult _ _

end InStep

theorem SameFor.inStep {cid : Cid} {s t : State} (h : SameFor cid s t) : InStep cid s.outs t.outs s t :=
  ⟨h, [], (List.append_nil _).symm, (List.append_nil _).symm⟩

/-- Settles O58: both deliveries are made, since liveness and room are read from what the states share, and each of
their writes keeps the two states in step. -/
theorem deliveryIndependentOfOthers : Obligations.DeliveryIndependentOfOthers := by
  intro cid data now s t r hr hroom same
  have live := State.connected_of_session hr
  have live' := State.connected_of_session (same.session.symm.trans hr)
  have hroom' := hroom
  rw [same.cfg, same.rx] at hroom'
  have after := same.inStep.rxDelivered data now
  obtain ⟨o, outs, outs'⟩ := after.outs
  exact ⟨_, _, o, exec_evRx_next now live hroom, exec_evRx_next now live' hroom', outs, outs', after.toSameFor⟩

/-! ### A request that names no operation (R310, R254) -/

/-- Settles O38: the token fails each of the three comparisons of EV_CMD, which then rejects the request. -/
theorem unknownTokenRejected : Obligations.UnknownTokenRejected := by
  intro id token ref now s notBloquear notLiberar notBateria
  have rejected : execEvCmd id token ref now s = .next (s.rejectRequest (some ref) .eBadReq) := by
    rw [execEvCmd, if_neg notBloquear, if_neg notLiberar, if_neg notBateria]
  exact rejected

end Sys2Proof.Machine
end

section
/-!
PROOFS. The state after reset (`70_reset_and_hazards.md` R340, decision D30): what a look-up in its tables answers.
-/

namespace Sys2Proof.Machine

/-! ### Look-ups after reset (R340, R41) -/

/-- No connection is live after reset (R340). -/
@[simp] theorem State.session?_resetWith (cfg : Config.Params) (cid : Cid) :
    (State.resetWith cfg).session? cid = none :=
  tget_nil cid

/-- Every identity is Idle after reset: none has a pending record (R41). -/
@[simp] theorem State.pend?_resetWith (cfg : Config.Params) (id : Digits) : (State.resetWith cfg).pend? id = none :=
  tget_nil id

/-- Settles O51: the fields are the ones reset writes, and a look-up in an empty table finds nothing. -/
theorem resetIsEmpty : Obligations.ResetIsEmpty := by
  intro cfg
  have idle : ∀ id, (State.resetWith cfg).pend? id = none := State.pend?_resetWith cfg
  have offline : ∀ cid, (State.resetWith cfg).session? cid = none := State.session?_resetWith cfg
  exact ⟨rfl, rfl, rfl, idle, offline, rfl, rfl⟩

end Sys2Proof.Machine
end
